-- ==== Sys2Proof/Word.lean ====
section
/-! DEFINITION. The words of the core: bytes, 32-bit datapath words, 16-bit command words. -/

namespace Sys2Proof

/-- A byte, an unsigned 8-bit value (00_scope.md R4). -/
abbrev Byte := BitVec 8

/-- A word of the datapath or of the response channel, unsigned, 32 bits (R4, R36, R60). -/
abbrev Word := BitVec 32

/-- A command word `cmd[15:0]` (20_memory.md R35, 30_encoding.md R46). -/
abbrev CmdWord := BitVec 16

end Sys2Proof
end

