-- ==== Sys2Proof/Syntax.lean ====
section
/-! DEFINITION. The ten commands of the core, one constructor per row of spec/opcode_table.json
(30_encoding.md R50). -/

namespace Sys2Proof

/-- A decoded command with its operand (R50, R56). -/
inductive Instr where
  /-- `NOP` (43_system_commands.md R105) -/
  | nop
  /-- `SHA_INIT` (41_sha1_commands.md R80) -/
  | shaInit
  /-- `HMAC_INIT` (42_hmac_commands.md R93) -/
  | hmacInit
  /-- `KEY_END` (42_hmac_commands.md R95) -/
  | keyEnd
  /-- `MSG_BYTE imm8` (41_sha1_commands.md R81) -/
  | msgByte (imm8 : BitVec 8)
  /-- `KEY_BYTE imm8` (42_hmac_commands.md R94) -/
  | keyByte (imm8 : BitVec 8)
  /-- `FINAL` (41_sha1_commands.md R82) -/
  | final
  /-- `RD_DIGEST idx` (43_system_commands.md R106); the field is three bits wide (R49) -/
  | rdDigest (idx : BitVec 3)
  /-- `RD_STATUS` (43_system_commands.md R107) -/
  | rdStatus
  /-- `RESET` (43_system_commands.md R108) -/
  | reset
  deriving DecidableEq, Repr

end Sys2Proof
end

