-- ==== Sys2Proof/WellFormed.lean ====
section
/-! DEFINITION. Which terms of `Instr` are commands: the one check the encoding makes on an operand. -/

namespace Sys2Proof

/-- The digest index of `RD_DIGEST` is 0 to 4 (30_encoding.md R49, R54); every byte operand is legal
(R48), and the other commands have no operand (R47). -/
def Instr.wellFormed : Instr → Bool
  | .nop => true
  | .shaInit => true
  | .hmacInit => true
  | .keyEnd => true
  | .msgByte _ => true
  | .keyByte _ => true
  | .final => true
  | .rdDigest idx => decide (idx.toNat ≤ 4)
  | .rdStatus => true
  | .reset => true

end Sys2Proof
end

