-- ==== Sys2Proof/Decode.lean ====
section
/-! DEFINITION. The decoder, total on all 65536 command words and rejecting by name (30_encoding.md R51
to R54), and after it the encoder (R50, R51). -/

namespace Sys2Proof

/-- Why a word is `Illegal`. -/
inductive Illegal where
  /-- `op` is 0x9 to 0xE (R52) -/
  | reservedOpcode
  /-- a defined opcode with a `zero` field that is not all zeros (R53) -/
  | reservedBits
  /-- `RD_DIGEST` with index 5, 6 or 7 (R54) -/
  | indexOutOfRange
  deriving DecidableEq, Repr

/-- What a word decodes to: a command or `Illegal` (R51). -/
inductive Decoded where
  | command (i : Instr)
  | illegal (why : Illegal)
  deriving DecidableEq, Repr

/-- `cmd[15:12]`, the opcode of every format (R47, R48, R49). -/
def opField (w : CmdWord) : BitVec 4 := w.extractLsb' 12 4

/-- `cmd[7:0]`, the byte operand of format B (R48, R56). -/
def imm8Field (w : CmdWord) : BitVec 8 := w.extractLsb' 0 8

/-- `cmd[2:0]`, the index operand of format I (R49, R56). -/
def idxField (w : CmdWord) : BitVec 3 := w.extractLsb' 0 3

/-- Format N: `cmd[11:0]` must be zero (R47). -/
def decodeN (i : Instr) (w : CmdWord) : Decoded :=
  if w.extractLsb' 0 12 = 0#12 then .command i else .illegal .reservedBits

/-- Format B: `cmd[11:8]` must be zero, `cmd[7:0]` is the byte (R48). -/
def decodeB (i : BitVec 8 → Instr) (w : CmdWord) : Decoded :=
  if w.extractLsb' 8 4 = 0#4 then .command (i (imm8Field w)) else .illegal .reservedBits

/-- Format I: `cmd[11:3]` must be zero, `cmd[2:0]` at most 4 (R49, R54). -/
def decodeI (i : BitVec 3 → Instr) (w : CmdWord) : Decoded :=
  if w.extractLsb' 3 9 = 0#9 then
    if (idxField w).toNat ≤ 4 then .command (i (idxField w)) else .illegal .indexOutOfRange
  else .illegal .reservedBits

/-- `decode(w)` of R51; it depends on nothing but the word. -/
def decode (w : CmdWord) : Decoded :=
  match (opField w).toNat with
  | 0x0 => decodeN .nop w
  | 0x1 => decodeN .shaInit w
  | 0x2 => decodeN .hmacInit w
  | 0x3 => decodeN .keyEnd w
  | 0x4 => decodeB .msgByte w
  | 0x5 => decodeB .keyByte w
  | 0x6 => decodeN .final w
  | 0x7 => decodeI .rdDigest w
  | 0x8 => decodeN .rdStatus w
  | 0xF => decodeN .reset w
  | _ => .illegal .reservedOpcode

/-- The word of a command (R50, R51: `encode(MSG_BYTE(b)) = 0x4000 | b`, and so on). -/
def encode : Instr → CmdWord
  | .nop => 0x0000#16
  | .shaInit => 0x1000#16
  | .hmacInit => 0x2000#16
  | .keyEnd => 0x3000#16
  | .msgByte imm8 => 0x4000#16 ||| imm8.setWidth 16
  | .keyByte imm8 => 0x5000#16 ||| imm8.setWidth 16
  | .final => 0x6000#16
  | .rdDigest idx => 0x7000#16 ||| idx.setWidth 16
  | .rdStatus => 0x8000#16
  | .reset => 0xF000#16

/-- Whether a word is one of the ten commands (R59 counts them). -/
def isLegalWord (w : CmdWord) : Bool :=
  match decode w with
  | .command _ => true
  | .illegal _ => false

/-- The instruction the decoder reads from bits numbered as spec/opcode_table.json numbers them: the
low `nbits` bits of `w`, the rest zero.  A command is exactly one 16-bit word (R46), so a number that
does not fit 16 bits is no command (log entry 21). -/
def decodeTableWord (nbits w : Nat) : Option Instr :=
  if w % 2 ^ nbits < 2 ^ 16 then
    match decode (BitVec.ofNat 16 (w % 2 ^ nbits)) with
    | .command i => some i
    | .illegal _ => none
  else none

end Sys2Proof
end

