-- ==== Sys2Proof/Machine/State.lean ====
section
/-! DEFINITION. The state of the core (10_state.md), the data of its two channels (20_memory.md R31,
70_reset_and_hazards.md R136), and the ways a step can stop. -/

namespace Sys2Proof.Machine

/-- `PHASE`, a 3-bit register that holds one of six values (10_state.md R18); the codes stand in
`Phase.code` (Flags.lean).  Log entry 12. -/
inductive Phase where
  /-- 0: no invocation in progress, no digest available -/
  | idle
  /-- 1: a plain SHA-1 invocation is absorbing message bytes -/
  | shaMsg
  /-- 2: an HMAC invocation is absorbing key bytes -/
  | hmacKey
  /-- 3: an HMAC invocation is absorbing message bytes -/
  | hmacMsg
  /-- 4: the last invocation finished, `H` is its digest -/
  | done
  /-- 7: a protocol error was recorded -/
  | error
  deriving DecidableEq, Repr

/-- `ERRCODE`, a 3-bit register that holds one of four values (10_state.md R19, 60_exceptions.md R116);
the codes stand in `ErrCode.code` (Flags.lean).  Log entry 12. -/
inductive ErrCode where
  | none
  | illegalCmd
  | badPhase
  | lenOverflow
  deriving DecidableEq, Repr

/-- The three errors a command can raise (60_exceptions.md R116). -/
inductive Cause where
  | illegalCmd
  | badPhase
  | lenOverflow
  deriving DecidableEq, Repr

/-- A cell of the legality matrix (60_exceptions.md R118): Y, B or –. -/
inductive Legality where
  | legal
  | badPhase
  | ignored
  deriving DecidableEq, Repr

/-- The three things a host may do (00_scope.md R9). -/
inductive HostAct where
  /-- offer a command word and hold it until it is accepted (70_reset_and_hazards.md R139(a)) -/
  | offer (w : CmdWord)
  /-- take the response word being offered (R139(b)) -/
  | take
  /-- assert hard reset (R135) -/
  | hardReset
  deriving DecidableEq, Repr

/-- The working registers `A, B, C, D, E` (10_state.md R11). -/
structure Working where
  a : Word
  b : Word
  c : Word
  d : Word
  e : Word
  deriving DecidableEq, Repr

/-- The state: every register of 10_state.md, then the data of the channels, then the model's own
counter of free values. -/
structure State where
  /-- `H[0..4]`, the hash state (R10) -/
  h : Vector Word 5
  /-- `A..E` (R11) -/
  work : Working
  /-- `W[0..79]`, the message schedule (R12) -/
  w : Vector Word 80
  /-- `T`, the round index (R13) -/
  t : BitVec 7
  /-- `BLK[0..63]`, the block buffer (R14) -/
  blk : Vector Byte 64
  /-- `IDX`, the fill index of `BLK` (R15) -/
  idx : BitVec 6
  /-- `LEN`, the bytes absorbed by the hash in progress (R16) -/
  len : BitVec 61
  /-- `KBLK[0..63]`, the HMAC key block (R17) -/
  kblk : Vector Byte 64
  /-- `PHASE` (R18) -/
  phase : Phase
  /-- `ERRCODE` (R19) -/
  errcode : ErrCode
  /-- the response word offered on `rsp` and not yet taken (20_memory.md R36, 70 R139) -/
  rsp : Option Word
  /-- the response words the host has taken, oldest first (20_memory.md R31, R42) -/
  taken : List Word
  /-- what the host still does, first act first (00_scope.md R9; log entry 4) -/
  host : List HostAct
  /-- the model's own: how many times free values were drawn (log entries 2 and 3) -/
  freeDraws : Nat
  deriving DecidableEq, Repr

/-- Why a step stops.  No command of the spec stops the machine: its errors are next states (R121). -/
inductive Fault where
  /-- Raised by `step`, never by a command's meaning: a response is outstanding, the host offers a command
  and never takes the response, so the core waits for ever (70_reset_and_hazards.md R139(d), U12: stuck).
  Safe: the hardware's state stays as it is.  Log entry 5. -/
  | responseNeverTaken
  deriving DecidableEq, Repr

/-- Why an instruction is refused. -/
inductive Refusal where
  /-- Raised by an arm of `exec` whose instruction has no meaning yet; no arm raises it now.  Safe. -/
  | notModelled (mnemonic : String)
  deriving DecidableEq, Repr

/-- The outcome of a step or of a command. -/
abbrev Result := Host.Outcome State Fault Refusal

/-- The core right after hard reset (10_state.md R24, 70_reset_and_hazards.md R135): `PHASE = IDLE`,
`ERRCODE = NONE`, no response waiting.  The spec leaves every datapath register unspecified; the zeros
here are the model's choice (log entry 1, DESIGN CHOICE, unsafe), and so are the empty host lists
(log entry 14) and the counter (log entry 2). -/
def State.reset : State where
  h := Vector.replicate 5 0#32
  work := ⟨0#32, 0#32, 0#32, 0#32, 0#32⟩
  w := Vector.replicate 80 0#32
  t := 0#7
  blk := Vector.replicate 64 0#8
  idx := 0#6
  len := 0#61
  kblk := Vector.replicate 64 0#8
  phase := .idle
  errcode := .none
  rsp := none
  taken := []
  host := []
  freeDraws := 0

end Sys2Proof.Machine
end

