-- ==== Sys2Proof/Machine/Legality.lean ====
section
/-! DEFINITION. The legality matrix (60_exceptions.md R118, the master table by 90_conflicts.md C7). -/

namespace Sys2Proof.Machine

/-- A row of the matrix, its columns in the spec's order. -/
def legalityRow (idle shaMsg hmacKey hmacMsg done error : Legality) : Phase → Legality
  | .idle => idle
  | .shaMsg => shaMsg
  | .hmacKey => hmacKey
  | .hmacMsg => hmacMsg
  | .done => done
  | .error => error

/-- The matrix: legal (Y), raises `BAD_PHASE` (B), ignored (–) (R118).
Columns: IDLE, SHA_MSG, HMAC_KEY, HMAC_MSG, DONE, ERROR. -/
def legality : Instr → Phase → Legality
  | .nop        => legalityRow .legal    .legal    .legal    .legal    .legal    .legal
  | .shaInit    => legalityRow .legal    .legal    .legal    .legal    .legal    .ignored
  | .hmacInit   => legalityRow .legal    .legal    .legal    .legal    .legal    .ignored
  | .keyByte _  => legalityRow .badPhase .badPhase .legal    .badPhase .badPhase .ignored
  | .keyEnd     => legalityRow .badPhase .badPhase .legal    .badPhase .badPhase .ignored
  | .msgByte _  => legalityRow .badPhase .legal    .badPhase .legal    .badPhase .ignored
  | .final      => legalityRow .badPhase .legal    .badPhase .legal    .badPhase .ignored
  | .rdDigest _ => legalityRow .badPhase .badPhase .badPhase .badPhase .legal    .ignored
  | .rdStatus   => legalityRow .legal    .legal    .legal    .legal    .legal    .legal
  | .reset      => legalityRow .legal    .legal    .legal    .legal    .legal    .legal

end Sys2Proof.Machine
end

