-- ==== Sys2Proof/Machine/Flags.lean ====
section
/-! DEFINITION. The codes of `PHASE` and `ERRCODE`, the two flags and the status word: all of them
functions of the state (10_state.md R18 to R21, 60_exceptions.md R116). -/

namespace Sys2Proof.Machine

/-- The 3-bit code of a phase (R18); 5 and 6 are never held. -/
def Phase.code : Phase → BitVec 3
  | .idle => 0
  | .shaMsg => 1
  | .hmacKey => 2
  | .hmacMsg => 3
  | .done => 4
  | .error => 7

/-- The 3-bit code of the error register (R19, R116); 4 to 7 are never held. -/
def ErrCode.code : ErrCode → BitVec 3
  | .none => 0
  | .illegalCmd => 1
  | .badPhase => 2
  | .lenOverflow => 3

/-- The value error entry writes to `ERRCODE` (R121: `ERRCODE <- code(X)`). -/
def Cause.errcode : Cause → ErrCode
  | .illegalCmd => .illegalCmd
  | .badPhase => .badPhase
  | .lenOverflow => .lenOverflow

/-- `DIGEST_VALID`: 1 exactly when `PHASE = DONE` (R20, R126). -/
def State.digestValid (s : State) : Bool := s.phase == .done

/-- `ERR`: 1 exactly when `PHASE = ERROR` (R20, R126). -/
def State.errFlag (s : State) : Bool := s.phase == .error

/-- `STATUS = zext_32(PHASE) | (DIGEST_VALID << 3) | (ERR << 4) | (zext_32(ERRCODE) << 5)` (R21). -/
def State.status (s : State) : Word :=
  s.phase.code.setWidth 32 ||| ((BitVec.ofBool s.digestValid).setWidth 32 <<< 3)
    ||| ((BitVec.ofBool s.errFlag).setWidth 32 <<< 4) ||| (s.errcode.code.setWidth 32 <<< 5)

end Sys2Proof.Machine
end

