-- ==== Sys2Proof/Config.lean ====
section
/-! DEFINITION. The parameters of the core (00_scope.md R3) and its free values: the values the spec
leaves unspecified are opaque constants, so that no proof can see one. -/

namespace Sys2Proof.Config

/-- `MAX_BYTES`: the most bytes one hash may absorb before padding (R3, decision D11). -/
def maxBytes : Nat := 2 ^ 61 - 1

/-- `IPAD_BYTE` (R3, 42_hmac_commands.md R92). -/
def ipadByte : Byte := 0x36#8

/-- `OPAD_BYTE` (R3, R92). -/
def opadByte : Byte := 0x5C#8

/-- Free value (log entry 2): what a 32-bit datapath register holds after a hard reset
(10_state.md R24, 70_reset_and_hazards.md R135: unspecified, "including a different one on each
reset").  Arguments: the draw, and the register's position among the 90 words `H`, `A..E`, `W`. -/
opaque resetWord : Nat → Nat → Word

/-- Free value (log entry 2): what a byte of `BLK` (positions 0 to 63) or `KBLK` (64 to 127) holds
after a hard reset (R24, R135). -/
opaque resetByte : Nat → Nat → Byte

/-- Free value (log entry 2): `IDX` after a hard reset (R24, R135). -/
opaque resetIdx : Nat → BitVec 6

/-- Free value (log entry 2): `LEN` after a hard reset (R24, R135). -/
opaque resetLen : Nat → BitVec 61

/-- Free value (log entry 2): `T` after a hard reset (R24, R135). -/
opaque resetRound : Nat → BitVec 7

/-- Free value (log entry 3): `T` after the fold of a compression (40_sha1_datapath.md R70 "after the
fold `T` is unspecified"), within the bound of 10_state.md R13 ("Values 80 to 127 never occur"). -/
opaque roundAfterFold : Nat → Fin 80

/-- Free value (log entry 10): the `rsp` output while `rsp_valid = 0` (20_memory.md R36, U7). -/
opaque idleRsp : Nat → Word

end Sys2Proof.Config
end

