-- ==== Sys2Proof/Machine/Datapath.lean ====
section
/-! DEFINITION. The SHA-1 datapath as pure functions: rotation, round functions and constants, schedule,
round, compression, byte orders (40_sha1_datapath.md R60 to R70, 20_memory.md R32 to R34).  The four
round functions, the four constants, the round's data flow, the load of `A..E`, the meaning of `ROTL` and
addition modulo 2^32 are the spec's general-knowledge passages G1 to G6 (log entry 9). -/

namespace Sys2Proof.Machine

/-- `ROTL(x, n)` for `n` in 1..31 (R61; other amounts are never used, log entry 22). -/
def rotl (x : Word) (n : Nat) : Word := (x <<< n) ||| (x >>> (32 - n))

/-- `IV`, the initial hash value (R62, R10). -/
def iv : Vector Word 5 :=
  #v[0x67452301#32, 0xEFCDAB89#32, 0x98BADCFE#32, 0x10325476#32, 0xC3D2E1F0#32]

/-- Ch, the function of band 0 (R63). -/
def ch (b c d : Word) : Word := (b &&& c) ||| (~~~b &&& d)

/-- Parity, the function of bands 1 and 3 (R63). -/
def parity (b c d : Word) : Word := b ^^^ c ^^^ d

/-- Maj, the function of band 2 (R63). -/
def maj (b c d : Word) : Word := (b &&& c) ||| (b &&& d) ||| (c &&& d)

/-- `f(t, b, c, d)`: the band of `t` is `t div 20` (R63, R64). -/
def roundF (t : Nat) (b c d : Word) : Word :=
  match t / 20 with
  | 0 => ch b c d
  | 1 => parity b c d
  | 2 => maj b c d
  | _ => parity b c d

/-- `K(t)` (R64). -/
def roundK (t : Nat) : Word :=
  match t / 20 with
  | 0 => 0x5A827999#32
  | 1 => 0x6ED9EBA1#32
  | 2 => 0x8F1BBCDC#32
  | _ => 0xCA62C1D6#32

/-- `be32(x)`: four bytes, most significant first (00_scope.md R6). -/
def be32 (x : Word) : List Byte :=
  [x.extractLsb' 24 8, x.extractLsb' 16 8, x.extractLsb' 8 8, x.extractLsb' 0 8]

/-- `be64(x)`: eight bytes, most significant first (R6). -/
def be64 (x : BitVec 64) : List Byte :=
  [x.extractLsb' 56 8, x.extractLsb' 48 8, x.extractLsb' 40 8, x.extractLsb' 32 8,
   x.extractLsb' 24 8, x.extractLsb' 16 8, x.extractLsb' 8 8, x.extractLsb' 0 8]

/-- Four bytes of a block as a word, the first the most significant (20_memory.md R32). -/
def wordOfBytes (b0 b1 b2 b3 : Byte) : Word := b0 ++ b1 ++ b2 ++ b3

/-- Schedule load: `W[j]` for `j` in 0..15 (R65). -/
def loadWord (blk : Vector Byte 64) (j : Nat) : Word :=
  wordOfBytes (blk.getD (4 * j) 0) (blk.getD (4 * j + 1) 0) (blk.getD (4 * j + 2) 0)
    (blk.getD (4 * j + 3) 0)

/-- The next word of a schedule whose words so far are listed newest first, so that `W[j-3]` is at
place 2: `ROTL(W[j-3] ^ W[j-8] ^ W[j-14] ^ W[j-16], 1)` (R66). -/
def nextWord (newestFirst : List Word) : Word :=
  rotl (newestFirst.getD 2 0 ^^^ newestFirst.getD 7 0 ^^^ newestFirst.getD 13 0
    ^^^ newestFirst.getD 15 0) 1

/-- `n` steps of the schedule expansion (R66), newest word first. -/
def expand : Nat → List Word → List Word
  | 0, ws => ws
  | n + 1, ws => expand n (nextWord ws :: ws)

/-- The first sixteen words, newest first (R65). -/
def loadedWords (blk : Vector Byte 64) : List Word :=
  ((List.range 16).map (loadWord blk)).reverse

/-- The eighty words `W[0]`, `W[1]`, ... in order (R65, R66). -/
def scheduleWords (blk : Vector Byte 64) : List Word := (expand 64 (loadedWords blk)).reverse

theorem length_expand (n : Nat) (ws : List Word) : (expand n ws).length = n + ws.length := by
  induction n generalizing ws with
  | zero => simp [expand]
  | succ n ih => simp [expand, ih]; omega

theorem length_scheduleWords (blk : Vector Byte 64) : (scheduleWords blk).length = 80 := by
  simp [scheduleWords, length_expand, loadedWords]

/-- The message schedule of a block, as the registers `W[0..79]` hold it (R12, R65, R66). -/
def schedule (blk : Vector Byte 64) : Vector Word 80 :=
  ⟨(scheduleWords blk).toArray, by simp [length_scheduleWords]⟩

/-- Working-register load (R67). -/
def loadWorking (h : Vector Word 5) : Working := ⟨h[0], h[1], h[2], h[3], h[4]⟩

/-- Round `t` on the working registers, with the schedule word `W[t]` (R68). -/
def roundStep (t : Nat) (wt : Word) (r : Working) : Working :=
  { a := rotl r.a 5 + roundF t r.b r.c r.d + r.e + roundK t + wt
    b := r.a
    c := rotl r.b 30
    d := r.c
    e := r.d }

/-- Rounds `t`, `t + 1`, ... with the schedule words given in order (R70). -/
def roundsFrom : List Word → Nat → Working → Working
  | [], _, r => r
  | wt :: ws, t, r => roundsFrom ws (t + 1) (roundStep t wt r)

/-- Fold: the working registers added into the hash state, modulo 2^32 (R69). -/
def foldInto (h : Vector Word 5) (r : Working) : Vector Word 5 :=
  #v[h[0] + r.a, h[1] + r.b, h[2] + r.c, h[3] + r.d, h[4] + r.e]

/-- The working registers after the 80 rounds on a block, started from `h` (R67, R68). -/
def workingAfter (h : Vector Word 5) (blk : Vector Byte 64) : Working :=
  roundsFrom (scheduleWords blk) 0 (loadWorking h)

/-- `compress(h, block)`, the compression as a pure function (R70). -/
def compress (h : Vector Word 5) (blk : Vector Byte 64) : Vector Word 5 :=
  foldInto h (workingAfter h blk)

/-- The digest bytes of a hash state: `be32(H[0]) ++ ... ++ be32(H[4])` (R76, 20_memory.md R34). -/
def digestOf (h : Vector Word 5) : List Byte := h.toList.flatMap be32

end Sys2Proof.Machine
end

