-- ==== Sys2Proof/Machine/Hash.lean ====
section
/-! DEFINITION. The two functions the core computes, as pure functions of byte sequences, written apart
from the machine's streaming operations: `Pad` and `SHA1` (40_sha1_datapath.md R74, R77), `KeyBlock`, the
pads and `HMAC` (42_hmac_commands.md R90 to R92).  `SHA1`, `KeyBlock` and `HMAC` are partial: `none` outside
the domain the spec gives them (log entry 18); `Pad` is total (log entry 24). -/

namespace Sys2Proof.Machine

/-- `z = (55 - L) mod 64`, the zero bytes of the padding (R74), without a negative number: the least `z`
with `L + 1 + z = 56` modulo 64. -/
def padZeros (len : Nat) : Nat := (55 + 64 - len % 64) % 64

/-- `Pad(L)` (R74): one byte 0x80, `z` zero bytes, the bit length as 64 bits big-endian.  The spec defines it
for `L` up to `MAX_BYTES` only.  DESIGN CHOICE (log entry 24): the Lean function is total, and beyond that
bound its length field is `8 L` modulo 2^64; `sha1` never asks for it there. -/
def pad (len : Nat) : List Byte :=
  0x80#8 :: (List.replicate (padZeros len) 0x00#8 ++ be64 (BitVec.ofNat 64 (8 * len)))

/-- Bytes `64 i` to `64 i + 63` of a padded message (R77). -/
def blockAt (p : List Byte) (i : Nat) : Vector Byte 64 :=
  Vector.ofFn fun j : Fin 64 => p.getD (64 * i + j.val) 0#8

/-- The chaining value after the first `n` blocks of `p`, started from `IV` (R77). -/
def hashBlocks (p : List Byte) (n : Nat) : Vector Word 5 :=
  (List.range n).foldl (fun h i => compress h (blockAt p i)) iv

/-- `SHA1(m)` (R77): defined for `|m| ≤ MAX_BYTES`. -/
def sha1 (m : List Byte) : Option (List Byte) :=
  if m.length ≤ Config.maxBytes then
    let p := m ++ pad m.length
    some (digestOf (hashBlocks p (p.length / 64)))
  else none

/-- A byte sequence of at most 64 bytes, zero-padded to a key block: `k' ++ rep(0x00, 64 - |k'|)` (R91). -/
def keyBlockOf (k' : List Byte) : Vector Byte 64 := Vector.ofFn fun i : Fin 64 => k'.getD i.val 0#8

/-- `KeyBlock(k)` (R91): a key of more than 64 bytes is hashed first. -/
def keyBlock (k : List Byte) : Option (Vector Byte 64) :=
  if k.length > 64 then (sha1 k).map keyBlockOf else some (keyBlockOf k)

/-- A key block XORed with one byte repeated 64 times: `ipad` with 0x36, `opad` with 0x5C (R92). -/
def xorPad (kb : Vector Byte 64) (x : Byte) : List Byte := kb.toList.map (· ^^^ x)

/-- `HMAC(k, m)` (R90): defined for `|k| ≤ MAX_BYTES` and `|m| ≤ MAX_BYTES - 64`. -/
def hmac (k m : List Byte) : Option (List Byte) :=
  (keyBlock k).bind fun kb =>
    (sha1 (xorPad kb Config.ipadByte ++ m)).bind fun inner =>
      sha1 (xorPad kb Config.opadByte ++ inner)

end Sys2Proof.Machine
end

