-- ==== Sys2Proof/Machine/Ops.lean ====
section
/-! DEFINITION. The operations over the state that the commands share: compression, absorption, padding,
the key block, responses, error entry and the return from it, hard reset (40_sha1_datapath.md R70 to R76,
42_hmac_commands.md R94 to R97, 60_exceptions.md R120 to R124, 70_reset_and_hazards.md R135, R139). -/

namespace Sys2Proof.Machine

/-! ## Single registers -/

/-- `LEN <- n`. -/
def State.setLen (s : State) (n : BitVec 61) : State := { s with len := n }

/-- `IDX <- i`. -/
def State.setIdx (s : State) (i : BitVec 6) : State := { s with idx := i }

/-- `PHASE <- p`. -/
def State.setPhase (s : State) (p : Phase) : State := { s with phase := p }

/-- `KBLK <- kb`, all 64 bytes. -/
def State.setKey (s : State) (kb : Vector Byte 64) : State := { s with kblk := kb }

/-- The acts the host still does, after one has been served. -/
def State.setHost (s : State) (acts : List HostAct) : State := { s with host := acts }

/-! ## Hashing -/

/-- `Compress()` (R70): writes `W`, `A..E`, `H`, and leaves `T` at a free value (log entry 3). -/
def State.compress (s : State) : State :=
  { s with
    w := schedule s.blk
    work := workingAfter s.h s.blk
    h := Machine.compress s.h s.blk
    t := BitVec.ofNat 7 (Config.roundAfterFold s.freeDraws).val
    freeDraws := s.freeDraws + 1 }

/-- `BLK[IDX] <- b` (R71). -/
def State.storeByte (s : State) (b : Byte) : State :=
  { s with blk := s.blk.set s.idx.toNat b s.idx.isLt }

/-- `AbsorbRaw(b)` (R71): the 64th byte of a block triggers the compression. -/
def State.absorbRaw (s : State) (b : Byte) : State :=
  if s.idx = 63#6 then
    (s.storeByte b).compress.setIdx 0#6
  else
    (s.storeByte b).setIdx (s.idx + 1#6)

/-- `AbsorbRaw` of each byte in turn. -/
def State.absorbRawAll (s : State) (bs : List Byte) : State := bs.foldl State.absorbRaw s

/-- `LEN = MAX_BYTES` (R72, R119). -/
def State.lenFull (s : State) : Bool := s.len.toNat == Config.maxBytes

/-- `Absorb(b)` (R72): the check first, then the count, then the byte. -/
def State.absorb (s : State) (b : Byte) : Except Cause State :=
  if s.lenFull then .error .lenOverflow
  else .ok ((s.setLen (s.len + 1#61)).absorbRaw b)

/-- `Absorb` of each byte in turn, stopping at the first that raises. -/
def State.absorbAll : List Byte → State → Except Cause State
  | [], s => .ok s
  | b :: bs, s =>
    match s.absorb b with
    | .error c => .error c
    | .ok s' => State.absorbAll bs s'

/-- `HashStart()` (R73). -/
def State.hashStart (s : State) : State := { s with h := iv, len := 0#61, idx := 0#6 }

/-- `while IDX != 56: AbsorbRaw(0x00)` (R75), at most `fuel` times; from any `IDX` at most 63 are needed
(log entry 23). -/
def State.zeroFill : Nat → State → State
  | 0, s => s
  | fuel + 1, s => if s.idx = 56#6 then s else State.zeroFill fuel (s.absorbRaw 0x00#8)

/-- `Finalize()` (R75): `bitlen` is taken before any padding byte is absorbed. -/
def State.finalize (s : State) : State :=
  let bitlen : BitVec 64 := 8#64 * s.len.setWidth 64
  (State.zeroFill 64 (s.absorbRaw 0x80#8)).absorbRawAll (be64 bitlen)

/-- `DigestBytes()` (R76). -/
def State.digestBytes (s : State) : List Byte := digestOf s.h

/-! ## The key block -/

/-- `KBLK[i] <- 0x00` for every `i` (42_hmac_commands.md R93). -/
def State.clearKey (s : State) : State := s.setKey (Vector.replicate 64 0#8)

/-- `if LEN < 64 then KBLK[LEN] <- b` (R94). -/
def State.storeKeyByte (s : State) (b : Byte) : State :=
  if hlt : s.len.toNat < 64 then s.setKey (s.kblk.set s.len.toNat b hlt) else s

/-- The first part of `KEY_END` (R95): a key longer than 64 bytes is replaced by its digest and 44 zero
bytes. -/
def State.settleKey (s : State) : State :=
  if s.len.toNat > 64 then s.finalize.setKey (keyBlockOf s.finalize.digestBytes) else s

/-- Begin a hash with the key block XORed with `x` as its first 64 bytes (R95 with 0x36, R97 with 0x5C). -/
def State.startPadded (s : State) (x : Byte) : Except Cause State :=
  State.absorbAll (xorPad s.kblk x) s.hashStart

/-- `HmacFinish()` (R97): `inner` is copied out of `H` before `H` is overwritten. -/
def State.hmacFinish (s : State) : Except Cause State :=
  match s.finalize.startPadded Config.opadByte with
  | .error c => .error c
  | .ok s1 =>
    match State.absorbAll s.finalize.digestBytes s1 with
    | .error c => .error c
    | .ok s2 => .ok s2.finalize

/-! ## Responses -/

/-- `respond(v)`: the word is offered on the response channel (00_scope.md R7, 20_memory.md R36). -/
def State.respond (s : State) (v : Word) : State := { s with rsp := some v }

/-- The host takes the word being offered, if any (70_reset_and_hazards.md R136, R139(b); log entry 15). -/
def State.takeResponse (s : State) : State :=
  match s.rsp with
  | some v => { s with rsp := none, taken := s.taken ++ [v] }
  | none => s

/-! ## Errors -/

/-- ERROR ENTRY, `raise X` (60_exceptions.md R121): `ERRCODE` and `PHASE`, nothing else; nothing is saved.
The response that a `RD_DIGEST` still makes is `respond` after this (R121, last line). -/
def State.raise (s : State) (c : Cause) : State := { s with errcode := c.errcode, phase := .error }

/-- RETURN FROM ERROR (60_exceptions.md R124, 43_system_commands.md R108): nothing is restored. -/
def State.clearError (s : State) : State := { s with phase := .idle, errcode := .none }

/-- An accepted word that is `Illegal` (R117): raised outside `ERROR`, ignored in it (R120, R123); it never
responds (R121). -/
def State.illegalWord (s : State) : State :=
  if s.phase = .error then s else s.raise .illegalCmd

/-- Either the result of a command's body or, when the body raises, error entry on the state before the
command: errors are precise (R122). -/
def State.settle (s : State) : Except Cause State → State
  | .ok s' => s'
  | .error c => s.raise c

/-- Steps 1, 3, 4 and 5 of R120 for a command that makes no response: by its cell of the legality matrix
it is ignored, raises `BAD_PHASE`, or runs its body. -/
def State.gated (s : State) (l : Legality) (body : Except Cause State) : Result :=
  match l with
  | .ignored => .next s
  | .badPhase => .next (s.raise .badPhase)
  | .legal => .next (s.settle body)

/-! ## Hard reset -/

/-- Hard reset (70_reset_and_hazards.md R135): `PHASE` and `ERRCODE`; an untaken response is dropped; the
datapath registers take unspecified values, here free values drawn anew each time (log entry 2). -/
def State.hardReset (s : State) : State :=
  let n := s.freeDraws
  { s with
    h := Vector.ofFn fun i : Fin 5 => Config.resetWord n i.val
    work := ⟨Config.resetWord n 5, Config.resetWord n 6, Config.resetWord n 7, Config.resetWord n 8,
      Config.resetWord n 9⟩
    w := Vector.ofFn fun i : Fin 80 => Config.resetWord n (10 + i.val)
    t := Config.resetRound n
    blk := Vector.ofFn fun i : Fin 64 => Config.resetByte n i.val
    idx := Config.resetIdx n
    len := Config.resetLen n
    kblk := Vector.ofFn fun i : Fin 64 => Config.resetByte n (64 + i.val)
    phase := .idle
    errcode := .none
    rsp := none
    freeDraws := n + 1 }

end Sys2Proof.Machine
end

