-- ==== Sys2Proof/Machine/Hmac.lean ====
section
/-! DEFINITION. The HMAC commands: `HMAC_INIT`, `KEY_BYTE`, `KEY_END` (42_hmac_commands.md). -/

namespace Sys2Proof.Machine

/-- `HMAC_INIT` (R93): clear `KBLK`, `HashStart`, `PHASE <- HMAC_KEY`. -/
def execHmacInit (s : State) : Result :=
  s.gated (legality .hmacInit s.phase) (.ok (s.clearKey.hashStart.setPhase .hmacKey))

/-- `KEY_BYTE imm8` (R94): into `KBLK` if among the first 64 bytes, and into the key's own hash.  The
length check of R94 is `Absorb`'s: it reads `LEN` only, and when it raises nothing is written (R122). -/
def execKeyByte (imm8 : BitVec 8) (s : State) : Result :=
  s.gated (legality (.keyByte imm8) s.phase) ((s.storeKeyByte imm8).absorb imm8)

/-- `KEY_END` (R95): settle the key block, start the inner hash with the ipad block,
`PHASE <- HMAC_MSG`. -/
def execKeyEnd (s : State) : Result :=
  s.gated (legality .keyEnd s.phase)
    (match s.settleKey.startPadded Config.ipadByte with
      | .ok s' => .ok (s'.setPhase .hmacMsg)
      | .error c => .error c)

end Sys2Proof.Machine
end

