-- ==== Sys2Proof/Machine/Sha.lean ====
section
/-! DEFINITION. The SHA-1 commands: `SHA_INIT`, `MSG_BYTE`, `FINAL` (41_sha1_commands.md). -/

namespace Sys2Proof.Machine

/-- `SHA_INIT` (R80): `HashStart`, then `PHASE <- SHA_MSG`. -/
def execShaInit (s : State) : Result :=
  s.gated (legality .shaInit s.phase) (.ok (s.hashStart.setPhase .shaMsg))

/-- `MSG_BYTE imm8` (R81): `Absorb(imm8)`; `PHASE` is unchanged. -/
def execMsgByte (imm8 : BitVec 8) (s : State) : Result :=
  s.gated (legality (.msgByte imm8) s.phase) (s.absorb imm8)

/-- The body of `FINAL` up to its write of `PHASE` (R82): `Finalize` in `SHA_MSG`, `HmacFinish` in
`HMAC_MSG`. -/
def State.finish (s : State) : Except Cause State :=
  if s.phase = .shaMsg then .ok s.finalize else s.hmacFinish

/-- `FINAL` (R82): finish the hash, then `PHASE <- DONE`. -/
def execFinal (s : State) : Result :=
  s.gated (legality .final s.phase)
    (match s.finish with
      | .ok s' => .ok (s'.setPhase .done)
      | .error c => .error c)

end Sys2Proof.Machine
end

