-- ==== Sys2Proof/Machine/Operands.lean ====
section
/-! DEFINITION. The operand forms of the commands (30_encoding.md R56) and where each reads or writes:
the byte operand is used as it stands (`State.absorb` and `State.storeKeyByte` of Ops.lean take it), the
index operand selects a word of `H`. -/

namespace Sys2Proof.Machine

/-- The word the index operand of `RD_DIGEST` selects: `H[idx]` for `idx` 0 to 4; the digest has no word
5, 6 or 7 (R54, R56, 43_system_commands.md R106). -/
def State.digestWord? (s : State) (idx : BitVec 3) : Option Word := s.h[idx.toNat]?

end Sys2Proof.Machine
end

