-- ==== Sys2Proof/Machine/System.lean ====
section
/-! DEFINITION. The system commands: `NOP`, `RD_DIGEST`, `RD_STATUS`, `RESET` (43_system_commands.md). -/

namespace Sys2Proof.Machine

/-- `NOP` (R105): nothing, in every phase. -/
def execNop (s : State) : Result :=
  s.gated (legality .nop s.phase) (.ok s)

/-- `RD_DIGEST idx` (R106): responds `H[idx]` in `DONE`; raises `BAD_PHASE` and responds 0 elsewhere (R121);
in `ERROR` responds 0 and does nothing (R123).  An index of 5 to 7 is no command (R54): the word is
`Illegal` (log entry 11). -/
def execRdDigest (idx : BitVec 3) (s : State) : Result :=
  match s.digestWord? idx with
  | none => .next s.illegalWord
  | some v =>
    match legality (.rdDigest idx) s.phase with
    | .legal => .next (s.respond v)
    | .badPhase => .next ((s.raise .badPhase).respond 0#32)
    | .ignored => .next (s.respond 0#32)

/-- `RD_STATUS` (R107): responds `STATUS`, in every phase; no side effect. -/
def execRdStatus (s : State) : Result :=
  s.gated (legality .rdStatus s.phase) (.ok (s.respond s.status))

/-- `RESET` (R108): the return from error (R124), and in every other phase the end of the invocation. -/
def execReset (s : State) : Result :=
  s.gated (legality .reset s.phase) (.ok s.clearError)

end Sys2Proof.Machine
end

