-- ==== Sys2Proof/Machine/Dispatch.lean ====
section
/-! DEFINITION. The meaning of each command, one arm per constructor of `Instr`. -/

namespace Sys2Proof.Machine

/-- What an accepted command does to the state (60_exceptions.md R120). -/
def exec (i : Instr) (s : State) : Host.Outcome State Fault Refusal :=
  match i with
  | .nop => Sys2Proof.Machine.execNop s
  | .shaInit => Sys2Proof.Machine.execShaInit s
  | .hmacInit => Sys2Proof.Machine.execHmacInit s
  | .keyEnd => Sys2Proof.Machine.execKeyEnd s
  | .msgByte imm8 => Sys2Proof.Machine.execMsgByte imm8 s
  | .keyByte imm8 => Sys2Proof.Machine.execKeyByte imm8 s
  | .final => Sys2Proof.Machine.execFinal s
  | .rdDigest idx => Sys2Proof.Machine.execRdDigest idx s
  | .rdStatus => Sys2Proof.Machine.execRdStatus s
  | .reset => Sys2Proof.Machine.execReset s

end Sys2Proof.Machine
end

