-- ==== Sys2Proof/Machine/Channel.lean ====
section
/-! DEFINITION. The command and response channels at the level of accepted and taken words
(20_memory.md R31, R41, R42; 70_reset_and_hazards.md R135, R136, R139): which of the host's acts is
served next, and the acceptance of a command word. -/

namespace Sys2Proof.Machine

/-- The first act that can be served while a response is outstanding: the core accepts no command then
(R139(c)), so the commands before it stay offered.  Answers the act and the acts left (log entry 4). -/
def firstWithoutCommand : List HostAct → Option (HostAct × List HostAct)
  | [] => none
  | .offer w :: rest => (firstWithoutCommand rest).map fun p => (p.1, .offer w :: p.2)
  | .take :: rest => some (.take, rest)
  | .hardReset :: rest => some (.hardReset, rest)

/-- The act that is served next, and the acts left. -/
def State.nextAct (s : State) : Option (HostAct × List HostAct) :=
  match s.rsp with
  | some _ => firstWithoutCommand s.host
  | none =>
    match s.host with
    | [] => none
    | act :: rest => some (act, rest)

/-- The core accepts the command word `w` (60_exceptions.md R120, R121): decode, then execute or treat the
word as illegal. -/
def State.accept (s : State) (w : CmdWord) : Result :=
  match decode w with
  | .command i => exec i s
  | .illegal _ => .next s.illegalWord

/-- The effect of one act on a state from whose list it has been removed. -/
def State.serve (s : State) : HostAct → Result
  | .offer w => s.accept w
  | .take => .next s.takeResponse
  | .hardReset => .next s.hardReset

/-- What the core does while no act can be served: it waits, holding all state (00_scope.md R9,
60_exceptions.md R133; log entry 6), unless a command waits behind a response that the host never takes
(R139(d), U12; log entry 5). -/
def State.wait (s : State) : Result :=
  match s.host with
  | [] => .next s
  | _ :: _ => .fault .responseNeverTaken

/-- A command stream fed to the core by a host that takes each response before it offers the next word:
the left fold of 20_memory.md R41 over the words, the response stream in `taken` (R31, R42). -/
def State.feed : List CmdWord → State → Result
  | [], s => .next s
  | w :: ws, s =>
    match s.accept w with
    | .next s' => State.feed ws s'.takeResponse
    | .fault r => .fault r
    | .refused r => .refused r

end Sys2Proof.Machine
end

