-- ==== Sys2Proof/Machine/Step.lean ====
section
/-! DEFINITION. One step of the core, and how the host's check places a command before it. -/

namespace Sys2Proof.Machine

/-- One step: serve the next act of the host, or wait (00_scope.md R8, R9; 20_memory.md R41). -/
def step (s : State) : Host.Outcome State Fault Refusal :=
  match s.nextAct with
  | some (act, rest) => (s.setHost rest).serve act
  | none => s.wait

/-- `s` with the command word `w` (its low `nbits` bits, the rest zero) offered before everything else the
host still does, so that the next step accepts it.  The core accepts no command while a response is
outstanding, so an outstanding response is taken first (log entry 7). -/
def State.withFetchWord (s : State) (nbits w : Nat) : State :=
  s.takeResponse.setHost (.offer (BitVec.ofNat 16 (w % 2 ^ nbits)) :: s.host)

end Sys2Proof.Machine
end

