-- ==== Sys2Proof/Machine/Programs.lean ====
section
/-! DEFINITION. The pseudo-instructions (30_encoding.md R58), each a fixed sequence of commands, and the
host's acts that send one. -/

namespace Sys2Proof.Machine

/-- `MSG s` (R58). -/
def msgProgram (m : List Byte) : List Instr := m.map .msgByte

/-- `KEY s` (R58). -/
def keyProgram (k : List Byte) : List Instr := k.map .keyByte

/-- `SHA1 s` (R58). -/
def sha1Program (m : List Byte) : List Instr := .shaInit :: (msgProgram m ++ [.final])

/-- `HMAC k, s` (R58). -/
def hmacProgram (k m : List Byte) : List Instr :=
  .hmacInit :: (keyProgram k ++ .keyEnd :: (msgProgram m ++ [.final]))

/-- `RD_DIGEST_ALL` (R58). -/
def readDigestAll : List Instr :=
  [.rdDigest 0#3, .rdDigest 1#3, .rdDigest 2#3, .rdDigest 3#3, .rdDigest 4#3]

/-- The host offers each command of a program in order. -/
def offers (is : List Instr) : List HostAct := is.map fun i => .offer (encode i)

/-- The host offers each of some read commands and takes its response before it goes on. -/
def readsAndTakes (is : List Instr) : List HostAct :=
  is.flatMap fun i => [.offer (encode i), .take]

/-- What R83 and R98 allow between the commands of a program: `NOP`, or `RD_STATUS` with its response
taken. -/
inductive Filler where
  | nop
  | status
  deriving DecidableEq, Repr

/-- The acts of one filler. -/
def Filler.acts : Filler → List HostAct
  | .nop => [.offer (encode .nop)]
  | .status => [.offer (encode .rdStatus), .take]

/-- A program with fillers before each command: each entry is the fillers, then the command. -/
def interleaved (is : List (List Filler × Instr)) : List HostAct :=
  is.flatMap fun p => p.1.flatMap Filler.acts ++ [.offer (encode p.2)]

/-- The words of a program, in order. -/
def programWords (is : List Instr) : List CmdWord := is.map encode

/-- The message bytes a program sends, in order (20_memory.md R31). -/
def messageBytes : List Instr → List Byte
  | [] => []
  | .msgByte b :: is => b :: messageBytes is
  | .nop :: is => messageBytes is
  | .shaInit :: is => messageBytes is
  | .hmacInit :: is => messageBytes is
  | .keyEnd :: is => messageBytes is
  | .keyByte _ :: is => messageBytes is
  | .final :: is => messageBytes is
  | .rdDigest _ :: is => messageBytes is
  | .rdStatus :: is => messageBytes is
  | .reset :: is => messageBytes is

/-- The key bytes a program sends, in order (20_memory.md R31). -/
def keyBytes : List Instr → List Byte
  | [] => []
  | .keyByte b :: is => b :: keyBytes is
  | .nop :: is => keyBytes is
  | .shaInit :: is => keyBytes is
  | .hmacInit :: is => keyBytes is
  | .keyEnd :: is => keyBytes is
  | .msgByte _ :: is => keyBytes is
  | .final :: is => keyBytes is
  | .rdDigest _ :: is => keyBytes is
  | .rdStatus :: is => keyBytes is
  | .reset :: is => keyBytes is

/-- A command that neither begins an invocation nor resets: what may stand between an `*_INIT` and the
reading of `STATUS` in 70_reset_and_hazards.md R143. -/
def continuesInvocation : Instr → Bool
  | .nop => true
  | .shaInit => false
  | .hmacInit => false
  | .keyEnd => true
  | .msgByte _ => true
  | .keyByte _ => true
  | .final => true
  | .rdDigest _ => true
  | .rdStatus => true
  | .reset => false

end Sys2Proof.Machine
end

