-- ==== Sys2Proof/Machine/Assembler.lean ====
section
/-! DEFINITION. The assembler syntax of 30_encoding.md R57 and the pseudo-instructions of R58: one line of
text, as characters, to the commands it stands for.  What R57 and R58 leave open is log entry 16. -/

namespace Sys2Proof.Machine

/-- A decimal digit's value. -/
def decDigit? (c : Char) : Option Nat :=
  if 48 ≤ c.toNat ∧ c.toNat ≤ 57 then some (c.toNat - 48) else none

/-- A hexadecimal digit's value, in either case. -/
def hexDigit? (c : Char) : Option Nat :=
  if 48 ≤ c.toNat ∧ c.toNat ≤ 57 then some (c.toNat - 48)
  else if 65 ≤ c.toNat ∧ c.toNat ≤ 70 then some (c.toNat - 55)
  else if 97 ≤ c.toNat ∧ c.toNat ≤ 102 then some (c.toNat - 87)
  else none

/-- The byte of two hexadecimal digits, high digit first. -/
def hexByte? (hi lo : Char) : Option Byte :=
  (hexDigit? hi).bind fun h => (hexDigit? lo).map fun l => BitVec.ofNat 8 (16 * h + l)

/-- A decimal number read on from the value `acc`: the number and the characters after it. -/
def readDecimal (acc : Nat) : List Char → Nat × List Char
  | [] => (acc, [])
  | c :: cs =>
    match decDigit? c with
    | some d => readDecimal (10 * acc + d) cs
    | none => (acc, c :: cs)

/-- A byte operand that is a decimal number 0 to 255. -/
def readDecimalByte : List Char → Option (Byte × List Char)
  | [] => none
  | c :: cs =>
    (decDigit? c).bind fun d =>
      let p := readDecimal d cs
      if p.1 ≤ 255 then some (BitVec.ofNat 8 p.1, p.2) else none

/-- A byte operand (R57): `0x` and two hexadecimal digits, a printable character in single quotes
(character 39), or a decimal number 0 to 255. -/
def readByte (cs : List Char) : Option (Byte × List Char) :=
  match cs with
  | '0' :: 'x' :: hi :: lo :: rest => (hexByte? hi lo).map fun b => (b, rest)
  | q :: c :: q' :: rest =>
    if q.toNat = 39 ∧ q'.toNat = 39 ∧ 32 ≤ c.toNat ∧ c.toNat ≤ 126 then
      some (BitVec.ofNat 8 c.toNat, rest)
    else readDecimalByte cs
  | _ => readDecimalByte cs

/-- An index operand (R57): one decimal digit 0 to 4. -/
def readIndex : List Char → Option (BitVec 3 × List Char)
  | [] => none
  | c :: rest => (decDigit? c).bind fun d => if d ≤ 4 then some (BitVec.ofNat 3 d, rest) else none

/-- The characters of a string up to the closing double quote (character 34), each one byte (R58). -/
def readQuoted : List Char → Option (List Byte × List Char)
  | [] => none
  | c :: cs =>
    if c.toNat = 34 then some ([], cs)
    else if c.toNat < 128 then (readQuoted cs).map fun p => (BitVec.ofNat 8 c.toNat :: p.1, p.2)
    else none

/-- Pairs of hexadecimal digits up to the first character that is none (R58); an odd digit is refused. -/
def readHexPairs : List Char → Option (List Byte × List Char)
  | [] => some ([], [])
  | [hi] => if (hexDigit? hi).isSome then none else some ([], [hi])
  | hi :: lo :: rest =>
    if (hexDigit? hi).isSome then
      (hexByte? hi lo).bind fun b => (readHexPairs rest).map fun p => (b :: p.1, p.2)
    else some ([], hi :: lo :: rest)

/-- A byte string (R58): a double-quoted ASCII string, or `hex:` and hexadecimal digits. -/
def readBytes : List Char → Option (List Byte × List Char)
  | 'h' :: 'e' :: 'x' :: ':' :: rest => readHexPairs rest
  | q :: rest => if q.toNat = 34 then readQuoted rest else none
  | [] => none

/-- Whether only blanks are left before the end of the line or a comment (R57). -/
def restIsBlank : List Char → Bool
  | [] => true
  | c :: cs => if c = ';' then true else if c = ' ' then restIsBlank cs else false

/-- What was read, if nothing but blanks and a comment follows it. -/
def finishLine (is : List Instr) (rest : List Char) : Option (List Instr) :=
  if restIsBlank rest then some is else none

/-- The characters of a mnemonic: upper-case letters, digits, underscores. -/
def isMnemonicChar (c : Char) : Bool :=
  (65 ≤ c.toNat && c.toNat ≤ 90) || (48 ≤ c.toNat && c.toNat ≤ 57) || c == '_'

/-- A command with a byte operand, after its mnemonic: one space, then the operand. -/
def byteLine (i : Byte → Instr) : List Char → Option (List Instr)
  | ' ' :: cs => (readByte cs).bind fun p => finishLine [i p.1] p.2
  | _ => none

/-- A pseudo-instruction with one byte string, after its mnemonic. -/
def bytesLine (f : List Byte → List Instr) : List Char → Option (List Instr)
  | ' ' :: cs => (readBytes cs).bind fun p => finishLine (f p.1) p.2
  | _ => none

/-- `RD_DIGEST`, after its mnemonic. -/
def indexLine : List Char → Option (List Instr)
  | ' ' :: cs => (readIndex cs).bind fun p => finishLine [.rdDigest p.1] p.2
  | _ => none

/-- `HMAC k, s`, after its mnemonic (R58). -/
def hmacLine : List Char → Option (List Instr)
  | ' ' :: cs =>
    (readBytes cs).bind fun k =>
      match k.2 with
      | ',' :: ' ' :: cs' => (readBytes cs').bind fun m => finishLine (hmacProgram k.1 m.1) m.2
      | _ => none
  | _ => none

/-- A line with the mnemonic `word` and what follows it (R50, R57, R58). -/
def assembleMnemonic (word rest : List Char) : Option (List Instr) :=
  if word = ['N', 'O', 'P'] then finishLine [.nop] rest
  else if word = ['S', 'H', 'A', '_', 'I', 'N', 'I', 'T'] then finishLine [.shaInit] rest
  else if word = ['H', 'M', 'A', 'C', '_', 'I', 'N', 'I', 'T'] then finishLine [.hmacInit] rest
  else if word = ['K', 'E', 'Y', '_', 'E', 'N', 'D'] then finishLine [.keyEnd] rest
  else if word = ['M', 'S', 'G', '_', 'B', 'Y', 'T', 'E'] then byteLine .msgByte rest
  else if word = ['K', 'E', 'Y', '_', 'B', 'Y', 'T', 'E'] then byteLine .keyByte rest
  else if word = ['F', 'I', 'N', 'A', 'L'] then finishLine [.final] rest
  else if word = ['R', 'D', '_', 'D', 'I', 'G', 'E', 'S', 'T'] then indexLine rest
  else if word = ['R', 'D', '_', 'S', 'T', 'A', 'T', 'U', 'S'] then finishLine [.rdStatus] rest
  else if word = ['R', 'E', 'S', 'E', 'T'] then finishLine [.reset] rest
  else if word = ['M', 'S', 'G'] then bytesLine msgProgram rest
  else if word = ['K', 'E', 'Y'] then bytesLine keyProgram rest
  else if word = ['S', 'H', 'A', '1'] then bytesLine sha1Program rest
  else if word = ['H', 'M', 'A', 'C'] then hmacLine rest
  else if word = ['R', 'D', '_', 'D', 'I', 'G', 'E', 'S', 'T', '_', 'A', 'L', 'L'] then
    finishLine readDigestAll rest
  else none

/-- One line of a program (R57): its commands, none for a blank or comment line. -/
def assembleLine (line : List Char) : Option (List Instr) :=
  let cs := line.dropWhile (· == ' ')
  if restIsBlank cs then some []
  else assembleMnemonic (cs.takeWhile isMnemonicChar) (cs.dropWhile isMnemonicChar)

end Sys2Proof.Machine
end

