-- ==== Sys2Proof/Machine/MicroStep.lean ====
section
/-! DEFINITION. The per-round micro-steps into which a compression may be refined (00_scope.md R8,
10_state.md R13, 40_sha1_datapath.md R70), over the same state, with `T` as the round index.  The step
function does not use them: a command is one atomic transition. -/

namespace Sys2Proof.Machine

/-- Before round 0: schedule (R65, R66) and working-register load (R67), `T <- 0`. -/
def State.microLoad (s : State) : State :=
  { s with w := schedule s.blk, work := loadWorking s.h, t := 0#7 }

/-- One round (R68): `T` selects the band and the word `W[T]`, then counts on up to 79 (R13). -/
def State.microRound (s : State) : State :=
  { s with
    work := roundStep s.t.toNat (s.w.getD s.t.toNat 0) s.work
    t := if s.t = 79#7 then s.t else s.t + 1#7 }

/-- `n` rounds. -/
def State.microRounds : Nat → State → State
  | 0, s => s
  | n + 1, s => State.microRounds n s.microRound

/-- After round 79: the fold (R69); `T` is unspecified (R70). -/
def State.microFold (s : State) : State :=
  { s with
    h := foldInto s.h s.work
    t := BitVec.ofNat 7 (Config.roundAfterFold s.freeDraws).val
    freeDraws := s.freeDraws + 1 }

/-- `n` words of the schedule of a block from a ring of sixteen words, as an implementation that keeps
only the last sixteen computes them (10_state.md R12, U13): the ring holds the sixteen newest words, oldest
first; each use gives the oldest word out and lets the next one in. -/
def ringWords : Nat → List Word → List Word
  | 0, _ => []
  | n + 1, ring =>
    ring.getD 0 0 :: ringWords n (ring.tail ++
      [rotl (ring.getD 13 0 ^^^ ring.getD 8 0 ^^^ ring.getD 2 0 ^^^ ring.getD 0 0) 1])

end Sys2Proof.Machine
end

