-- ==== Sys2Proof/Machine/Ports.lean ====
section
/-! DEFINITION. The output ports (70_reset_and_hazards.md R136) between two accepted commands, as
functions of the state (60_exceptions.md R126; log entry 10). -/

namespace Sys2Proof.Machine

/-- The outputs of the block (R136). -/
structure Outputs where
  cmdReady : Bool
  rspValid : Bool
  rsp : Word
  digestValid : Bool
  err : Bool
  deriving DecidableEq, Repr

/-- The outputs while the core is between two commands, with the input `rst` at the given level.  No
command is accepted while a response is waiting (R139(c)); in a cycle with `rst = 1` nothing is ready or
valid (R135); `rsp` is unspecified while `rsp_valid = 0` (R136, U7). -/
def State.outputs (s : State) (rst : Bool) : Outputs where
  cmdReady := !rst && s.rsp.isNone
  rspValid := !rst && s.rsp.isSome
  rsp := if rst then Config.idleRsp s.freeDraws else s.rsp.getD (Config.idleRsp s.freeDraws)
  digestValid := !rst && s.digestValid
  err := !rst && s.errFlag

end Sys2Proof.Machine
end

