-- ==== Sys2Proof/Safety.lean ====
section
/-! DEFINITION. What claims are stated in: the invariants of 10_state.md R25, what the host can tell apart
(R22), runs of the core, and the texts that 30_encoding.md R57 and R58 describe. -/

namespace Sys2Proof.Machine

/-- The phases in which a hash is absorbing bytes (R25(b)). -/
def Phase.absorbing : Phase → Bool
  | .idle => false
  | .shaMsg => true
  | .hmacKey => true
  | .hmacMsg => true
  | .done => false
  | .error => false

/-- The invariants of R25 that speak of one state ((f) is in the types of `PHASE` and `ERRCODE`, and the
second half of (d) speaks of the key bytes sent). -/
structure State.Inv (s : State) : Prop where
  /-- (a) `ERRCODE ≠ 0` iff `PHASE = ERROR` -/
  errcode_iff : s.errcode ≠ .none ↔ s.phase = .error
  /-- (b) `IDX = LEN mod 64` while a hash is absorbing -/
  idx_eq : s.phase.absorbing = true → s.idx.toNat = s.len.toNat % 64
  /-- (c) `LEN ≥ 64` in `HMAC_MSG` -/
  pad_counted : s.phase = .hmacMsg → 64 ≤ s.len.toNat
  /-- (d) the unused key bytes are zero in `HMAC_KEY` -/
  key_tail_zero : s.phase = .hmacKey → ∀ i : Fin 64, s.len.toNat ≤ i.val → s.kblk[i] = 0#8
  /-- (e) `IDX = 0` in `DONE` -/
  done_idx : s.phase = .done → s.idx = 0#6

/-- What of the hidden registers can still matter in a phase (R22, R26): the hash in progress with the
bytes of `BLK` below `IDX`, and in the two HMAC phases the key block; in `DONE` the digest; in `IDLE` and
`ERROR` nothing. -/
def sameHidden (s1 s2 : State) : Prop :=
  match s1.phase with
  | .idle => True
  | .error => True
  | .done => s1.h = s2.h
  | .shaMsg => s1.h = s2.h ∧ s1.len = s2.len ∧ s1.idx = s2.idx ∧
      ∀ i : Fin 64, i.val < s1.idx.toNat → s1.blk[i] = s2.blk[i]
  | .hmacKey => s1.h = s2.h ∧ s1.len = s2.len ∧ s1.idx = s2.idx ∧
      (∀ i : Fin 64, i.val < s1.idx.toNat → s1.blk[i] = s2.blk[i]) ∧ s1.kblk = s2.kblk
  | .hmacMsg => s1.h = s2.h ∧ s1.len = s2.len ∧ s1.idx = s2.idx ∧
      (∀ i : Fin 64, i.val < s1.idx.toNat → s1.blk[i] = s2.blk[i]) ∧ s1.kblk = s2.kblk

/-- Two states that no sequence of commands tells apart (R22, R26): the same phase, error code, channels
and acts to come, and the same hidden registers as far as the phase can still read them. -/
structure State.Indistinguishable (s1 s2 : State) : Prop where
  phase_eq : s1.phase = s2.phase
  errcode_eq : s1.errcode = s2.errcode
  rsp_eq : s1.rsp = s2.rsp
  taken_eq : s1.taken = s2.taken
  host_eq : s1.host = s2.host
  hidden : sameHidden s1 s2

/-- The channels hold the same data: frames say it of commands that make no response. -/
structure SameChannels (s t : State) : Prop where
  rsp_eq : t.rsp = s.rsp
  taken_eq : t.taken = s.taken
  host_eq : t.host = s.host

/-- No datapath register differs (the list of 60_exceptions.md R121). -/
structure SameDatapath (s t : State) : Prop where
  h_eq : t.h = s.h
  work_eq : t.work = s.work
  w_eq : t.w = s.w
  t_eq : t.t = s.t
  blk_eq : t.blk = s.blk
  idx_eq : t.idx = s.idx
  len_eq : t.len = s.len
  kblk_eq : t.kblk = s.kblk

/-- `n` steps of the core. -/
def run (n : Nat) (s : State) : Result := Sys2Proof.core.run n s

/-- The run of `n` steps from `s` reaches a state and meets no error on the way: no step stops, and no
state of the run, the first one included, is in `ERROR`. -/
def RunsClean (n : Nat) (s : State) : Prop :=
  ∀ k : Nat, k ≤ n → ∃ u : State, run k s = .next u ∧ u.phase ≠ .error

/-! ## The texts of R57 and R58, written apart from the assembler that reads them -/

/-- The two hexadecimal digits of a byte, high digit first, letters in lower case. -/
def hexChars (b : Byte) : List Char := [Nat.digitChar (b.toNat / 16), Nat.digitChar (b.toNat % 16)]

/-- `t` is a text of the byte `b` (R57): `0x` and two hexadecimal digits, in either case (log entry 16), a
decimal number, or a printable character in single quotes. -/
def ByteText (t : List Char) (b : Byte) : Prop :=
  (∃ digits : List Char, digits.map Char.toLower = hexChars b ∧ t = '0' :: 'x' :: digits) ∨
  t = Nat.toDigits 10 b.toNat ∨
  (∃ c : Char, 32 ≤ c.toNat ∧ c.toNat ≤ 126 ∧ b = BitVec.ofNat 8 c.toNat ∧ t = ['\'', c, '\''])

/-- `t` is a text of the byte string `m` (R58): `hex:` and its hexadecimal digits, in either case (log entry
16), or a double-quoted ASCII string. -/
def BytesText (t : List Char) (m : List Byte) : Prop :=
  (∃ digits : List Char, digits.map Char.toLower = m.flatMap hexChars ∧ t = "hex:".toList ++ digits) ∨
  (∃ cs : List Char, (∀ c ∈ cs, c.toNat < 128 ∧ c ≠ '"') ∧ m = cs.map (fun c => BitVec.ofNat 8 c.toNat) ∧
    t = '"' :: (cs ++ ['"']))

/-- What may follow the last operand (R57, log entry 16): blanks, then nothing or a comment. -/
def LineEnd (t : List Char) : Prop :=
  ∃ (n : Nat) (rest : List Char), t = List.replicate n ' ' ++ rest ∧ (rest = [] ∨ ∃ text, rest = ';' :: text)

end Sys2Proof.Machine
end

