-- ==== Sys2Proof/Certificates/Slice0/Obligations.lean ====
section
/-! DEFINITION. The statements about the model, for the provers.  Each docstring names the rule of spec/ the
statement formalises, or the sentence it is derived from. -/

open Sys2Proof Sys2Proof.Machine

/-! ## Encoding (30_encoding.md) -/

/-- A few words written out from the table of R50 and from 95_test_vectors.md section 6.1. -/
def Obligations.WrittenWordsDecode : Prop :=
  decode 0b0000000000000000#16 = .command .nop ∧
  decode 0b0001000000000000#16 = .command .shaInit ∧
  decode 0b0010000000000000#16 = .command .hmacInit ∧
  decode 0b0011000000000000#16 = .command .keyEnd ∧
  decode 0b0100000001100001#16 = .command (.msgByte 0x61#8) ∧
  decode 0b0101000010000000#16 = .command (.keyByte 0x80#8) ∧
  decode 0b0110000000000000#16 = .command .final ∧
  decode 0b0111000000000100#16 = .command (.rdDigest 4#3) ∧
  decode 0b1000000000000000#16 = .command .rdStatus ∧
  decode 0b1111000000000000#16 = .command .reset ∧
  decode 0x4100#16 = .illegal .reservedBits ∧
  decode 0x7005#16 = .illegal .indexOutOfRange ∧
  decode 0xFFFF#16 = .illegal .reservedBits ∧
  decode 0x9000#16 = .illegal .reservedOpcode

/-- R50: a word is a command exactly when `(w & mask) = match`, and for `RD_DIGEST` the index is at most 4;
the operands are the low bits as they stand. -/
def Obligations.DecodeFollowsOpcodeMap : Prop :=
  ∀ w : CmdWord,
    (decode w = .command .nop ↔ w &&& 0xFFFF#16 = 0x0000#16) ∧
    (decode w = .command .shaInit ↔ w &&& 0xFFFF#16 = 0x1000#16) ∧
    (decode w = .command .hmacInit ↔ w &&& 0xFFFF#16 = 0x2000#16) ∧
    (decode w = .command .keyEnd ↔ w &&& 0xFFFF#16 = 0x3000#16) ∧
    (∀ b : BitVec 8, decode w = .command (.msgByte b) ↔
      w &&& 0xFF00#16 = 0x4000#16 ∧ b = w.extractLsb' 0 8) ∧
    (∀ b : BitVec 8, decode w = .command (.keyByte b) ↔
      w &&& 0xFF00#16 = 0x5000#16 ∧ b = w.extractLsb' 0 8) ∧
    (decode w = .command .final ↔ w &&& 0xFFFF#16 = 0x6000#16) ∧
    (∀ idx : BitVec 3, decode w = .command (.rdDigest idx) ↔
      w &&& 0xFFF8#16 = 0x7000#16 ∧ idx = w.extractLsb' 0 3 ∧ idx.toNat ≤ 4) ∧
    (decode w = .command .rdStatus ↔ w &&& 0xFFFF#16 = 0x8000#16) ∧
    (decode w = .command .reset ↔ w &&& 0xFFFF#16 = 0xF000#16)

/-- R51: the words of the ten commands, and the round trip both ways: decoding the word of a well-formed
command gives the command back, and a word that decodes to a command is that command's word, the command being
well formed.  So the words that R51's algorithm accepts are exactly the words listed first, every other word is
`Illegal`, and no two words decode to the same command. -/
def Obligations.DecodeEncodeAgree : Prop :=
  (encode .nop = 0x0000#16 ∧ encode .shaInit = 0x1000#16 ∧ encode .hmacInit = 0x2000#16 ∧
    encode .keyEnd = 0x3000#16 ∧ (∀ b : BitVec 8, encode (.msgByte b) = 0x4000#16 ||| b.setWidth 16) ∧
    (∀ b : BitVec 8, encode (.keyByte b) = 0x5000#16 ||| b.setWidth 16) ∧ encode .final = 0x6000#16 ∧
    (∀ idx : BitVec 3, encode (.rdDigest idx) = 0x7000#16 ||| idx.setWidth 16) ∧
    encode .rdStatus = 0x8000#16 ∧ encode .reset = 0xF000#16) ∧
  (∀ i : Instr, i.wellFormed = true → decode (encode i) = .command i) ∧
  (∀ (w : CmdWord) (i : Instr), decode w = .command i → i.wellFormed = true ∧ encode i = w)

/-- R52: every word with opcode 0x9 to 0xE is `Illegal`, whatever its low 12 bits, and executing one raises
`ILLEGAL_CMD` (in `ERROR` nothing raises, R123). -/
def Obligations.ReservedOpcodesAreIllegal : Prop :=
  ∀ w : CmdWord, 9 ≤ (w.extractLsb' 12 4).toNat → (w.extractLsb' 12 4).toNat ≤ 14 →
    decode w = .illegal .reservedOpcode ∧
    ∀ s : State, s.phase ≠ .error →
      s.accept w = .next { s with errcode := .illegalCmd, phase := .error }

/-- R53: a word with a defined opcode and a `zero` field (R47, R48, R49) that is not all zeros is
`Illegal`. -/
def Obligations.ReservedBitsAreIllegal : Prop :=
  ∀ w : CmdWord,
    ((w.extractLsb' 12 4).toNat ∈ [0x0, 0x1, 0x2, 0x3, 0x6, 0x8, 0xF] → w.extractLsb' 0 12 ≠ 0#12 →
      decode w = .illegal .reservedBits) ∧
    ((w.extractLsb' 12 4).toNat ∈ [0x4, 0x5] → w.extractLsb' 8 4 ≠ 0#4 →
      decode w = .illegal .reservedBits) ∧
    ((w.extractLsb' 12 4).toNat = 0x7 → w.extractLsb' 3 9 ≠ 0#9 →
      decode w = .illegal .reservedBits)

/-- R54: `RD_DIGEST` with index 5, 6 or 7 (words 0x7005 to 0x7007) is `Illegal`; it raises `ILLEGAL_CMD`,
not `BAD_PHASE`, in every phase but `ERROR`, where (R117, R123) it is ignored. -/
def Obligations.DigestIndexOutOfRangeIsIllegal : Prop :=
  ∀ idx : BitVec 3, 5 ≤ idx.toNat →
    decode (0x7000#16 ||| idx.setWidth 16) = .illegal .indexOutOfRange ∧
    ∀ s : State,
      (s.phase ≠ .error → s.accept (0x7000#16 ||| idx.setWidth 16) =
        .next { s with errcode := .illegalCmd, phase := .error }) ∧
      (s.phase = .error → s.accept (0x7000#16 ||| idx.setWidth 16) = .next s)

/-- The count of R59 (derived there): exactly 524 words are commands. -/
def Obligations.LegalWordCount : Prop :=
  ∃ ws : List CmdWord, ws.length = 524 ∧ ws.Nodup ∧ ∀ w : CmdWord, isLegalWord w = true ↔ w ∈ ws

/-! ## Datapath (40_sha1_datapath.md, 20_memory.md) -/

/-- R61, R63, R64 and R68, general-knowledge passages of the spec (G1, G2, G3, G4, G6, G9; log entry 9): `ROTL`
moves bit `i` to bit `(i + n) mod 32`; the equivalent forms of the round functions that R63 offers; which
function and constant each band of twenty rounds uses; and the round itself: the rounds from `t` on are round
`t`, with the first of the schedule words, and then the rounds from `t + 1` on, where round `t` is
`A <- ROTL(A, 5) + f + E + K + W[t]`, `B <- A`, `C <- ROTL(B, 30)`, `D <- C`, `E <- D`, all at once. -/
def Obligations.RotationAndRoundFunctions : Prop :=
  (∀ (x : Word) (n i : Nat), 1 ≤ n → n ≤ 31 → i < 32 →
    (rotl x n).getLsbD ((i + n) % 32) = x.getLsbD i) ∧
  (∀ b c d : Word, ch b c d = d ^^^ (b &&& (c ^^^ d))) ∧
  (∀ b c d : Word, maj b c d = (b &&& c) ||| (d &&& (b ||| c))) ∧
  (∀ b c d : Word, maj b c d = (b &&& c) ^^^ (b &&& d) ^^^ (c &&& d)) ∧
  (∀ (t : Nat) (b c d : Word), t < 80 →
    (t ≤ 19 → roundF t b c d = (b &&& c) ||| (~~~b &&& d) ∧ roundK t = 0x5A827999#32) ∧
    (20 ≤ t → t ≤ 39 → roundF t b c d = b ^^^ c ^^^ d ∧ roundK t = 0x6ED9EBA1#32) ∧
    (40 ≤ t → t ≤ 59 → roundF t b c d = (b &&& c) ||| (b &&& d) ||| (c &&& d) ∧
      roundK t = 0x8F1BBCDC#32) ∧
    (60 ≤ t → roundF t b c d = b ^^^ c ^^^ d ∧ roundK t = 0xCA62C1D6#32)) ∧
  (∀ (t : Nat) (r : Working), roundsFrom [] t r = r) ∧
  (∀ (t : Nat) (wt : Word) (ws : List Word) (a b c d e : Word), t < 80 →
    roundsFrom (wt :: ws) t ⟨a, b, c, d, e⟩ =
      roundsFrom ws (t + 1) ⟨rotl a 5 + roundF t b c d + e + roundK t + wt, a, rotl b 30, c, d⟩)

/-- R32 and R65: in a compression the first sixteen schedule words are the bytes of the block taken four at a
time, the first byte the most significant; R66: each later word is the XOR of four earlier ones rotated left by
one. -/
def Obligations.ScheduleLoadAndExpansion : Prop :=
  ∀ s : State,
    (∀ (j : Nat) (_ : j < 16),
      s.compress.w[j] =
        ((s.blk[4 * j].setWidth 32) <<< 24) ||| ((s.blk[4 * j + 1].setWidth 32) <<< 16)
          ||| ((s.blk[4 * j + 2].setWidth 32) <<< 8) ||| (s.blk[4 * j + 3].setWidth 32)) ∧
    (∀ (j : Nat) (_ : 16 ≤ j) (_ : j < 80),
      s.compress.w[j] =
        rotl (s.compress.w[j - 3] ^^^ s.compress.w[j - 8] ^^^ s.compress.w[j - 14]
          ^^^ s.compress.w[j - 16]) 1)

/-- Derived in 10_state.md R12 (U13): an implementation that keeps only the last sixteen schedule words
computes the same word at every round. -/
def Obligations.RingOfSixteenWordsAgrees : Prop :=
  ∀ blk : Vector Byte 64, ringWords 80 ((schedule blk).toList.take 16) = (schedule blk).toList

/-- 00_scope.md R8, 10_state.md R13: a compression refined into a load, eighty rounds with `T` as the round
index, and a fold, is the atomic compression; during it `T` counts the rounds, and the free value it holds
afterwards is at most 79 (R13 "Values 80 to 127 never occur"; that the bound holds there too is the model's
reading, log entry 3). -/
def Obligations.MicroStepsRefineCompress : Prop :=
  ∀ s : State,
    (∀ n : Nat, n < 80 → (State.microRounds n s.microLoad).t.toNat = n) ∧
    (State.microRounds 80 s.microLoad).microFold = s.compress ∧
    s.compress.t.toNat ≤ 79

/-- R70: one compression loads the working registers from `H`, runs the eighty rounds over the schedule of the
block, and (R69) adds the working registers into `H`, modulo 2^32; it writes no register but `W`, `A..E`, `T`,
`H`.  (What `roundsFrom` does in each round, R68, is the end of `RotationAndRoundFunctions`; the
schedule is `ScheduleLoadAndExpansion`.) -/
def Obligations.CompressFoldsAndFrame : Prop :=
  ∀ s : State,
    s.compress.w = schedule s.blk ∧
    s.compress.work = roundsFrom (schedule s.blk).toList 0 ⟨s.h[0], s.h[1], s.h[2], s.h[3], s.h[4]⟩ ∧
    s.compress.h = #v[s.h[0] + s.compress.work.a, s.h[1] + s.compress.work.b,
      s.h[2] + s.compress.work.c, s.h[3] + s.compress.work.d, s.h[4] + s.compress.work.e] ∧
    s.compress.blk = s.blk ∧ s.compress.idx = s.idx ∧ s.compress.len = s.len ∧
    s.compress.kblk = s.kblk ∧ s.compress.phase = s.phase ∧ s.compress.errcode = s.errcode ∧
    SameChannels s s.compress

/-- R71: `AbsorbRaw` puts the byte at `BLK[IDX]` and compresses exactly when it is the 64th of the block.
R72: `Absorb` raises `LEN_OVERFLOW` exactly when `LEN = MAX_BYTES`, and else counts the byte before it goes to
`AbsorbRaw`; the internal uses, in `KEY_END` and `HmacFinish`, cannot raise. -/
def Obligations.AbsorbCountsOrRejects : Prop :=
  (∀ (s : State) (b : Byte),
    (s.idx ≠ 63#6 → s.absorbRaw b = { s with
      blk := s.blk.set s.idx.toNat b s.idx.isLt, idx := s.idx + 1#6 }) ∧
    (s.idx = 63#6 → s.absorbRaw b =
      { ({ s with blk := s.blk.set s.idx.toNat b s.idx.isLt } : State).compress with idx := 0#6 })) ∧
  (∀ (s : State) (b : Byte),
    (s.len.toNat = 2 ^ 61 - 1 → s.absorb b = .error .lenOverflow) ∧
    (s.len.toNat ≠ 2 ^ 61 - 1 → s.absorb b = .ok ({ s with len := s.len + 1#61 }.absorbRaw b) ∧
      ({ s with len := s.len + 1#61 }.absorbRaw b).len.toNat = s.len.toNat + 1)) ∧
  (∀ (s : State) (x : Byte), ∃ t : State, s.startPadded x = .ok t) ∧
  (∀ s : State, ∃ t : State, s.hmacFinish = .ok t)

/-- R74: the padding of a message of `L` bytes. -/
def Obligations.PaddingShape : Prop :=
  ∀ L : Nat, L ≤ 2 ^ 61 - 1 → ∃ z : Nat,
    z ≤ 63 ∧ (L + 1 + z) % 64 = 56 ∧ (∀ y : Nat, (L + 1 + y) % 64 = 56 → z ≤ y) ∧
    pad L = 0x80#8 :: (List.replicate z 0x00#8 ++ be64 (BitVec.ofNat 64 (8 * L))) ∧
    (BitVec.ofNat 64 (8 * L)).toNat = 8 * L ∧
    (L + (pad L).length) % 64 = 0 ∧ (L + (pad L).length) / 64 = (L + 8) / 64 + 1

/-- From R75: `Finalize` absorbs 0x80, the zero bytes that bring `IDX` to 56, and eight times `LEN` as it was
before, as 64 bits; that is one block's worth when `IDX` was at most 55 and two when it was more; `IDX` ends at
0 and `LEN` is unchanged.  The last clause is an inference the spec marks as its own (derived in R75 by
R25(b)): when `IDX = LEN mod 64`, as it is while a hash absorbs, the bytes are the padding of R74. -/
def Obligations.FinalizePadsWhatWasAbsorbed : Prop :=
  ∀ s : State,
    (∃ z : Nat, z ≤ 63 ∧ (s.idx.toNat + 1 + z) % 64 = 56 ∧
      s.finalize = s.absorbRawAll (0x80#8 ::
        (List.replicate z 0x00#8 ++ be64 (BitVec.ofNat 64 (8 * s.len.toNat)))) ∧
      (BitVec.ofNat 64 (8 * s.len.toNat)).toNat = 8 * s.len.toNat ∧
      (s.idx.toNat + (1 + z + 8)) / 64 = if s.idx.toNat ≤ 55 then 1 else 2) ∧
    s.finalize.idx = 0#6 ∧ s.finalize.len = s.len ∧ s.finalize.kblk = s.kblk ∧
    (s.idx.toNat = s.len.toNat % 64 → s.finalize = s.absorbRawAll (pad s.len.toNat))

/-- Derived in R78: from any state, `HashStart`, `Absorb` of each byte of `m` and `Finalize` raise nothing
and leave `SHA1(m)`. -/
def Obligations.StreamingEqualsSha1 : Prop :=
  ∀ (s : State) (m : List Byte), m.length ≤ 2 ^ 61 - 1 →
    ∃ t : State, State.absorbAll m s.hashStart = .ok t ∧ sha1 m = some t.finalize.digestBytes

/-- R76 (and 20_memory.md R34): the digest is `H[0]` first, each word big-endian: byte `4 i + k` is bits
`31 - 8 k` to `24 - 8 k` of `H[i]`, twenty bytes in all. -/
def Obligations.DigestBytesBigEndian : Prop :=
  ∀ s : State, s.digestBytes.length = 20 ∧
    ∀ (i k : Nat) (_ : i < 5), k < 4 →
      s.digestBytes[4 * i + k]? = some (s.h[i].extractLsb' (24 - 8 * k) 8)

/-- The digests R79 and R100 give as PM's literals. -/
def Obligations.PublishedDigests : Prop :=
  sha1 [] = some [0xda#8, 0x39#8, 0xa3#8, 0xee#8, 0x5e#8, 0x6b#8, 0x4b#8, 0x0d#8, 0x32#8, 0x55#8,
    0xbf#8, 0xef#8, 0x95#8, 0x60#8, 0x18#8, 0x90#8, 0xaf#8, 0xd8#8, 0x07#8, 0x09#8] ∧
  sha1 [0x61#8, 0x62#8, 0x63#8] = some [0xa9#8, 0x99#8, 0x3e#8, 0x36#8, 0x47#8, 0x06#8, 0x81#8, 0x6a#8,
    0xba#8, 0x3e#8, 0x25#8, 0x71#8, 0x78#8, 0x50#8, 0xc2#8, 0x6c#8, 0x9c#8, 0xd0#8, 0xd8#8, 0x9d#8] ∧
  hmac (List.replicate 20 0x0b#8) [0x48#8, 0x69#8, 0x20#8, 0x54#8, 0x68#8, 0x65#8, 0x72#8, 0x65#8] =
    some [0xb6#8, 0x17#8, 0x31#8, 0x86#8, 0x55#8, 0x05#8, 0x72#8, 0x64#8, 0xe2#8, 0x8b#8, 0xc0#8, 0xb6#8,
      0xfb#8, 0x37#8, 0x8c#8, 0x8e#8, 0xf1#8, 0x46#8, 0xbe#8, 0x00#8]

/-- The model's `SHA1` and `HMAC` have a value on the domains that R77 and R90 give, and every value is twenty
bytes.  That they have none beyond those domains, the other half of the two equivalences, is the model's choice
(log entry 18, DESIGN CHOICE): the spec leaves the functions undefined there, and U8 also allows total functions
with a precondition. -/
def Obligations.HashFunctionsDomain : Prop :=
  (∀ m : List Byte, (sha1 m).isSome = true ↔ m.length ≤ 2 ^ 61 - 1) ∧
  (∀ (m d : List Byte), sha1 m = some d → d.length = 20) ∧
  (∀ k m : List Byte, (hmac k m).isSome = true ↔
    k.length ≤ 2 ^ 61 - 1 ∧ m.length ≤ 2 ^ 61 - 1 - 64) ∧
  (∀ (k m d : List Byte), hmac k m = some d → d.length = 20)

/-! ## SHA-1 commands (41_sha1_commands.md) -/

/-- R80: `SHA_INIT`, its word, its effect in every phase but `ERROR`, where it is ignored; a second one has no
further effect. -/
def Obligations.ShaInitBeginsHash : Prop :=
  decode 0x1000#16 = .command .shaInit ∧
  ∀ s : State,
    (s.phase ≠ .error →
      exec .shaInit s = .next { s with
        h := #v[0x67452301#32, 0xEFCDAB89#32, 0x98BADCFE#32, 0x10325476#32, 0xC3D2E1F0#32]
        len := 0#61, idx := 0#6, phase := .shaMsg }) ∧
    (s.phase = .error → exec .shaInit s = .next s) ∧
    (∀ t : State, exec .shaInit s = .next t → exec .shaInit t = .next t)

/-- R81 (with R71): `MSG_BYTE`, its words; the byte goes to `BLK[IDX]` and is counted; the 64th byte of a
block is compressed into `H`; errors of R81. -/
def Obligations.MsgByteAbsorbs : Prop :=
  ∀ (s : State) (b : BitVec 8),
    decode (0x4000#16 ||| b.setWidth 16) = .command (.msgByte b) ∧
    (s.phase = .shaMsg ∨ s.phase = .hmacMsg → s.len.toNat ≠ 2 ^ 61 - 1 → s.idx ≠ 63#6 →
      exec (.msgByte b) s = .next { s with
        len := s.len + 1#61, blk := s.blk.set s.idx.toNat b s.idx.isLt, idx := s.idx + 1#6 }) ∧
    (s.phase = .shaMsg ∨ s.phase = .hmacMsg → s.len.toNat ≠ 2 ^ 61 - 1 → s.idx = 63#6 →
      exec (.msgByte b) s = .next { { s with
        len := s.len + 1#61, blk := s.blk.set s.idx.toNat b s.idx.isLt }.compress with idx := 0#6 }) ∧
    (s.phase = .shaMsg ∨ s.phase = .hmacMsg → s.len.toNat = 2 ^ 61 - 1 →
      exec (.msgByte b) s = .next { s with errcode := .lenOverflow, phase := .error }) ∧
    (s.phase = .idle ∨ s.phase = .hmacKey ∨ s.phase = .done →
      exec (.msgByte b) s = .next { s with errcode := .badPhase, phase := .error }) ∧
    (s.phase = .error → exec (.msgByte b) s = .next s)

/-- R82 (`Finalize` is R75, `HmacFinish` R97): `FINAL`, its word; it completes in `SHA_MSG` and `HMAC_MSG` and
leaves the digest; elsewhere it raises `BAD_PHASE`, never `LEN_OVERFLOW`; in `ERROR` it is ignored.  In
`SHA_MSG` the digest is `SHA1` of the bytes that the hash has absorbed since `SHA_INIT`. -/
def Obligations.FinalMakesDigestAvailable : Prop :=
  decode 0x6000#16 = .command .final ∧
  (∀ s : State,
    (s.phase = .shaMsg → exec .final s = .next (s.finalize.setPhase .done)) ∧
    (s.phase = .hmacMsg → ∃ t : State, s.hmacFinish = .ok t ∧
      exec .final s = .next (t.setPhase .done)) ∧
    (s.phase = .idle ∨ s.phase = .hmacKey ∨ s.phase = .done →
      exec .final s = .next { s with errcode := .badPhase, phase := .error }) ∧
    (s.phase = .error → exec .final s = .next s)) ∧
  (∀ (s u t : State) (m : List Byte), m.length ≤ 2 ^ 61 - 1 →
    State.absorbAll m s.hashStart = .ok u → u.phase = .shaMsg → exec .final u = .next t →
    sha1 m = some t.digestBytes)

/-! ## HMAC commands (42_hmac_commands.md) -/

/-- R93: `HMAC_INIT`, its word, its effect in every phase but `ERROR`, where it is ignored. -/
def Obligations.HmacInitClearsKeyAndBeginsHash : Prop :=
  decode 0x2000#16 = .command .hmacInit ∧
  ∀ s : State,
    (s.phase ≠ .error →
      exec .hmacInit s = .next { s with
        kblk := Vector.replicate 64 0x00#8
        h := #v[0x67452301#32, 0xEFCDAB89#32, 0x98BADCFE#32, 0x10325476#32, 0xC3D2E1F0#32]
        len := 0#61, idx := 0#6, phase := .hmacKey }) ∧
    (s.phase = .error → exec .hmacInit s = .next s)

/-- R94: `KEY_BYTE`, its words; among the first 64 the byte also goes to `KBLK[LEN]`; then it is absorbed as
any byte. -/
def Obligations.KeyByteStoresAndAbsorbs : Prop :=
  ∀ (s : State) (b : BitVec 8),
    decode (0x5000#16 ||| b.setWidth 16) = .command (.keyByte b) ∧
    (s.phase = .hmacKey → s.len.toNat ≠ 2 ^ 61 - 1 → ∃ t : State,
      exec (.keyByte b) s = .next t ∧
      (∀ hlt : s.len.toNat < 64, t.kblk = s.kblk.set s.len.toNat b hlt) ∧
      (64 ≤ s.len.toNat → t.kblk = s.kblk) ∧
      t.len = s.len + 1#61 ∧ t.blk = s.blk.set s.idx.toNat b s.idx.isLt ∧
      (s.idx ≠ 63#6 → t.idx = s.idx + 1#6 ∧ t.h = s.h ∧ t.work = s.work ∧ t.w = s.w ∧ t.t = s.t) ∧
      (s.idx = 63#6 → t.idx = 0#6 ∧ t.h = compress s.h t.blk ∧ t.w = schedule t.blk) ∧
      t.phase = .hmacKey ∧ t.errcode = s.errcode ∧ SameChannels s t) ∧
    (s.phase = .hmacKey → s.len.toNat = 2 ^ 61 - 1 →
      exec (.keyByte b) s = .next { s with errcode := .lenOverflow, phase := .error }) ∧
    (s.phase = .idle ∨ s.phase = .shaMsg ∨ s.phase = .hmacMsg ∨ s.phase = .done →
      exec (.keyByte b) s = .next { s with errcode := .badPhase, phase := .error }) ∧
    (s.phase = .error → exec (.keyByte b) s = .next s)

/-- R95: `KEY_END`, its word; a key longer than 64 bytes is replaced by the digest of its own hash and zeros,
a shorter one kept; the inner hash begins with the key block XORed with 0x36, which is compressed. -/
def Obligations.KeyEndStartsInnerHash : Prop :=
  decode 0x3000#16 = .command .keyEnd ∧
  ∀ s : State,
    (s.phase = .hmacKey → ∃ t : State, exec .keyEnd s = .next t ∧
      (64 < s.len.toNat → ∀ (i : Nat) (_ : i < 64),
        t.kblk[i] = if i < 20 then s.finalize.digestBytes.getD i 0#8 else 0x00#8) ∧
      (s.len.toNat ≤ 64 → t.kblk = s.kblk) ∧
      t.h = compress iv (t.kblk.map (· ^^^ 0x36#8)) ∧
      t.len = 64#61 ∧ t.idx = 0#6 ∧ t.phase = .hmacMsg ∧ t.errcode = s.errcode ∧ SameChannels s t) ∧
    (s.phase = .idle ∨ s.phase = .shaMsg ∨ s.phase = .hmacMsg ∨ s.phase = .done →
      exec .keyEnd s = .next { s with errcode := .badPhase, phase := .error }) ∧
    (s.phase = .error → exec .keyEnd s = .next s)

/-- R97: `HmacFinish` raises nothing and leaves the outer hash: `SHA1` of the key block XORed with 0x5C and
then the inner digest; it does not change `KBLK`. -/
def Obligations.HmacFinishComputesOuterHash : Prop :=
  ∀ s : State, ∃ t : State, s.hmacFinish = .ok t ∧
    sha1 (s.kblk.toList.map (· ^^^ 0x5C#8) ++ s.finalize.digestBytes) = some t.digestBytes ∧
    t.len = 84#61 ∧ t.idx = 0#6 ∧ t.kblk = s.kblk ∧
    t.phase = s.phase ∧ t.errcode = s.errcode ∧ SameChannels s t

/-! ## System commands (43_system_commands.md) -/

/-- R105: `NOP` changes no state at all, in every phase, and 0x0000 is its only word. -/
def Obligations.NopChangesNothing : Prop :=
  (∀ s : State, exec .nop s = .next s) ∧
  (∀ w : CmdWord, decode w = .command .nop ↔ w = 0x0000#16)

/-- R106 (R121, R123): `RD_DIGEST`, its words; in `DONE` the response is `H[idx]` and nothing else changes;
elsewhere it is 0, with `BAD_PHASE` raised except in `ERROR`; an index of 5 to 7 is no command. -/
def Obligations.RdDigestResponds : Prop :=
  ∀ (s : State) (idx : BitVec 3),
    (∀ hidx : idx.toNat < 5,
      decode (0x7000#16 ||| idx.setWidth 16) = .command (.rdDigest idx) ∧
      (s.phase = .done → exec (.rdDigest idx) s = .next { s with rsp := some (s.h[idx.toNat]) }) ∧
      (s.phase = .idle ∨ s.phase = .shaMsg ∨ s.phase = .hmacKey ∨ s.phase = .hmacMsg →
        exec (.rdDigest idx) s =
          .next { s with errcode := .badPhase, phase := .error, rsp := some 0x00000000#32 }) ∧
      (s.phase = .error → exec (.rdDigest idx) s = .next { s with rsp := some 0x00000000#32 })) ∧
    (5 ≤ idx.toNat → s.phase ≠ .error → s.accept (0x7000#16 ||| idx.setWidth 16) =
      .next { s with errcode := .illegalCmd, phase := .error })

/-- R107: `RD_STATUS`, its word; it responds the status word, in every phase, and changes nothing else. -/
def Obligations.RdStatusResponds : Prop :=
  decode 0x8000#16 = .command .rdStatus ∧
  ∀ s : State, exec .rdStatus s = .next { s with rsp := some (
    s.phase.code.setWidth 32 ||| ((if s.phase = .done then 1#32 else 0#32) <<< 3)
      ||| ((if s.phase = .error then 1#32 else 0#32) <<< 4) ||| (s.errcode.code.setWidth 32 <<< 5)) }

/-- R108: `RESET`, its word; it writes `PHASE` and `ERRCODE` and nothing else, in every phase; and it is the only
command that leaves `ERROR` and the only one that clears `ERRCODE`. -/
def Obligations.ResetCommandClears : Prop :=
  decode 0xF000#16 = .command .reset ∧
  (∀ s : State, exec .reset s = .next { s with phase := .idle, errcode := .none }) ∧
  (∀ (i : Instr) (s t : State), exec i s = .next t → s.phase = .error → t.phase ≠ .error → i = .reset) ∧
  (∀ (i : Instr) (s t : State), exec i s = .next t → s.errcode ≠ .none → t.errcode = .none → i = .reset)

/-! ## Flags and the status word (10_state.md R18 to R21) -/

/-- R21: the fields of `STATUS`, with the codes of R18 and R19, and its value after hard reset.  (The list of
the values it can take, which R21 derives, is `StatusTakesEightValues`.) -/
def Obligations.StatusWordFields : Prop :=
  (∀ s : State,
    s.status.extractLsb' 0 3 = (match s.phase with
      | .idle => 0#3 | .shaMsg => 1#3 | .hmacKey => 2#3 | .hmacMsg => 3#3 | .done => 4#3 | .error => 7#3) ∧
    (s.status.getLsbD 3 = true ↔ s.phase = .done) ∧
    (s.status.getLsbD 4 = true ↔ s.phase = .error) ∧
    s.status.extractLsb' 5 3 = (match s.errcode with
      | .none => 0#3 | .illegalCmd => 1#3 | .badPhase => 2#3 | .lenOverflow => 3#3) ∧
    s.status.extractLsb' 8 24 = 0#24) ∧
  (∀ s : State, s.hardReset.status = 0x00000000#32)

/-- Derived in R21 (from R18, R19, R20): the only values `STATUS` takes, in a state that meets the invariants
of R25. -/
def Obligations.StatusTakesEightValues : Prop :=
  ∀ s : State, s.Inv →
    (s.phase = .idle ∧ s.status = 0x00000000#32) ∨ (s.phase = .shaMsg ∧ s.status = 0x00000001#32) ∨
    (s.phase = .hmacKey ∧ s.status = 0x00000002#32) ∨ (s.phase = .hmacMsg ∧ s.status = 0x00000003#32) ∨
    (s.phase = .done ∧ s.status = 0x0000000C#32) ∨
    (s.phase = .error ∧ s.errcode = .illegalCmd ∧ s.status = 0x00000037#32) ∨
    (s.phase = .error ∧ s.errcode = .badPhase ∧ s.status = 0x00000057#32) ∨
    (s.phase = .error ∧ s.errcode = .lenOverflow ∧ s.status = 0x00000077#32)

/-- Derived in R20, R126, R135 and R139: the level outputs follow `PHASE`; between two commands the core is
ready exactly when no response waits (the model's reading of R139(c), log entry 10); in a reset cycle all four
are 0. -/
def Obligations.OutputsFollowState : Prop :=
  ∀ s : State,
    ((s.outputs false).digestValid = true ↔ s.phase = .done) ∧
    ((s.outputs false).err = true ↔ s.phase = .error) ∧
    ((s.outputs false).rspValid = true ↔ ∃ v : Word, s.rsp = some v ∧ (s.outputs false).rsp = v) ∧
    ((s.outputs false).cmdReady = true ↔ s.rsp = none) ∧
    (s.outputs true).digestValid = false ∧ (s.outputs true).err = false ∧
    (s.outputs true).rspValid = false ∧ (s.outputs true).cmdReady = false

/-! ## Errors (60_exceptions.md) -/

/-- R117: an illegal word raises `ILLEGAL_CMD` in every phase but `ERROR`, where it is ignored; it has no
other effect and makes no response. -/
def Obligations.IllegalWordsRaiseIllegalCmd : Prop :=
  ∀ (s : State) (w : CmdWord) (why : Illegal), decode w = .illegal why →
    (s.phase ≠ .error → s.accept w = .next { s with errcode := .illegalCmd, phase := .error }) ∧
    (s.phase = .error → s.accept w = .next s)

/-- The matrix of R118: outside `ERROR` a command raises `BAD_PHASE` exactly in the phases marked B; in `ERROR`
no command raises anything, and none but `RESET` leaves it.  (The response that a `RD_DIGEST` makes is R121's;
what the commands marked Y do is stated command by command.) -/
def Obligations.BadPhaseExactlyWhereNotLegal : Prop :=
  ∀ (i : Instr) (s t : State), i.wellFormed = true → exec i s = .next t →
    (s.phase ≠ .error → ((t.phase = .error ∧ t.errcode = .badPhase) ↔
      (match i with
        | .keyByte _ => s.phase ≠ .hmacKey
        | .keyEnd => s.phase ≠ .hmacKey
        | .msgByte _ => s.phase ≠ .shaMsg ∧ s.phase ≠ .hmacMsg
        | .final => s.phase ≠ .shaMsg ∧ s.phase ≠ .hmacMsg
        | .rdDigest _ => s.phase ≠ .done
        | .nop => False
        | .shaInit => False
        | .hmacInit => False
        | .rdStatus => False
        | .reset => False))) ∧
    (s.phase = .error → i ≠ .reset → t.phase = .error ∧ t.errcode = s.errcode)

/-- R119: `LEN_OVERFLOW` is raised exactly by `MSG_BYTE` and `KEY_BYTE`, in a phase where they are legal,
when `LEN = MAX_BYTES`; the byte is not absorbed. -/
def Obligations.LenOverflowExactlyAtMaximum : Prop :=
  ∀ (i : Instr) (s t : State), s.phase ≠ .error → exec i s = .next t →
    ((t.phase = .error ∧ t.errcode = .lenOverflow) ↔
      (s.len.toNat = 2 ^ 61 - 1 ∧
        (((∃ b, i = .msgByte b) ∧ (s.phase = .shaMsg ∨ s.phase = .hmacMsg)) ∨
          ((∃ b, i = .keyByte b) ∧ s.phase = .hmacKey)))) ∧
    (t.phase = .error ∧ t.errcode = .lenOverflow →
      t = { s with errcode := .lenOverflow, phase := .error })

/-- R121 (and R122, derived there): a command or word that raises does exactly error entry: `ERRCODE`, `PHASE`,
and the response 0 if it is a `RD_DIGEST`; no datapath register and no other channel data is written. -/
def Obligations.ErrorsArePrecise : Prop :=
  (∀ (i : Instr) (s t : State), i.wellFormed = true → s.phase ≠ .error → exec i s = .next t →
    t.phase = .error →
    (t.errcode = .badPhase ∨ t.errcode = .lenOverflow) ∧ t.errFlag = true ∧ t.digestValid = false ∧
    t = { s with
      errcode := t.errcode
      phase := .error
      rsp := match i with
        | .rdDigest _ => some 0x00000000#32
        | .nop => s.rsp
        | .shaInit => s.rsp
        | .hmacInit => s.rsp
        | .keyEnd => s.rsp
        | .msgByte _ => s.rsp
        | .keyByte _ => s.rsp
        | .final => s.rsp
        | .rdStatus => s.rsp
        | .reset => s.rsp }) ∧
  (∀ (s : State) (w : CmdWord) (why : Illegal), decode w = .illegal why → s.phase ≠ .error →
    s.accept w = .next { s with errcode := .illegalCmd, phase := .error })

/-- R123, word by word: what each accepted word does while `PHASE = ERROR`; and no sequence of words that lacks
a `RESET` leaves the phase or changes the first error's code. -/
def Obligations.ErrorPhaseBehaviour : Prop :=
  ∀ (s : State), s.phase = .error →
    s.accept (encode .reset) = .next { s with phase := .idle, errcode := .none } ∧
    s.accept (encode .rdStatus) = .next { s with rsp := some s.status } ∧
    s.accept (encode .nop) = .next s ∧
    (∀ idx : BitVec 3, idx.toNat ≤ 4 →
      s.accept (encode (.rdDigest idx)) = .next { s with rsp := some 0x00000000#32 }) ∧
    s.accept (encode .shaInit) = .next s ∧ s.accept (encode .hmacInit) = .next s ∧
    (∀ b : BitVec 8, s.accept (encode (.keyByte b)) = .next s) ∧
    s.accept (encode .keyEnd) = .next s ∧
    (∀ b : BitVec 8, s.accept (encode (.msgByte b)) = .next s) ∧
    s.accept (encode .final) = .next s ∧
    (∀ (w : CmdWord) (why : Illegal), decode w = .illegal why → s.accept w = .next s) ∧
    (s.errcode ≠ .none →
      s.status = 0x00000037#32 ∨ s.status = 0x00000057#32 ∨ s.status = 0x00000077#32) ∧
    (∀ (ws : List CmdWord) (t : State), (∀ w ∈ ws, w ≠ 0xF000#16) → State.feed ws s = .next t →
      t.phase = .error ∧ t.errcode = s.errcode)

/-- Derived from R123 and R125, about runs of the core rather than sequences of words: from `ERROR`, a run
whose host acts hold no `RESET` word and no hard reset stays in `ERROR` with the first error's code, and
writes no datapath register. -/
def Obligations.ErrorIsStickyOverRuns : Prop :=
  ∀ (n : Nat) (s t : State), s.phase = .error →
    (∀ act ∈ s.host, act ≠ .hardReset ∧ act ≠ .offer 0xF000#16) →
    run n s = .next t →
    t.phase = .error ∧ t.errcode = s.errcode ∧ SameDatapath s t

/-! ## The phase register and frames (10_state.md) -/

/-- From R23: the transition table, with the note above it (a byte that overflows goes to `ERROR`); a word that
does not decode raises `ILLEGAL_CMD` and goes to `ERROR` from every phase except `ERROR`, where it is ignored;
and a step that changes `PHASE` either accepted the word at the head of the host's acts or served a hard reset
(R135), its first act past the commands still offered behind a waiting response (R139(c); that the acts are one
list, in this order, is log entry 4). -/
def Obligations.NextPhaseTable : Prop :=
  (∀ (i : Instr) (s t : State), i.wellFormed = true → exec i s = .next t →
    t.phase = (match i, s.phase with
      | .nop, p => p
      | .shaInit, .error => .error
      | .shaInit, _ => .shaMsg
      | .hmacInit, .error => .error
      | .hmacInit, _ => .hmacKey
      | .keyByte _, .hmacKey => if s.len.toNat = 2 ^ 61 - 1 then .error else .hmacKey
      | .keyByte _, _ => .error
      | .keyEnd, .hmacKey => .hmacMsg
      | .keyEnd, _ => .error
      | .msgByte _, .shaMsg => if s.len.toNat = 2 ^ 61 - 1 then .error else .shaMsg
      | .msgByte _, .hmacMsg => if s.len.toNat = 2 ^ 61 - 1 then .error else .hmacMsg
      | .msgByte _, _ => .error
      | .final, .shaMsg => .done
      | .final, .hmacMsg => .done
      | .final, _ => .error
      | .rdDigest _, .done => .done
      | .rdDigest _, _ => .error
      | .rdStatus, p => p
      | .reset, _ => .idle)) ∧
  (∀ (s : State) (w : CmdWord) (why : Illegal), decode w = .illegal why →
    (s.phase ≠ .error → s.accept w = .next { s with errcode := .illegalCmd, phase := .error }) ∧
    (s.phase = .error → s.accept w = .next s)) ∧
  (∀ s t : State, step s = .next t → t.phase ≠ s.phase →
    (s.rsp = none ∧ ∃ (w : CmdWord) (rest : List HostAct), s.host = .offer w :: rest ∧
      ({ s with host := rest } : State).accept w = .next t) ∨
    (∃ a b : List HostAct, (∀ act ∈ a, ∃ w : CmdWord, act = .offer w) ∧ (s.rsp = none → a = []) ∧
      s.host = a ++ .hardReset :: b ∧ t = ({ s with host := a ++ b } : State).hardReset))

/-- From R17 and R19: no command but `HMAC_INIT`, `KEY_BYTE`, `KEY_END` writes `KBLK`; `ERRCODE` changes only by
error entry and by `RESET`; no command changes what the host has taken or will do. -/
def Obligations.WhoWritesKeyBlockAndErrcode : Prop :=
  ∀ (i : Instr) (s t : State), exec i s = .next t →
    ((i ≠ .hmacInit ∧ i ≠ .keyEnd ∧ ∀ b, i ≠ .keyByte b) → t.kblk = s.kblk) ∧
    (t.errcode ≠ s.errcode → (t.phase = .error ∧ s.phase ≠ .error) ∨ i = .reset) ∧
    t.taken = s.taken ∧ t.host = s.host

/-- From R36 (decision D26): a command that decodes to a read responds exactly one word whatever the phase,
and no other command touches the response channel. -/
def Obligations.ExactlyReadsRespond : Prop :=
  ∀ (i : Instr) (s t : State), i.wellFormed = true → exec i s = .next t →
    (((∃ idx, i = .rdDigest idx) ∨ i = .rdStatus) → ∃ v : Word, t.rsp = some v) ∧
    (¬ ((∃ idx, i = .rdDigest idx) ∨ i = .rdStatus) → t.rsp = s.rsp)

/-- The frame of `MSG_BYTE` and `KEY_BYTE` when they do not raise: every byte of `BLK` but `BLK[IDX]`, every
byte of `KBLK` but, for `KEY_BYTE`, `KBLK[LEN]`, and, unless the block is full, `H`, `A..E`, `W`, `T` are
unchanged; so are `PHASE`, `ERRCODE` and the channels (R81, R94, R71). -/
def Obligations.ByteCommandsFrame : Prop :=
  ∀ (b : BitVec 8) (i : Instr) (s t : State), (i = .msgByte b ∨ i = .keyByte b) →
    exec i s = .next t → t.phase ≠ .error →
    t.phase = s.phase ∧ t.errcode = s.errcode ∧ SameChannels s t ∧
    (∀ (j : Nat) (_ : j < 64), j ≠ s.idx.toNat → t.blk[j] = s.blk[j]) ∧
    (i = .msgByte b → t.kblk = s.kblk) ∧
    (∀ (j : Nat) (_ : j < 64), j ≠ s.len.toNat → t.kblk[j] = s.kblk[j]) ∧
    (s.idx ≠ 63#6 → t.h = s.h ∧ t.work = s.work ∧ t.w = s.w ∧ t.t = s.t ∧ t.freeDraws = s.freeDraws)

/-- The frame of the commands that start or finish a hash, when they do not raise: the four of them leave
`ERRCODE` and the channels alone; the two `*_INIT` leave `A..E`, `W`, `T`, `BLK` alone, and `SHA_INIT` and
`FINAL` leave `KBLK` alone; `FINAL` of a plain hash leaves `LEN` alone (R80, R93, R95, R82, R75, R97). -/
def Obligations.HashCommandsFrame : Prop :=
  ∀ (i : Instr) (s t : State),
    (i = .shaInit ∨ i = .hmacInit ∨ i = .keyEnd ∨ i = .final) →
    exec i s = .next t → t.phase ≠ .error →
    t.errcode = s.errcode ∧ SameChannels s t ∧
    (i = .shaInit ∨ i = .hmacInit →
      t.work = s.work ∧ t.w = s.w ∧ t.t = s.t ∧ t.blk = s.blk ∧ t.freeDraws = s.freeDraws) ∧
    (i = .shaInit ∨ i = .final → t.kblk = s.kblk) ∧
    (i = .final → s.phase = .shaMsg → t.len = s.len)

/-! ## Invariants and what the host can tell apart (10_state.md R22, R25, R26) -/

/-- The invariants of R25 hold at reset. -/
def Obligations.ResetMeetsInvariants : Prop := State.reset.Inv

/-- Every step keeps the invariants of R25 (derived there), hard reset included. -/
def Obligations.StepKeepsInvariants : Prop :=
  ∀ s t : State, s.Inv → step s = .next t → t.Inv

/-- R24: the reset values the spec gives, and what the `RESET` command leaves unchanged.  The values of the
datapath registers after hard reset are unspecified there: neither the model's zeros in `State.reset` (log
entry 1) nor its free values (log entry 2) are part of this statement. -/
def Obligations.ResetValues : Prop :=
  (State.reset.phase = .idle ∧ State.reset.errcode = .none ∧ State.reset.digestValid = false ∧
    State.reset.errFlag = false ∧ State.reset.status = 0x00000000#32) ∧
  (∀ s : State, s.hardReset.phase = .idle ∧ s.hardReset.errcode = .none ∧
    s.hardReset.digestValid = false ∧ s.hardReset.errFlag = false ∧
    s.hardReset.status = 0x00000000#32) ∧
  (∀ s : State, ∃ t : State, exec .reset s = .next t ∧ t.phase = .idle ∧ t.errcode = .none ∧
    t.digestValid = false ∧ t.errFlag = false ∧ t.status = 0x00000000#32 ∧ SameDatapath s t)

/-- Derived in R26 with R22: a step of two states the host cannot tell apart, which may differ in every
hidden register, answers two such states again, or stops in both; and their level outputs and status words
are equal. -/
def Obligations.HiddenStateStaysHidden : Prop :=
  ∀ s1 s2 : State, s1.Indistinguishable s2 →
    s1.digestValid = s2.digestValid ∧ s1.errFlag = s2.errFlag ∧ s1.status = s2.status ∧
    ((∃ t1 t2 : State, step s1 = .next t1 ∧ step s2 = .next t2 ∧ t1.Indistinguishable t2) ∨
      (∃ f : Fault, step s1 = .fault f ∧ step s2 = .fault f))

/-- Derived in R135: hard reset and the `RESET` command leave states the host cannot tell apart, whatever the
free values hard reset leaves in the datapath (log entry 2). -/
def Obligations.HardResetLooksLikeResetCommand : Prop :=
  ∀ s : State, s.rsp = none →
    ∃ t : State, exec .reset s = .next t ∧ s.hardReset.Indistinguishable t

/-! ## Steps and the channels (20_memory.md, 70_reset_and_hazards.md) -/

/-- A step runs the decoded command: with no response outstanding and the word `w` offered, the step is
`exec` of what `w` decodes to, or the effect of an illegal word, on the state from whose acts the offer is
removed (00_scope.md R8, 60_exceptions.md R120). -/
def Obligations.StepRunsDecodedCommand : Prop :=
  ∀ (s : State) (w : CmdWord) (rest : List HostAct), s.rsp = none → s.host = .offer w :: rest →
    (∀ i : Instr, decode w = .command i → step s = exec i { s with host := rest }) ∧
    (∀ why : Illegal, decode w = .illegal why →
      step s = .next ({ s with host := rest } : State).illegalWord)

/-- Derived from R135 in the model's terms: in a cycle with `rst = 1` no word is accepted, whatever is offered; a
hard reset that is the host's next act is served whatever commands the host offers behind it, and they stay
offered, with none of their effect; behind a waiting response it is served past the commands still offered
before it.  That the host's acts are one list and the offers keep their places is log entry 4.  The hard reset
sets `PHASE` and `ERRCODE` and drops an untaken response (R135); the words the host has taken stay, which is
the model's choice (log entry 14).  The datapath registers are not part of this statement (log entry 2). -/
def Obligations.HardResetIsServed : Prop :=
  (∀ s : State, (s.outputs true).cmdReady = false) ∧
  (∀ (s : State) (rest : List HostAct), s.host = .hardReset :: rest →
    step s = .next ({ s with host := rest } : State).hardReset) ∧
  (∀ (s : State) (v : Word) (a b : List HostAct), s.rsp = some v →
    (∀ act ∈ a, ∃ w : CmdWord, act = .offer w) → s.host = a ++ .hardReset :: b →
    step s = .next ({ s with host := a ++ b } : State).hardReset) ∧
  (∀ s : State, s.hardReset.phase = .idle ∧ s.hardReset.errcode = .none ∧ s.hardReset.rsp = none ∧
    s.hardReset.taken = s.taken ∧ s.hardReset.host = s.host)

/-- From R139(b), (c) and R42 (the order of the host's acts is log entry 4): while a response is outstanding
no command is accepted, so the act that is served is the host's first take or hard reset behind the commands
it still offers; the word stays as it is until it is taken, when it joins the response stream at its end, or a
hard reset drops it. -/
def Obligations.ResponseIsTakenBeforeNextCommand : Prop :=
  ∀ (s t : State) (v : Word), s.rsp = some v → step s = .next t →
    (s.host = [] ∧ t = s) ∨
    (∃ a b : List HostAct, (∀ act ∈ a, ∃ w : CmdWord, act = .offer w) ∧ s.host = a ++ .take :: b ∧
      t = { s with rsp := none, taken := s.taken ++ [v], host := a ++ b }) ∨
    (∃ a b : List HostAct, (∀ act ∈ a, ∃ w : CmdWord, act = .offer w) ∧ s.host = a ++ .hardReset :: b ∧
      t = ({ s with host := a ++ b } : State).hardReset)

/-- From R145 and R139(d) (the named stop is log entry 5): a step that accepts a command word answers a next
state, and the only state in which a step stops is one where a response waits, the host's acts hold a command,
and neither a take nor a hard reset. -/
def Obligations.EveryAcceptedCommandCompletes : Prop :=
  (∀ (s : State) (w : CmdWord), ∃ t : State, s.accept w = .next t) ∧
  (∀ (s : State), (∃ t : State, step s = .next t) ∨
    (step s = .fault .responseNeverTaken ∧ (∃ v : Word, s.rsp = some v) ∧ s.host ≠ [] ∧
      ∀ act ∈ s.host, ∃ w : CmdWord, act = .offer w))

/-- R41: with a host that takes each response before it goes on, a run of the core is the left fold of the
command words. -/
def Obligations.RunIsFoldOverCommands : Prop :=
  ∀ (ws : List CmdWord) (s : State) (rest : List HostAct), s.rsp = none →
    s.host = ws.flatMap (fun w => [HostAct.offer w, .take]) ++ rest →
    ∃ t : State, run (2 * ws.length) s = .next t ∧ t.host = rest ∧ t.rsp = none ∧
      State.feed ws { s with host := rest } = .next t

/-! ## End to end -/

/-- R83 (derived there): the pseudo-instruction `SHA1 m` (R58), from any state with `PHASE ≠ ERROR`, raises
no error and ends in `DONE` with the digest; the five reads then respond its words. -/
def Obligations.Sha1EndToEnd : Prop :=
  ∀ (m : List Byte) (s : State) (rest : List HostAct),
    m.length ≤ 2 ^ 61 - 1 → s.phase ≠ .error → s.rsp = none →
    s.host = offers (sha1Program m) ++ readsAndTakes readDigestAll ++ rest →
    (∃ t : State, run (m.length + 2) s = .next t ∧ t.phase = .done ∧ t.errcode = s.errcode ∧
      t.taken = s.taken ∧ sha1 m = some t.digestBytes) ∧
    RunsClean (m.length + 12) s ∧
    (∃ (t : State) (ws : List Word), run (m.length + 12) s = .next t ∧ t.phase = .done ∧
      t.host = rest ∧ t.rsp = none ∧ t.taken = s.taken ++ ws ∧ ws.length = 5 ∧
      sha1 m = some (ws.flatMap be32))

/-- R98 (derived there): the pseudo-instruction `HMAC k, m` (R58) likewise. -/
def Obligations.HmacEndToEnd : Prop :=
  ∀ (k m : List Byte) (s : State) (rest : List HostAct),
    k.length ≤ 2 ^ 61 - 1 → m.length ≤ 2 ^ 61 - 1 - 64 → s.phase ≠ .error → s.rsp = none →
    s.host = offers (hmacProgram k m) ++ readsAndTakes readDigestAll ++ rest →
    (∃ t : State, run (k.length + m.length + 3) s = .next t ∧ t.phase = .done ∧
      t.errcode = s.errcode ∧ t.taken = s.taken ∧ hmac k m = some t.digestBytes) ∧
    RunsClean (k.length + m.length + 13) s ∧
    (∃ (t : State) (ws : List Word), run (k.length + m.length + 13) s = .next t ∧ t.phase = .done ∧
      t.host = rest ∧ t.rsp = none ∧ t.taken = s.taken ++ ws ∧ ws.length = 5 ∧
      hmac k m = some (ws.flatMap be32))

/-- R83 and R98, last sentences (derived there): `NOP` and `RD_STATUS` commands interleaved anywhere change
nothing. -/
def Obligations.FillersChangeNothing : Prop :=
  ∀ (p : List (List Filler × Instr)) (s : State) (rest : List HostAct), s.phase ≠ .error → s.rsp = none →
    s.host = interleaved p ++ rest →
    (∀ m : List Byte, m.length ≤ 2 ^ 61 - 1 → p.map Prod.snd = sha1Program m →
      ∃ (n : Nat) (t : State), run n s = .next t ∧ RunsClean n s ∧ t.host = rest ∧ t.rsp = none ∧
        t.phase = .done ∧ sha1 m = some t.digestBytes) ∧
    (∀ k m : List Byte, k.length ≤ 2 ^ 61 - 1 → m.length ≤ 2 ^ 61 - 1 - 64 →
      p.map Prod.snd = hmacProgram k m →
      ∃ (n : Nat) (t : State), run n s = .next t ∧ RunsClean n s ∧ t.host = rest ∧ t.rsp = none ∧
        t.phase = .done ∧ hmac k m = some t.digestBytes)

/-- The core's guarantee of R143 (derived there): whatever commands follow an `*_INIT`, short of another
`*_INIT` and of `RESET`, if the core is in `DONE` after them then the digest is the function of exactly the
bytes sent. -/
def Obligations.DoneDigestIsOfTheBytesSent : Prop :=
  ∀ (is : List Instr) (s t : State), s.phase ≠ .error →
    (∀ i ∈ is, i.wellFormed = true ∧ continuesInvocation i = true) → t.phase = .done →
    (State.feed (programWords (.shaInit :: is)) s = .next t →
      sha1 (messageBytes is) = some t.digestBytes) ∧
    (State.feed (programWords (.hmacInit :: is)) s = .next t →
      hmac (keyBytes is) (messageBytes is) = some t.digestBytes)

/-- 10_state.md R25(d), second half (derived there): after `HMAC_INIT` and key bytes, `KBLK` holds the first
64 of them in order and zeros after them. -/
def Obligations.KeyBlockHoldsFirstKeyBytes : Prop :=
  ∀ (k : List Byte) (s : State), k.length ≤ 2 ^ 61 - 1 → s.phase ≠ .error →
    ∃ t : State, State.feed (programWords (.hmacInit :: keyProgram k)) s = .next t ∧
      t.phase = .hmacKey ∧ t.len.toNat = k.length ∧
      ∀ (i : Nat) (_ : i < 64), t.kblk[i] = if i < k.length then k.getD i 0#8 else 0x00#8

/-! ## Assembler (30_encoding.md R57, R58) -/

/-- From R57 and R58 (what they leave open is log entry 16): every line they describe is accepted, and gives the
command or the expansion they say, whatever blanks and comment follow; an index of 5 to 9 is refused; and
whatever line is accepted, the commands it gives are well formed, so they have words of their own (R50). -/
def Obligations.AssembledCommandsAreWellFormed : Prop :=
  (∀ tail : List Char, LineEnd tail →
    assembleLine tail = some [] ∧
    assembleLine ("NOP".toList ++ tail) = some [.nop] ∧
    assembleLine ("SHA_INIT".toList ++ tail) = some [.shaInit] ∧
    assembleLine ("HMAC_INIT".toList ++ tail) = some [.hmacInit] ∧
    assembleLine ("KEY_END".toList ++ tail) = some [.keyEnd] ∧
    assembleLine ("FINAL".toList ++ tail) = some [.final] ∧
    assembleLine ("RD_STATUS".toList ++ tail) = some [.rdStatus] ∧
    assembleLine ("RESET".toList ++ tail) = some [.reset] ∧
    (∀ (t : List Char) (b : Byte), ByteText t b →
      assembleLine ("MSG_BYTE ".toList ++ t ++ tail) = some [.msgByte b] ∧
      assembleLine ("KEY_BYTE ".toList ++ t ++ tail) = some [.keyByte b]) ∧
    (∀ d : Nat, d ≤ 4 → assembleLine ("RD_DIGEST ".toList ++ Nat.digitChar d :: tail) =
      some [.rdDigest (BitVec.ofNat 3 d)]) ∧
    (∀ d : Nat, 5 ≤ d → d ≤ 9 →
      assembleLine ("RD_DIGEST ".toList ++ Nat.digitChar d :: tail) = none) ∧
    (∀ (t : List Char) (m : List Byte), BytesText t m →
      assembleLine ("MSG ".toList ++ t ++ tail) = some (m.map .msgByte) ∧
      assembleLine ("KEY ".toList ++ t ++ tail) = some (m.map .keyByte) ∧
      assembleLine ("SHA1 ".toList ++ t ++ tail) = some (.shaInit :: (m.map .msgByte ++ [.final]))) ∧
    (∀ (tk tm : List Char) (k m : List Byte), BytesText tk k → BytesText tm m →
      assembleLine ("HMAC ".toList ++ tk ++ ", ".toList ++ tm ++ tail) =
        some (.hmacInit :: (k.map .keyByte ++ .keyEnd :: (m.map .msgByte ++ [.final])))) ∧
    assembleLine ("RD_DIGEST_ALL".toList ++ tail) =
      some [.rdDigest 0#3, .rdDigest 1#3, .rdDigest 2#3, .rdDigest 3#3, .rdDigest 4#3]) ∧
  (∀ (line : List Char) (is : List Instr), assembleLine line = some is →
    ∀ i ∈ is, i.wellFormed = true)
end

