-- ==== Sys2Proof/Laws/Assembler.lean ====
section
/-! SUPPORT. What each reader of the assembler does on the texts of 30_encoding.md R57 and R58, whatever ends
the line after them. -/

namespace Sys2Proof.Machine

/-! ### The end of a line -/

/-- What ends a line begins with nothing, a blank or a semicolon. -/
theorem lineEnd_cases {t : List Char} (h : LineEnd t) :
    t = [] ∨ (∃ r, t = ' ' :: r) ∨ ∃ r, t = ';' :: r := by
  obtain ⟨n, rest, rfl, hr⟩ := h
  cases n with
  | zero =>
    rcases hr with rfl | ⟨text, rfl⟩
    · exact .inl rfl
    · exact .inr (.inr ⟨text, rfl⟩)
  | succ n => exact .inr (.inl ⟨_, rfl⟩)

/-- So it begins with no letter, digit or operand. -/
theorem lineEnd_stop {t : List Char} (h : LineEnd t) :
    t = [] ∨ ∃ c r, t = c :: r ∧ (c = ' ' ∨ c = ';' ∨ c = ',') := by
  rcases lineEnd_cases h with rfl | ⟨r, rfl⟩ | ⟨r, rfl⟩ <;> simp

theorem restIsBlank_lineEnd {t : List Char} (h : LineEnd t) : restIsBlank t = true := by
  obtain ⟨n, rest, rfl, hr⟩ := h
  induction n with
  | zero => rcases hr with rfl | ⟨text, rfl⟩ <;> simp [restIsBlank]
  | succ n ih => simpa [List.replicate_succ, restIsBlank] using ih

theorem finishLine_lineEnd {t : List Char} (is : List Instr) (h : LineEnd t) :
    finishLine is t = some is := by
  simp [finishLine, restIsBlank_lineEnd h]

/-! ### Hexadecimal digits -/

/-- What lower case does to a character's number. -/
theorem toNat_toLower (c : Char) :
    c.toLower.toNat = if 65 ≤ c.toNat ∧ c.toNat ≤ 90 then c.toNat + 32 else c.toNat := by
  have hiff : (c.val ≥ 'A'.val ∧ c.val ≤ 'Z'.val) ↔ (65 ≤ c.toNat ∧ c.toNat ≤ 90) := by
    constructor <;> intro h <;> exact h
  unfold Char.toLower
  split
  · rename_i h
    have h' := hiff.1 h
    rw [if_pos h']
    show (c.val + 32).toNat = c.val.toNat + 32
    have : c.val.toNat ≤ 90 := h'.2
    rw [UInt32.toNat_add]
    simp; omega
  · rename_i h
    rw [if_neg (fun hc => h (hiff.2 hc))]

theorem hexDigit_of_lower {c : Char} {d : Nat} (hd : d < 16) (h : c.toLower = Nat.digitChar d) :
    hexDigit? c = some d := by
  have h1 := toNat_toLower c
  rw [h] at h1
  have h2 : (Nat.digitChar d).toNat = if d < 10 then 48 + d else 87 + d := by
    interval_cases d <;> rfl
  rw [h2] at h1
  unfold hexDigit?
  split at h1 <;> split at h1
  · omega
  · rw [if_pos (by omega)]; congr 1; omega
  · rw [if_neg (by omega), if_pos (by omega)]; congr 1; omega
  · rw [if_neg (by omega), if_neg (by omega), if_pos (by omega)]; congr 1; omega

theorem hexDigit_none {c : Char} (h : c = ' ' ∨ c = ';' ∨ c = ',') : hexDigit? c = none := by
  rcases h with rfl | rfl | rfl <;> rfl

/-- Two hexadecimal digits of a byte, in either case, read as the byte (log entry 16). -/
theorem hexByte_text {hi lo : Char} {b : Byte} (h : [hi, lo].map Char.toLower = hexChars b) :
    hexByte? hi lo = some b ∧ (hexDigit? hi).isSome = true := by
  have hb := b.isLt
  simp only [hexChars, List.map_cons, List.map_nil, List.cons.injEq, and_true] at h
  have h1 := hexDigit_of_lower (by omega) h.1
  have h2 := hexDigit_of_lower (by omega) h.2
  refine ⟨?_, by simp [h1]⟩
  simp only [hexByte?, h1, h2, Option.bind_some, Option.map_some]
  congr 1
  apply BitVec.eq_of_toNat_eq
  simp; omega

/-! ### Byte strings (R58) -/

/-- The digits of a byte string read as the string, up to what is no digit. -/
theorem readHexPairs_text {digits : List Char} {m : List Byte} (tail : List Char)
    (h : digits.map Char.toLower = m.flatMap hexChars)
    (htail : tail = [] ∨ ∃ c r, tail = c :: r ∧ (c = ' ' ∨ c = ';' ∨ c = ',')) :
    readHexPairs (digits ++ tail) = some (m, tail) := by
  induction m generalizing digits with
  | nil =>
    have : digits = [] := by simpa using h
    subst this
    rcases htail with rfl | ⟨c, r, rfl, hc⟩
    · rfl
    · cases r <;> simp [readHexPairs, hexDigit_none hc]
  | cons b m ih =>
    match digits, h with
    | hi :: lo :: rest, h =>
      simp only [hexChars, List.map_cons, List.flatMap_cons, List.cons_append, List.nil_append,
        List.cons.injEq] at h
      obtain ⟨h1, h2⟩ := hexByte_text (hi := hi) (lo := lo) (b := b) (by simp [hexChars, h.1, h.2.1])
      simp [readHexPairs, h1, h2, ih h.2.2]
    | [], h => simp [hexChars] at h
    | [_], h => simp [hexChars] at h

/-- An ASCII string reads up to its closing quote. -/
theorem readQuoted_text {cs : List Char} (tail : List Char) (h : ∀ c ∈ cs, c.toNat < 128 ∧ c ≠ '"') :
    readQuoted (cs ++ '"' :: tail) = some (cs.map (fun c => BitVec.ofNat 8 c.toNat), tail) := by
  induction cs with
  | nil => rfl
  | cons c cs ih =>
    have hc := h c (by simp)
    have hq : c.toNat ≠ 34 := fun hn => hc.2 (Char.toNat_inj.1 hn)
    simp [readQuoted, hc.1, hq, ih (fun x hx => h x (by simp [hx]))]

/-- Every text of a byte string reads as the string (R58). -/
theorem readBytes_text {t : List Char} {m : List Byte} (tail : List Char) (h : BytesText t m)
    (htail : tail = [] ∨ ∃ c r, tail = c :: r ∧ (c = ' ' ∨ c = ';' ∨ c = ',')) :
    readBytes (t ++ tail) = some (m, tail) := by
  rcases h with ⟨digits, hd, rfl⟩ | ⟨cs, hcs, rfl, rfl⟩
  · simpa [readBytes] using readHexPairs_text tail hd htail
  · have : '"' :: (cs ++ ['"']) ++ tail = '"' :: (cs ++ '"' :: tail) := by simp
    rw [this]
    simpa [readBytes] using readQuoted_text tail hcs

/-! ### Bytes and indices (R57) -/

theorem readDecimal_stop (n : Nat) {tail : List Char}
    (htail : tail = [] ∨ (∃ r, tail = ' ' :: r) ∨ ∃ r, tail = ';' :: r) : readDecimal n tail = (n, tail) := by
  rcases htail with rfl | ⟨r, rfl⟩ | ⟨r, rfl⟩ <;> rfl

theorem readDecimal_append {ds : List Char} (h : ds.all (fun c => (decDigit? c).isSome) = true) (n : Nat)
    {tail : List Char} (htail : tail = [] ∨ (∃ r, tail = ' ' :: r) ∨ ∃ r, tail = ';' :: r) :
    readDecimal n (ds ++ tail) = ((readDecimal n ds).1, tail) := by
  induction ds generalizing n with
  | nil => simpa [readDecimal] using readDecimal_stop n htail
  | cons c ds ih =>
    simp only [List.all_cons, Bool.and_eq_true] at h
    obtain ⟨d, hd⟩ := Option.isSome_iff_exists.1 h.1
    simp [readDecimal, hd, ih h.2]

/-- The decimal digits of a byte are digits, and read as the byte. -/
theorem toDigits_reads : ∀ n : Fin 256, 
    (Nat.toDigits 10 n.val).all (fun c => (decDigit? c).isSome) = true ∧ Nat.toDigits 10 n.val ≠ [] ∧
    (readDecimal 0 (Nat.toDigits 10 n.val)).1 = n.val := by decide +kernel

/-- Text that begins with a digit and is no `0x` is a decimal number. -/
theorem readByte_of_digit {c : Char} {cs : List Char} (hc : (decDigit? c).isSome = true)
    (hx : ∀ r, cs ≠ 'x' :: r) : readByte (c :: cs) = readDecimalByte (c :: cs) := by
  have hq : c.toNat ≠ 39 := by
    intro h; simp [decDigit?, h] at hc
  unfold readByte
  split
  · rename_i h
    simp only [List.cons.injEq] at h
    exact absurd h.2 (hx _)
  · rename_i h
    simp only [List.cons.injEq] at h
    rw [← h.1, if_neg (fun hh => hq hh.1)]
  · rfl

theorem readByte_decimal (b : Byte) {tail : List Char}
    (htail : tail = [] ∨ (∃ r, tail = ' ' :: r) ∨ ∃ r, tail = ';' :: r) :
    readByte (Nat.toDigits 10 b.toNat ++ tail) = some (b, tail) := by
  obtain ⟨h1, h2, h3⟩ := toDigits_reads ⟨b.toNat, b.isLt⟩
  simp only at h1 h2 h3
  generalize Nat.toDigits 10 b.toNat = ds at h1 h2 h3
  match ds with
  | [] => exact absurd rfl h2
  | c :: cs =>
    simp only [List.all_cons, Bool.and_eq_true] at h1
    obtain ⟨d, hd⟩ := Option.isSome_iff_exists.1 h1.1
    have hx : ∀ r, cs ++ tail ≠ 'x' :: r := by
      intro r hr
      match cs with
      | [] => rcases htail with rfl | ⟨r, rfl⟩ | ⟨r, rfl⟩ <;> simp at hr
      | c' :: cs' =>
        simp only [List.cons_append, List.cons.injEq] at hr
        have := h1.2
        simp only [List.all_cons, hr.1, Bool.and_eq_true] at this
        exact absurd this.1 (by decide)
    have h3' : (readDecimal d cs).1 = b.toNat := by simpa [readDecimal, hd] using h3
    have hb := b.isLt
    rw [List.cons_append, readByte_of_digit h1.1 hx]
    simp [readDecimalByte, hd, readDecimal_append h1.2 d htail, h3']
    omega

/-- Every text of a byte reads as the byte (R57). -/
theorem readByte_text {t : List Char} {b : Byte} (tail : List Char) (h : ByteText t b)
    (htail : tail = [] ∨ (∃ r, tail = ' ' :: r) ∨ ∃ r, tail = ';' :: r) :
    readByte (t ++ tail) = some (b, tail) := by
  rcases h with ⟨digits, hd, rfl⟩ | rfl | ⟨c, h1, h2, rfl, rfl⟩
  · match digits, hd with
    | [hi, lo], hd =>
      simp [readByte, (hexByte_text hd).1]
    | [], hd => simp [hexChars] at hd
    | [_], hd => simp [hexChars] at hd
    | _ :: _ :: _ :: _, hd => simp [hexChars] at hd
  · exact readByte_decimal b htail
  · simp [readByte, h1, h2]

/-! ### A line as a mnemonic and its operands -/

/-- A mnemonic ends where a line ends. -/
theorem lineEnd_not_mnemonic {t : List Char} (h : LineEnd t) :
    t = [] ∨ ∃ c r, t = c :: r ∧ isMnemonicChar c = false := by
  rcases lineEnd_cases h with rfl | ⟨r, rfl⟩ | ⟨r, rfl⟩
  · exact .inl rfl
  · exact .inr ⟨_, _, rfl, by decide⟩
  · exact .inr ⟨_, _, rfl, by decide⟩

/-- A line that begins with a mnemonic is read by what follows the mnemonic. -/
theorem assembleLine_word {c : Char} {cs tail : List Char} (hw : (c :: cs).all isMnemonicChar = true)
    (ht : tail = [] ∨ ∃ x r, tail = x :: r ∧ isMnemonicChar x = false) :
    assembleLine (c :: cs ++ tail) = assembleMnemonic (c :: cs) tail := by
  have hc : isMnemonicChar c = true := by
    simp only [List.all_cons, Bool.and_eq_true] at hw
    exact hw.1
  have hblank : c ≠ ' ' := fun h => absurd hc (by rw [h]; decide)
  have hsemi : c ≠ ';' := fun h => absurd hc (by rw [h]; decide)
  have hword : ∀ w : List Char, w.all isMnemonicChar = true →
      (w ++ tail).takeWhile isMnemonicChar = w ∧ (w ++ tail).dropWhile isMnemonicChar = tail := by
    intro w hw
    induction w with
    | nil => rcases ht with rfl | ⟨x, r, rfl, hx⟩ <;> simp [*]
    | cons a w ih =>
      simp only [List.all_cons, Bool.and_eq_true] at hw
      simp [hw.1, ih hw.2]
  have hdrop : (c :: cs ++ tail).dropWhile (· == ' ') = c :: cs ++ tail := by simp [hblank]
  have hrest : restIsBlank (c :: cs ++ tail) = false := by simp [restIsBlank, hblank, hsemi]
  simp only [assembleLine, hdrop, hrest, (hword _ hw).1, (hword _ hw).2]
  rfl

end Sys2Proof.Machine
end

