-- ==== Sys2Proof/Laws/State.lean ====
section
/-! SUPPORT. One lemma per field per update of the state, true by `rfl`: no later proof unfolds a record
update.  Only fields an update leaves alone, or writes with a value worth naming, are listed. -/

namespace Sys2Proof.Machine

variable (s : State)

/-! ### `setLen` -/

@[simp] theorem setLen_h (n : BitVec 61) : (s.setLen n).h = s.h := rfl
@[simp] theorem setLen_work (n : BitVec 61) : (s.setLen n).work = s.work := rfl
@[simp] theorem setLen_w (n : BitVec 61) : (s.setLen n).w = s.w := rfl
@[simp] theorem setLen_t (n : BitVec 61) : (s.setLen n).t = s.t := rfl
@[simp] theorem setLen_blk (n : BitVec 61) : (s.setLen n).blk = s.blk := rfl
@[simp] theorem setLen_idx (n : BitVec 61) : (s.setLen n).idx = s.idx := rfl
@[simp] theorem setLen_len (n : BitVec 61) : (s.setLen n).len = n := rfl
@[simp] theorem setLen_kblk (n : BitVec 61) : (s.setLen n).kblk = s.kblk := rfl
@[simp] theorem setLen_phase (n : BitVec 61) : (s.setLen n).phase = s.phase := rfl
@[simp] theorem setLen_errcode (n : BitVec 61) : (s.setLen n).errcode = s.errcode := rfl
@[simp] theorem setLen_rsp (n : BitVec 61) : (s.setLen n).rsp = s.rsp := rfl
@[simp] theorem setLen_taken (n : BitVec 61) : (s.setLen n).taken = s.taken := rfl
@[simp] theorem setLen_host (n : BitVec 61) : (s.setLen n).host = s.host := rfl
@[simp] theorem setLen_freeDraws (n : BitVec 61) : (s.setLen n).freeDraws = s.freeDraws := rfl

/-! ### `setIdx` -/

@[simp] theorem setIdx_h (i : BitVec 6) : (s.setIdx i).h = s.h := rfl
@[simp] theorem setIdx_work (i : BitVec 6) : (s.setIdx i).work = s.work := rfl
@[simp] theorem setIdx_w (i : BitVec 6) : (s.setIdx i).w = s.w := rfl
@[simp] theorem setIdx_t (i : BitVec 6) : (s.setIdx i).t = s.t := rfl
@[simp] theorem setIdx_blk (i : BitVec 6) : (s.setIdx i).blk = s.blk := rfl
@[simp] theorem setIdx_idx (i : BitVec 6) : (s.setIdx i).idx = i := rfl
@[simp] theorem setIdx_len (i : BitVec 6) : (s.setIdx i).len = s.len := rfl
@[simp] theorem setIdx_kblk (i : BitVec 6) : (s.setIdx i).kblk = s.kblk := rfl
@[simp] theorem setIdx_phase (i : BitVec 6) : (s.setIdx i).phase = s.phase := rfl
@[simp] theorem setIdx_errcode (i : BitVec 6) : (s.setIdx i).errcode = s.errcode := rfl
@[simp] theorem setIdx_rsp (i : BitVec 6) : (s.setIdx i).rsp = s.rsp := rfl
@[simp] theorem setIdx_taken (i : BitVec 6) : (s.setIdx i).taken = s.taken := rfl
@[simp] theorem setIdx_host (i : BitVec 6) : (s.setIdx i).host = s.host := rfl
@[simp] theorem setIdx_freeDraws (i : BitVec 6) : (s.setIdx i).freeDraws = s.freeDraws := rfl

/-! ### `setPhase` -/

@[simp] theorem setPhase_h (p : Phase) : (s.setPhase p).h = s.h := rfl
@[simp] theorem setPhase_work (p : Phase) : (s.setPhase p).work = s.work := rfl
@[simp] theorem setPhase_w (p : Phase) : (s.setPhase p).w = s.w := rfl
@[simp] theorem setPhase_t (p : Phase) : (s.setPhase p).t = s.t := rfl
@[simp] theorem setPhase_blk (p : Phase) : (s.setPhase p).blk = s.blk := rfl
@[simp] theorem setPhase_idx (p : Phase) : (s.setPhase p).idx = s.idx := rfl
@[simp] theorem setPhase_len (p : Phase) : (s.setPhase p).len = s.len := rfl
@[simp] theorem setPhase_kblk (p : Phase) : (s.setPhase p).kblk = s.kblk := rfl
@[simp] theorem setPhase_phase (p : Phase) : (s.setPhase p).phase = p := rfl
@[simp] theorem setPhase_errcode (p : Phase) : (s.setPhase p).errcode = s.errcode := rfl
@[simp] theorem setPhase_rsp (p : Phase) : (s.setPhase p).rsp = s.rsp := rfl
@[simp] theorem setPhase_taken (p : Phase) : (s.setPhase p).taken = s.taken := rfl
@[simp] theorem setPhase_host (p : Phase) : (s.setPhase p).host = s.host := rfl
@[simp] theorem setPhase_freeDraws (p : Phase) : (s.setPhase p).freeDraws = s.freeDraws := rfl

/-! ### `setKey` -/

@[simp] theorem setKey_h (kb : Vector Byte 64) : (s.setKey kb).h = s.h := rfl
@[simp] theorem setKey_work (kb : Vector Byte 64) : (s.setKey kb).work = s.work := rfl
@[simp] theorem setKey_w (kb : Vector Byte 64) : (s.setKey kb).w = s.w := rfl
@[simp] theorem setKey_t (kb : Vector Byte 64) : (s.setKey kb).t = s.t := rfl
@[simp] theorem setKey_blk (kb : Vector Byte 64) : (s.setKey kb).blk = s.blk := rfl
@[simp] theorem setKey_idx (kb : Vector Byte 64) : (s.setKey kb).idx = s.idx := rfl
@[simp] theorem setKey_len (kb : Vector Byte 64) : (s.setKey kb).len = s.len := rfl
@[simp] theorem setKey_kblk (kb : Vector Byte 64) : (s.setKey kb).kblk = kb := rfl
@[simp] theorem setKey_phase (kb : Vector Byte 64) : (s.setKey kb).phase = s.phase := rfl
@[simp] theorem setKey_errcode (kb : Vector Byte 64) : (s.setKey kb).errcode = s.errcode := rfl
@[simp] theorem setKey_rsp (kb : Vector Byte 64) : (s.setKey kb).rsp = s.rsp := rfl
@[simp] theorem setKey_taken (kb : Vector Byte 64) : (s.setKey kb).taken = s.taken := rfl
@[simp] theorem setKey_host (kb : Vector Byte 64) : (s.setKey kb).host = s.host := rfl
@[simp] theorem setKey_freeDraws (kb : Vector Byte 64) : (s.setKey kb).freeDraws = s.freeDraws := rfl

/-! ### `setHost` -/

@[simp] theorem setHost_h (acts : List HostAct) : (s.setHost acts).h = s.h := rfl
@[simp] theorem setHost_work (acts : List HostAct) : (s.setHost acts).work = s.work := rfl
@[simp] theorem setHost_w (acts : List HostAct) : (s.setHost acts).w = s.w := rfl
@[simp] theorem setHost_t (acts : List HostAct) : (s.setHost acts).t = s.t := rfl
@[simp] theorem setHost_blk (acts : List HostAct) : (s.setHost acts).blk = s.blk := rfl
@[simp] theorem setHost_idx (acts : List HostAct) : (s.setHost acts).idx = s.idx := rfl
@[simp] theorem setHost_len (acts : List HostAct) : (s.setHost acts).len = s.len := rfl
@[simp] theorem setHost_kblk (acts : List HostAct) : (s.setHost acts).kblk = s.kblk := rfl
@[simp] theorem setHost_phase (acts : List HostAct) : (s.setHost acts).phase = s.phase := rfl
@[simp] theorem setHost_errcode (acts : List HostAct) : (s.setHost acts).errcode = s.errcode := rfl
@[simp] theorem setHost_rsp (acts : List HostAct) : (s.setHost acts).rsp = s.rsp := rfl
@[simp] theorem setHost_taken (acts : List HostAct) : (s.setHost acts).taken = s.taken := rfl
@[simp] theorem setHost_host (acts : List HostAct) : (s.setHost acts).host = acts := rfl
@[simp] theorem setHost_freeDraws (acts : List HostAct) : (s.setHost acts).freeDraws = s.freeDraws := rfl

/-! ### `compress` -/

@[simp] theorem compress_h : s.compress.h = compress s.h s.blk := rfl
@[simp] theorem compress_work : s.compress.work = workingAfter s.h s.blk := rfl
@[simp] theorem compress_w : s.compress.w = schedule s.blk := rfl
@[simp] theorem compress_blk : s.compress.blk = s.blk := rfl
@[simp] theorem compress_idx : s.compress.idx = s.idx := rfl
@[simp] theorem compress_len : s.compress.len = s.len := rfl
@[simp] theorem compress_kblk : s.compress.kblk = s.kblk := rfl
@[simp] theorem compress_phase : s.compress.phase = s.phase := rfl
@[simp] theorem compress_errcode : s.compress.errcode = s.errcode := rfl
@[simp] theorem compress_rsp : s.compress.rsp = s.rsp := rfl
@[simp] theorem compress_taken : s.compress.taken = s.taken := rfl
@[simp] theorem compress_host : s.compress.host = s.host := rfl
@[simp] theorem compress_freeDraws : s.compress.freeDraws = s.freeDraws + 1 := rfl

/-! ### `storeByte` -/

@[simp] theorem storeByte_h (b : Byte) : (s.storeByte b).h = s.h := rfl
@[simp] theorem storeByte_work (b : Byte) : (s.storeByte b).work = s.work := rfl
@[simp] theorem storeByte_w (b : Byte) : (s.storeByte b).w = s.w := rfl
@[simp] theorem storeByte_t (b : Byte) : (s.storeByte b).t = s.t := rfl
@[simp] theorem storeByte_blk (b : Byte) : (s.storeByte b).blk = s.blk.set s.idx.toNat b s.idx.isLt := rfl
@[simp] theorem storeByte_idx (b : Byte) : (s.storeByte b).idx = s.idx := rfl
@[simp] theorem storeByte_len (b : Byte) : (s.storeByte b).len = s.len := rfl
@[simp] theorem storeByte_kblk (b : Byte) : (s.storeByte b).kblk = s.kblk := rfl
@[simp] theorem storeByte_phase (b : Byte) : (s.storeByte b).phase = s.phase := rfl
@[simp] theorem storeByte_errcode (b : Byte) : (s.storeByte b).errcode = s.errcode := rfl
@[simp] theorem storeByte_rsp (b : Byte) : (s.storeByte b).rsp = s.rsp := rfl
@[simp] theorem storeByte_taken (b : Byte) : (s.storeByte b).taken = s.taken := rfl
@[simp] theorem storeByte_host (b : Byte) : (s.storeByte b).host = s.host := rfl
@[simp] theorem storeByte_freeDraws (b : Byte) : (s.storeByte b).freeDraws = s.freeDraws := rfl

/-! ### `hashStart` -/

@[simp] theorem hashStart_h : s.hashStart.h = iv := rfl
@[simp] theorem hashStart_work : s.hashStart.work = s.work := rfl
@[simp] theorem hashStart_w : s.hashStart.w = s.w := rfl
@[simp] theorem hashStart_t : s.hashStart.t = s.t := rfl
@[simp] theorem hashStart_blk : s.hashStart.blk = s.blk := rfl
@[simp] theorem hashStart_idx : s.hashStart.idx = 0#6 := rfl
@[simp] theorem hashStart_len : s.hashStart.len = 0#61 := rfl
@[simp] theorem hashStart_kblk : s.hashStart.kblk = s.kblk := rfl
@[simp] theorem hashStart_phase : s.hashStart.phase = s.phase := rfl
@[simp] theorem hashStart_errcode : s.hashStart.errcode = s.errcode := rfl
@[simp] theorem hashStart_rsp : s.hashStart.rsp = s.rsp := rfl
@[simp] theorem hashStart_taken : s.hashStart.taken = s.taken := rfl
@[simp] theorem hashStart_host : s.hashStart.host = s.host := rfl
@[simp] theorem hashStart_freeDraws : s.hashStart.freeDraws = s.freeDraws := rfl

/-! ### `clearKey` -/

@[simp] theorem clearKey_h : s.clearKey.h = s.h := rfl
@[simp] theorem clearKey_work : s.clearKey.work = s.work := rfl
@[simp] theorem clearKey_w : s.clearKey.w = s.w := rfl
@[simp] theorem clearKey_t : s.clearKey.t = s.t := rfl
@[simp] theorem clearKey_blk : s.clearKey.blk = s.blk := rfl
@[simp] theorem clearKey_idx : s.clearKey.idx = s.idx := rfl
@[simp] theorem clearKey_len : s.clearKey.len = s.len := rfl
@[simp] theorem clearKey_kblk : s.clearKey.kblk = Vector.replicate 64 0#8 := rfl
@[simp] theorem clearKey_phase : s.clearKey.phase = s.phase := rfl
@[simp] theorem clearKey_errcode : s.clearKey.errcode = s.errcode := rfl
@[simp] theorem clearKey_rsp : s.clearKey.rsp = s.rsp := rfl
@[simp] theorem clearKey_taken : s.clearKey.taken = s.taken := rfl
@[simp] theorem clearKey_host : s.clearKey.host = s.host := rfl
@[simp] theorem clearKey_freeDraws : s.clearKey.freeDraws = s.freeDraws := rfl

/-! ### `respond` -/

@[simp] theorem respond_h (v : Word) : (s.respond v).h = s.h := rfl
@[simp] theorem respond_work (v : Word) : (s.respond v).work = s.work := rfl
@[simp] theorem respond_w (v : Word) : (s.respond v).w = s.w := rfl
@[simp] theorem respond_t (v : Word) : (s.respond v).t = s.t := rfl
@[simp] theorem respond_blk (v : Word) : (s.respond v).blk = s.blk := rfl
@[simp] theorem respond_idx (v : Word) : (s.respond v).idx = s.idx := rfl
@[simp] theorem respond_len (v : Word) : (s.respond v).len = s.len := rfl
@[simp] theorem respond_kblk (v : Word) : (s.respond v).kblk = s.kblk := rfl
@[simp] theorem respond_phase (v : Word) : (s.respond v).phase = s.phase := rfl
@[simp] theorem respond_errcode (v : Word) : (s.respond v).errcode = s.errcode := rfl
@[simp] theorem respond_rsp (v : Word) : (s.respond v).rsp = some v := rfl
@[simp] theorem respond_taken (v : Word) : (s.respond v).taken = s.taken := rfl
@[simp] theorem respond_host (v : Word) : (s.respond v).host = s.host := rfl
@[simp] theorem respond_freeDraws (v : Word) : (s.respond v).freeDraws = s.freeDraws := rfl

/-! ### `raise` -/

@[simp] theorem raise_h (c : Cause) : (s.raise c).h = s.h := rfl
@[simp] theorem raise_work (c : Cause) : (s.raise c).work = s.work := rfl
@[simp] theorem raise_w (c : Cause) : (s.raise c).w = s.w := rfl
@[simp] theorem raise_t (c : Cause) : (s.raise c).t = s.t := rfl
@[simp] theorem raise_blk (c : Cause) : (s.raise c).blk = s.blk := rfl
@[simp] theorem raise_idx (c : Cause) : (s.raise c).idx = s.idx := rfl
@[simp] theorem raise_len (c : Cause) : (s.raise c).len = s.len := rfl
@[simp] theorem raise_kblk (c : Cause) : (s.raise c).kblk = s.kblk := rfl
@[simp] theorem raise_phase (c : Cause) : (s.raise c).phase = .error := rfl
@[simp] theorem raise_errcode (c : Cause) : (s.raise c).errcode = c.errcode := rfl
@[simp] theorem raise_rsp (c : Cause) : (s.raise c).rsp = s.rsp := rfl
@[simp] theorem raise_taken (c : Cause) : (s.raise c).taken = s.taken := rfl
@[simp] theorem raise_host (c : Cause) : (s.raise c).host = s.host := rfl
@[simp] theorem raise_freeDraws (c : Cause) : (s.raise c).freeDraws = s.freeDraws := rfl

/-! ### `clearError` -/

@[simp] theorem clearError_h : s.clearError.h = s.h := rfl
@[simp] theorem clearError_work : s.clearError.work = s.work := rfl
@[simp] theorem clearError_w : s.clearError.w = s.w := rfl
@[simp] theorem clearError_t : s.clearError.t = s.t := rfl
@[simp] theorem clearError_blk : s.clearError.blk = s.blk := rfl
@[simp] theorem clearError_idx : s.clearError.idx = s.idx := rfl
@[simp] theorem clearError_len : s.clearError.len = s.len := rfl
@[simp] theorem clearError_kblk : s.clearError.kblk = s.kblk := rfl
@[simp] theorem clearError_phase : s.clearError.phase = .idle := rfl
@[simp] theorem clearError_errcode : s.clearError.errcode = .none := rfl
@[simp] theorem clearError_rsp : s.clearError.rsp = s.rsp := rfl
@[simp] theorem clearError_taken : s.clearError.taken = s.taken := rfl
@[simp] theorem clearError_host : s.clearError.host = s.host := rfl
@[simp] theorem clearError_freeDraws : s.clearError.freeDraws = s.freeDraws := rfl

/-! ### `hardReset` -/

@[simp] theorem hardReset_phase : s.hardReset.phase = .idle := rfl
@[simp] theorem hardReset_errcode : s.hardReset.errcode = .none := rfl
@[simp] theorem hardReset_rsp : s.hardReset.rsp = none := rfl
@[simp] theorem hardReset_taken : s.hardReset.taken = s.taken := rfl
@[simp] theorem hardReset_host : s.hardReset.host = s.host := rfl
@[simp] theorem hardReset_freeDraws : s.hardReset.freeDraws = s.freeDraws + 1 := rfl

end Sys2Proof.Machine
end

