-- ==== Sys2Proof/Laws/Ops.lean ====
section
/-! SUPPORT. What each shared operation can do, once: the hashing operations touch nothing but the hash
registers; `Absorb` of a list either raises at the bound or is `AbsorbRaw` of the list; the shape of every
command's answer; the cases of a step. -/

namespace Sys2Proof.Machine

/-! ### `AbsorbRaw` -/

theorem absorbRaw_full (s : State) (b : Byte) (hidx : s.idx = 63#6) :
    s.absorbRaw b = (s.storeByte b).compress.setIdx 0#6 := by
  simp [State.absorbRaw, hidx]

theorem absorbRaw_open (s : State) (b : Byte) (hidx : s.idx ≠ 63#6) :
    s.absorbRaw b = (s.storeByte b).setIdx (s.idx + 1#6) := by
  simp [State.absorbRaw, hidx]


@[simp] theorem absorbRaw_len (s : State) (b : Byte) : (s.absorbRaw b).len = s.len := by
  unfold State.absorbRaw; split <;> rfl

@[simp] theorem absorbRaw_kblk (s : State) (b : Byte) : (s.absorbRaw b).kblk = s.kblk := by
  unfold State.absorbRaw; split <;> rfl

@[simp] theorem absorbRaw_phase (s : State) (b : Byte) : (s.absorbRaw b).phase = s.phase := by
  unfold State.absorbRaw; split <;> rfl

@[simp] theorem absorbRaw_errcode (s : State) (b : Byte) : (s.absorbRaw b).errcode = s.errcode := by
  unfold State.absorbRaw; split <;> rfl

@[simp] theorem absorbRaw_rsp (s : State) (b : Byte) : (s.absorbRaw b).rsp = s.rsp := by
  unfold State.absorbRaw; split <;> rfl

@[simp] theorem absorbRaw_taken (s : State) (b : Byte) : (s.absorbRaw b).taken = s.taken := by
  unfold State.absorbRaw; split <;> rfl

@[simp] theorem absorbRaw_host (s : State) (b : Byte) : (s.absorbRaw b).host = s.host := by
  unfold State.absorbRaw; split <;> rfl

theorem absorbRaw_idx (s : State) (b : Byte) :
    (s.absorbRaw b).idx.toNat = (s.idx.toNat + 1) % 64 := by
  by_cases hidx : s.idx = 63#6
  · simp [absorbRaw_full s b hidx, hidx]
  · simp [absorbRaw_open s b hidx, BitVec.toNat_add]

theorem absorbRaw_blk (s : State) (b : Byte) :
    (s.absorbRaw b).blk = s.blk.set s.idx.toNat b s.idx.isLt := by
  unfold State.absorbRaw; split <;> rfl

/-- `AbsorbRaw` does not read `LEN`. -/
theorem absorbRaw_setLen (s : State) (b : Byte) (n : BitVec 61) :
    (s.setLen n).absorbRaw b = (s.absorbRaw b).setLen n := by
  by_cases hidx : s.idx = 63#6
  · rw [absorbRaw_full s b hidx, absorbRaw_full (s.setLen n) b hidx]; rfl
  · rw [absorbRaw_open s b hidx, absorbRaw_open (s.setLen n) b hidx]; rfl

@[simp] theorem setLen_self (s : State) : s.setLen s.len = s := rfl

@[simp] theorem setLen_setLen (s : State) (m n : BitVec 61) : (s.setLen m).setLen n = s.setLen n := rfl

/-! ### `AbsorbRaw` of a list -/

@[simp] theorem absorbRawAll_nil (s : State) : s.absorbRawAll [] = s := rfl

@[simp] theorem absorbRawAll_cons (s : State) (b : Byte) (bs : List Byte) :
    s.absorbRawAll (b :: bs) = (s.absorbRaw b).absorbRawAll bs := rfl

theorem absorbRawAll_append (s : State) (bs cs : List Byte) :
    s.absorbRawAll (bs ++ cs) = (s.absorbRawAll bs).absorbRawAll cs := by
  simp [State.absorbRawAll]

@[simp] theorem absorbRawAll_len (s : State) (bs : List Byte) : (s.absorbRawAll bs).len = s.len := by
  induction bs generalizing s with
  | nil => rfl
  | cons b bs ih => simp [ih]

@[simp] theorem absorbRawAll_kblk (s : State) (bs : List Byte) : (s.absorbRawAll bs).kblk = s.kblk := by
  induction bs generalizing s with
  | nil => rfl
  | cons b bs ih => simp [ih]

@[simp] theorem absorbRawAll_phase (s : State) (bs : List Byte) : (s.absorbRawAll bs).phase = s.phase := by
  induction bs generalizing s with
  | nil => rfl
  | cons b bs ih => simp [ih]

@[simp] theorem absorbRawAll_errcode (s : State) (bs : List Byte) : (s.absorbRawAll bs).errcode = s.errcode := by
  induction bs generalizing s with
  | nil => rfl
  | cons b bs ih => simp [ih]

@[simp] theorem absorbRawAll_rsp (s : State) (bs : List Byte) : (s.absorbRawAll bs).rsp = s.rsp := by
  induction bs generalizing s with
  | nil => rfl
  | cons b bs ih => simp [ih]

@[simp] theorem absorbRawAll_taken (s : State) (bs : List Byte) : (s.absorbRawAll bs).taken = s.taken := by
  induction bs generalizing s with
  | nil => rfl
  | cons b bs ih => simp [ih]

@[simp] theorem absorbRawAll_host (s : State) (bs : List Byte) : (s.absorbRawAll bs).host = s.host := by
  induction bs generalizing s with
  | nil => rfl
  | cons b bs ih => simp [ih]

theorem absorbRawAll_idx (s : State) (bs : List Byte) :
    (s.absorbRawAll bs).idx.toNat = (s.idx.toNat + bs.length) % 64 := by
  induction bs generalizing s with
  | nil => have := s.idx.isLt; simp; omega
  | cons b bs ih => simp [ih, absorbRaw_idx]; omega

theorem absorbRawAll_setLen (s : State) (bs : List Byte) (n : BitVec 61) :
    (s.setLen n).absorbRawAll bs = (s.absorbRawAll bs).setLen n := by
  induction bs generalizing s with
  | nil => rfl
  | cons b bs ih => simp [absorbRaw_setLen, ih]

/-- Every 64 bytes absorbed make one compression, counted by the draws (log entry 3). -/
theorem absorbRawAll_freeDraws (s : State) (bs : List Byte) :
    (s.absorbRawAll bs).freeDraws = s.freeDraws + (s.idx.toNat + bs.length) / 64 := by
  induction bs generalizing s with
  | nil => have := s.idx.isLt; simp; omega
  | cons b bs ih =>
    have hidx := absorbRaw_idx s b
    have hlt := s.idx.isLt
    rw [absorbRawAll_cons, ih, hidx]
    by_cases h63 : s.idx = 63#6
    · have hd : (s.absorbRaw b).freeDraws = s.freeDraws + 1 := by rw [absorbRaw_full s b h63]; rfl
      have hn : s.idx.toNat = 63 := by rw [h63]; rfl
      simp [hd, hn]
      omega
    · have hd : (s.absorbRaw b).freeDraws = s.freeDraws := by rw [absorbRaw_open s b h63]; rfl
      have hn : s.idx.toNat ≠ 63 := fun h => h63 (BitVec.eq_of_toNat_eq (by simpa using h))
      simp [hd]
      omega

/-! ### `Absorb` -/

theorem lenFull_iff (s : State) : s.lenFull = true ↔ s.len.toNat = Config.maxBytes := by
  simp [State.lenFull]

theorem absorb_full (s : State) (b : Byte) (hlen : s.len.toNat = Config.maxBytes) :
    s.absorb b = .error .lenOverflow := by
  simp [State.absorb, (lenFull_iff s).2 hlen]

theorem absorb_ok (s : State) (b : Byte) (hlen : s.len.toNat ≠ Config.maxBytes) :
    s.absorb b = .ok ((s.absorbRaw b).setLen (s.len + 1#61)) := by
  have hf : s.lenFull = false := by simpa [State.lenFull] using hlen
  simp [State.absorb, hf, absorbRaw_setLen]

/-- A list that fits under the bound is absorbed whole, and counted. -/
theorem absorbAll_ok (bs : List Byte) (s : State)
    (hfit : s.len.toNat + bs.length ≤ Config.maxBytes) :
    State.absorbAll bs s =
      .ok ((s.absorbRawAll bs).setLen (s.len + BitVec.ofNat 61 bs.length)) := by
  induction bs generalizing s with
  | nil => simp [State.absorbAll]
  | cons b bs ih =>
    have hmax : Config.maxBytes = 2 ^ 61 - 1 := rfl
    simp only [List.length_cons] at hfit
    have hne : s.len.toNat ≠ Config.maxBytes := by omega
    have hlen : (s.len + 1#61).toNat = s.len.toNat + 1 := by
      rw [BitVec.toNat_add]; simp; omega
    have hcount : s.len + 1#61 + BitVec.ofNat 61 bs.length = s.len + BitVec.ofNat 61 (bs.length + 1) := by
      apply BitVec.eq_of_toNat_eq; simp [BitVec.toNat_add]; omega
    simp only [State.absorbAll, absorb_ok s b hne]
    rw [ih _ (by simp only [setLen_len, hlen]; omega)]
    simp [absorbRawAll_setLen, hcount]

/-! ### `Finalize` -/

@[simp] theorem zeroFill_len (n : Nat) (s : State) : (State.zeroFill n s).len = s.len := by
  induction n generalizing s with
  | zero => rfl
  | succ n ih => rw [State.zeroFill]; split <;> simp [ih]

@[simp] theorem zeroFill_kblk (n : Nat) (s : State) : (State.zeroFill n s).kblk = s.kblk := by
  induction n generalizing s with
  | zero => rfl
  | succ n ih => rw [State.zeroFill]; split <;> simp [ih]

@[simp] theorem zeroFill_phase (n : Nat) (s : State) : (State.zeroFill n s).phase = s.phase := by
  induction n generalizing s with
  | zero => rfl
  | succ n ih => rw [State.zeroFill]; split <;> simp [ih]

@[simp] theorem zeroFill_errcode (n : Nat) (s : State) : (State.zeroFill n s).errcode = s.errcode := by
  induction n generalizing s with
  | zero => rfl
  | succ n ih => rw [State.zeroFill]; split <;> simp [ih]

@[simp] theorem zeroFill_rsp (n : Nat) (s : State) : (State.zeroFill n s).rsp = s.rsp := by
  induction n generalizing s with
  | zero => rfl
  | succ n ih => rw [State.zeroFill]; split <;> simp [ih]

@[simp] theorem zeroFill_taken (n : Nat) (s : State) : (State.zeroFill n s).taken = s.taken := by
  induction n generalizing s with
  | zero => rfl
  | succ n ih => rw [State.zeroFill]; split <;> simp [ih]

@[simp] theorem zeroFill_host (n : Nat) (s : State) : (State.zeroFill n s).host = s.host := by
  induction n generalizing s with
  | zero => rfl
  | succ n ih => rw [State.zeroFill]; split <;> simp [ih]

@[simp] theorem finalize_len (s : State) : s.finalize.len = s.len := by
  simp [State.finalize]

@[simp] theorem finalize_kblk (s : State) : s.finalize.kblk = s.kblk := by
  simp [State.finalize]

@[simp] theorem finalize_phase (s : State) : s.finalize.phase = s.phase := by
  simp [State.finalize]

@[simp] theorem finalize_errcode (s : State) : s.finalize.errcode = s.errcode := by
  simp [State.finalize]

@[simp] theorem finalize_rsp (s : State) : s.finalize.rsp = s.rsp := by
  simp [State.finalize]

@[simp] theorem finalize_taken (s : State) : s.finalize.taken = s.taken := by
  simp [State.finalize]

@[simp] theorem finalize_host (s : State) : s.finalize.host = s.host := by
  simp [State.finalize]

/-- The loop of `Finalize` is `AbsorbRaw` of as many zero bytes as bring `IDX` to 56. -/
theorem zeroFill_eq (fuel z : Nat) (s : State) (hz : (s.idx.toNat + z) % 64 = 56) (hz64 : z < 64)
    (hfuel : z < fuel) : State.zeroFill fuel s = s.absorbRawAll (List.replicate z 0x00#8) := by
  induction fuel generalizing s z with
  | zero => omega
  | succ fuel ih =>
    have hlt := s.idx.isLt
    rw [State.zeroFill]
    by_cases hidx : s.idx = 56#6
    · have h56 : s.idx.toNat = 56 := by simp [hidx]
      have : z = 0 := by omega
      simp [hidx, this]
    · have h56 : s.idx.toNat ≠ 56 := fun h => hidx (BitVec.eq_of_toNat_eq (by simpa using h))
      obtain ⟨z', rfl⟩ : ∃ z', z = z' + 1 := ⟨z - 1, by omega⟩
      rw [if_neg hidx, List.replicate_succ, absorbRawAll_cons]
      exact ih z' _ (by rw [absorbRaw_idx]; omega) (by omega) (by omega)

/-- `Finalize` absorbs one byte 0x80, the zero bytes that bring `IDX` to 56, and the bit length. -/
theorem finalize_eq (s : State) (z : Nat) (hz : (s.idx.toNat + 1 + z) % 64 = 56) (hz64 : z < 64) :
    s.finalize = s.absorbRawAll
      (0x80#8 :: (List.replicate z 0x00#8 ++ be64 (8#64 * s.len.setWidth 64))) := by
  rw [absorbRawAll_cons, absorbRawAll_append,
    ← zeroFill_eq 64 z (s.absorbRaw 0x80#8) (by rw [absorbRaw_idx]; omega) hz64 hz64]
  rfl

/-- The number of zero bytes `Finalize` absorbs. -/
theorem exists_zeros (s : State) : ∃ z : Nat, (s.idx.toNat + 1 + z) % 64 = 56 ∧ z < 64 :=
  ⟨(55 + 64 - s.idx.toNat) % 64, by have := s.idx.isLt; omega, by omega⟩

@[simp] theorem length_be64 (x : BitVec 64) : (be64 x).length = 8 := rfl

@[simp] theorem finalize_idx (s : State) : s.finalize.idx = 0#6 := by
  obtain ⟨z, hz, hz64⟩ := exists_zeros s
  apply BitVec.eq_of_toNat_eq
  rw [finalize_eq s z hz hz64, absorbRawAll_idx]
  simp
  omega

/-! ### The pads -/

@[simp] theorem length_xorPad (kb : Vector Byte 64) (x : Byte) : (xorPad kb x).length = 64 := by
  simp [xorPad]

@[simp] theorem length_digestOf (h : Vector Word 5) : (digestOf h).length = 20 := by
  obtain ⟨⟨l⟩, hl⟩ := h
  match l, hl with
  | [a, b, c, d, e], _ => rfl

/-- Beginning a hash with a pad block never raises (40_sha1_datapath.md R72). -/
theorem startPadded_ok (s : State) (x : Byte) :
    s.startPadded x = .ok ((s.hashStart.absorbRawAll (xorPad s.kblk x)).setLen 64#61) := by
  rw [State.startPadded, absorbAll_ok _ _ (by simp [Config.maxBytes])]
  simp

/-- The outer hash of `HmacFinish` never raises (42_hmac_commands.md R97). -/
theorem absorbInner_ok (s : State) (ds : List Byte) (hds : ds.length = 20) :
    State.absorbAll ds (s.setLen 64#61) = .ok ((s.absorbRawAll ds).setLen 84#61) := by
  rw [absorbAll_ok _ _ (by simp [Config.maxBytes, hds])]
  simp [absorbRawAll_setLen, hds]

/-- `HmacFinish` never raises (42_hmac_commands.md R97), and what it does. -/
theorem hmacFinish_ok (s : State) : s.hmacFinish = .ok
    ((s.finalize.hashStart.absorbRawAll
        (xorPad s.kblk Config.opadByte ++ s.finalize.digestBytes)).setLen 84#61).finalize := by
  have hd : s.finalize.digestBytes.length = 20 := by simp [State.digestBytes]
  unfold State.hmacFinish
  rw [startPadded_ok]
  dsimp only
  rw [absorbInner_ok _ _ hd]
  dsimp only
  rw [absorbRawAll_append, finalize_kblk]

/-- What `HmacFinish` leaves: the counts of the outer hash, and every register that is not the hash's. -/
theorem hmacFinish_frame {s t : State} (h : s.hmacFinish = .ok t) :
    t.len = 84#61 ∧ t.idx = 0#6 ∧ t.kblk = s.kblk ∧ t.phase = s.phase ∧ t.errcode = s.errcode ∧
      t.rsp = s.rsp ∧ t.taken = s.taken ∧ t.host = s.host := by
  rw [hmacFinish_ok] at h
  rw [← Except.ok.inj h]
  simp

theorem hmacFinish_isOk (s : State) : ∃ t, s.hmacFinish = .ok t := ⟨_, hmacFinish_ok s⟩

/-! ### The key block -/

@[simp] theorem storeKeyByte_h (s : State) (b : Byte) : (s.storeKeyByte b).h = s.h := by
  unfold State.storeKeyByte; split <;> rfl

@[simp] theorem storeKeyByte_work (s : State) (b : Byte) : (s.storeKeyByte b).work = s.work := by
  unfold State.storeKeyByte; split <;> rfl

@[simp] theorem storeKeyByte_w (s : State) (b : Byte) : (s.storeKeyByte b).w = s.w := by
  unfold State.storeKeyByte; split <;> rfl

@[simp] theorem storeKeyByte_t (s : State) (b : Byte) : (s.storeKeyByte b).t = s.t := by
  unfold State.storeKeyByte; split <;> rfl

@[simp] theorem storeKeyByte_blk (s : State) (b : Byte) : (s.storeKeyByte b).blk = s.blk := by
  unfold State.storeKeyByte; split <;> rfl

@[simp] theorem storeKeyByte_idx (s : State) (b : Byte) : (s.storeKeyByte b).idx = s.idx := by
  unfold State.storeKeyByte; split <;> rfl

@[simp] theorem storeKeyByte_len (s : State) (b : Byte) : (s.storeKeyByte b).len = s.len := by
  unfold State.storeKeyByte; split <;> rfl

@[simp] theorem storeKeyByte_phase (s : State) (b : Byte) : (s.storeKeyByte b).phase = s.phase := by
  unfold State.storeKeyByte; split <;> rfl

@[simp] theorem storeKeyByte_errcode (s : State) (b : Byte) : (s.storeKeyByte b).errcode = s.errcode := by
  unfold State.storeKeyByte; split <;> rfl

@[simp] theorem storeKeyByte_rsp (s : State) (b : Byte) : (s.storeKeyByte b).rsp = s.rsp := by
  unfold State.storeKeyByte; split <;> rfl

@[simp] theorem storeKeyByte_taken (s : State) (b : Byte) : (s.storeKeyByte b).taken = s.taken := by
  unfold State.storeKeyByte; split <;> rfl

@[simp] theorem storeKeyByte_host (s : State) (b : Byte) : (s.storeKeyByte b).host = s.host := by
  unfold State.storeKeyByte; split <;> rfl

@[simp] theorem storeKeyByte_freeDraws (s : State) (b : Byte) : (s.storeKeyByte b).freeDraws = s.freeDraws := by
  unfold State.storeKeyByte; split <;> rfl

@[simp] theorem settleKey_len (s : State) : s.settleKey.len = s.len := by
  unfold State.settleKey; split <;> simp

@[simp] theorem settleKey_phase (s : State) : s.settleKey.phase = s.phase := by
  unfold State.settleKey; split <;> simp

@[simp] theorem settleKey_errcode (s : State) : s.settleKey.errcode = s.errcode := by
  unfold State.settleKey; split <;> simp

@[simp] theorem settleKey_rsp (s : State) : s.settleKey.rsp = s.rsp := by
  unfold State.settleKey; split <;> simp

@[simp] theorem settleKey_taken (s : State) : s.settleKey.taken = s.taken := by
  unfold State.settleKey; split <;> simp

@[simp] theorem settleKey_host (s : State) : s.settleKey.host = s.host := by
  unfold State.settleKey; split <;> simp

theorem settleKey_long (s : State) (hlen : 64 < s.len.toNat) :
    s.settleKey = s.finalize.setKey (keyBlockOf s.finalize.digestBytes) := if_pos hlen

theorem settleKey_short (s : State) (hlen : s.len.toNat ≤ 64) : s.settleKey = s :=
  if_neg (by omega)

/-! ### Commands -/

/-- What a gated command can answer. -/
theorem gated_cases {s t : State} {l : Legality} {body : Except Cause State}
    (h : s.gated l body = .next t) :
    (l = .ignored ∧ t = s) ∨ (l = .badPhase ∧ t = s.raise .badPhase) ∨
      (l = .legal ∧ body = .ok t) ∨ (∃ c, l = .legal ∧ body = .error c ∧ t = s.raise c) := by
  cases l with
  | ignored => simp [State.gated] at h; exact .inl ⟨rfl, h.symm⟩
  | badPhase => simp [State.gated] at h; exact .inr (.inl ⟨rfl, h.symm⟩)
  | legal =>
    cases body with
    | ok u => simp [State.gated, State.settle] at h; exact .inr (.inr (.inl ⟨rfl, by rw [h]⟩))
    | error c =>
      simp [State.gated, State.settle] at h
      exact .inr (.inr (.inr ⟨c, rfl, rfl, h.symm⟩))

/-- A gated command always answers a next state. -/
theorem gated_next (s : State) (l : Legality) (body : Except Cause State) :
    ∃ t, s.gated l body = .next t := by
  cases l <;> exact ⟨_, rfl⟩

/-! ### Steps -/

/-- A command at the head of the host's acts is accepted when no response waits. -/
theorem step_offer {s : State} {w : CmdWord} {rest : List HostAct} (hrsp : s.rsp = none)
    (hhost : s.host = .offer w :: rest) : step s = (s.setHost rest).accept w := by
  simp [step, State.nextAct, hrsp, hhost, State.serve]

/-- The cases of a step that answers a next state: an act is served, or the core waits. -/
theorem step_cases {s t : State} (h : step s = .next t) :
    (∃ act rest, s.nextAct = some (act, rest) ∧ (s.setHost rest).serve act = .next t) ∨
      (s.nextAct = none ∧ s.host = [] ∧ t = s) := by
  unfold step at h
  split at h
  · rename_i act rest hact
    exact .inl ⟨act, rest, hact, h⟩
  · rename_i hact
    cases hh : s.host with
    | nil => simp [State.wait, hh] at h; exact .inr ⟨hact, rfl, h.symm⟩
    | cons a l => simp [State.wait, hh] at h

end Sys2Proof.Machine
end

