-- ==== Sys2Proof/Laws/Streaming.lean ====
section
/-! SUPPORT. The bytes a hash has absorbed, read off the registers: `H` is the chaining value of the whole
blocks, `BLK` below `IDX` the bytes after them.  `HashStart` begins with no bytes and `AbsorbRaw` adds one;
a byte string of whole blocks leaves its hash in `H`. -/

namespace Sys2Proof.Machine

/-- The registers hold the hash in progress of the bytes `p`, padding bytes included. -/
def Streams (s : State) (p : List Byte) : Prop :=
  s.idx.toNat = p.length % 64 ∧ s.h = hashBlocks p (p.length / 64) ∧
    ∀ i : Nat, ∀ hi : i < 64, i < p.length % 64 → s.blk[i] = p.getD (64 * (p.length / 64) + i) 0#8

theorem blockAt_append (p q : List Byte) (i : Nat) (hi : 64 * i + 64 ≤ p.length) :
    blockAt (p ++ q) i = blockAt p i := by
  unfold blockAt
  congr 1
  funext j
  have hj := j.isLt
  simp only [List.getD_eq_getElem?_getD]
  rw [List.getElem?_append_left (by omega)]

theorem hashBlocks_succ (p : List Byte) (n : Nat) :
    hashBlocks p (n + 1) = compress (hashBlocks p n) (blockAt p n) := by
  simp [hashBlocks, List.range_succ]

theorem hashBlocks_append (p q : List Byte) (n : Nat) (hn : 64 * n ≤ p.length) :
    hashBlocks (p ++ q) n = hashBlocks p n := by
  induction n with
  | zero => simp [hashBlocks]
  | succ n ih =>
    rw [hashBlocks_succ, hashBlocks_succ, ih (by omega), blockAt_append p q n (by omega)]

theorem streams_hashStart (s : State) : Streams s.hashStart [] := by
  refine ⟨rfl, by simp [hashBlocks], ?_⟩
  intro i hi h
  simp at h

theorem streams_setLen (s : State) (n : BitVec 61) (p : List Byte) :
    Streams (s.setLen n) p ↔ Streams s p := Iff.rfl

theorem streams_absorbRaw {s : State} {p : List Byte} (b : Byte) (h : Streams s p) :
    Streams (s.absorbRaw b) (p ++ [b]) := by
  obtain ⟨hidx, hh, hblk⟩ := h
  have hread : ∀ i : Nat, ∀ hi : i < 64, i ≤ p.length % 64 →
      (s.absorbRaw b).blk[i] = (p ++ [b]).getD (64 * (p.length / 64) + i) 0#8 := by
    intro i hi hle
    have hdm := Nat.div_add_mod p.length 64
    simp only [absorbRaw_blk, Vector.getElem_set, hidx, List.getD_eq_getElem?_getD]
    by_cases heq : p.length % 64 = i
    · subst heq
      rw [hdm]; simp
    · rw [if_neg heq, List.getElem?_append_left (by omega), hblk i hi (by omega)]
      simp
  have hdm := Nat.div_add_mod p.length 64
  by_cases h63 : s.idx = 63#6
  · have hmod : p.length % 64 = 63 := by rw [← hidx, h63]; rfl
    have hdiv : (p.length + 1) / 64 = p.length / 64 + 1 := by omega
    have hmod' : (p.length + 1) % 64 = 0 := by omega
    refine ⟨by simp [absorbRaw_full s b h63, hmod'], ?_, ?_⟩
    · have hb : (s.absorbRaw b).blk = blockAt (p ++ [b]) (p.length / 64) := by
        apply Vector.ext
        intro i hi
        rw [hread i hi (by omega)]
        simp [blockAt]
      have hb' : (s.storeByte b).blk = blockAt (p ++ [b]) (p.length / 64) := by
        rw [← hb, absorbRaw_blk]; rfl
      simp only [List.length_append, List.length_cons, List.length_nil, hdiv]
      rw [hashBlocks_succ, hashBlocks_append p [b] _ (by omega), ← hh, ← hb', absorbRaw_full s b h63]
      rfl
    · intro i hi hlt
      simp only [List.length_append, List.length_cons, List.length_nil, hmod'] at hlt
      omega
  · have hne : p.length % 64 ≠ 63 := fun hc =>
      h63 (BitVec.eq_of_toNat_eq (by rw [hidx, hc]; rfl))
    have hdiv : (p.length + 1) / 64 = p.length / 64 := by omega
    have hmod' : (p.length + 1) % 64 = p.length % 64 + 1 := by omega
    refine ⟨?_, ?_, ?_⟩
    · rw [absorbRaw_idx]; simp [hidx, hmod']
    · simp only [List.length_append, List.length_cons, List.length_nil, hdiv]
      rw [hashBlocks_append p [b] _ (by omega), ← hh, absorbRaw_open s b h63]
      rfl
    · intro i hi hlt
      simp only [List.length_append, List.length_cons, List.length_nil, hmod'] at hlt
      simp only [List.length_append, List.length_cons, List.length_nil, hdiv]
      exact hread i hi (by omega)

theorem streams_absorbRawAll {s : State} {p : List Byte} (bs : List Byte) (h : Streams s p) :
    Streams (s.absorbRawAll bs) (p ++ bs) := by
  induction bs generalizing s p with
  | nil => simpa using h
  | cons b bs ih => simpa using ih (streams_absorbRaw b h)

/-- A byte string of whole blocks leaves its hash in `H`. -/
theorem streams_h {s : State} {p : List Byte} (h : Streams s p) : s.h = hashBlocks p (p.length / 64) :=
  h.2.1

/-- `Finalize` of a state that has absorbed and counted `m` leaves the hash of the padded message. -/
theorem finalize_streams {s : State} {m : List Byte} (h : Streams s m) (hlen : s.len.toNat = m.length) :
    Streams s.finalize (m ++ pad m.length) := by
  have hbits : 8#64 * s.len.setWidth 64 = BitVec.ofNat 64 (8 * m.length) := by
    apply BitVec.eq_of_toNat_eq
    simp [BitVec.toNat_mul, hlen]
  have hz : (s.idx.toNat + 1 + padZeros m.length) % 64 = 56 := by
    rw [h.1]; unfold padZeros; omega
  rw [finalize_eq s (padZeros m.length) hz (by unfold padZeros; omega), hbits]
  exact streams_absorbRawAll _ h

/-- The digest after `Finalize` is the function `SHA1` of the bytes absorbed and counted. -/
theorem sha1_of_streams {s : State} {m : List Byte} (h : Streams s m) (hlen : s.len.toNat = m.length) :
    sha1 m = some s.finalize.digestBytes := by
  have hmax : m.length ≤ Config.maxBytes := by
    have := s.len.isLt
    unfold Config.maxBytes
    omega
  rw [sha1, if_pos hmax]
  simp only [State.digestBytes, streams_h (finalize_streams h hlen)]

/-! ### The pad block -/

theorem blockAt_xorPad (kb : Vector Byte 64) (x : Byte) :
    blockAt (xorPad kb x) 0 = kb.map (· ^^^ x) := by
  apply Vector.ext
  intro i hi
  simp [blockAt, xorPad]

theorem hashBlocks_one (p : List Byte) : hashBlocks p 1 = compress iv (blockAt p 0) := by
  rw [show (1 : Nat) = 0 + 1 from rfl, hashBlocks_succ]
  simp [hashBlocks]

/-- A hash begun with a pad block has compressed it (42_hmac_commands.md R95, R97). -/
theorem padBlock_h (s : State) (x : Byte) :
    (s.hashStart.absorbRawAll (xorPad s.kblk x)).h = compress iv (s.kblk.map (· ^^^ x)) := by
  have hs := streams_absorbRawAll (xorPad s.kblk x) (streams_hashStart s)
  rw [List.nil_append] at hs
  rw [streams_h hs, length_xorPad, show 64 / 64 = 1 from rfl, hashBlocks_one, blockAt_xorPad]

theorem padBlock_idx (s : State) (x : Byte) :
    (s.hashStart.absorbRawAll (xorPad s.kblk x)).idx = 0#6 := by
  apply BitVec.eq_of_toNat_eq
  simp [absorbRawAll_idx]

end Sys2Proof.Machine
end

