-- ==== Sys2Proof/Laws/Commands.lean ====
section
/-! SUPPORT. What `exec` answers, command by command, in terms of the shared operations; what holds of every
command; and how runs compose. -/

namespace Sys2Proof.Machine

/-! ### Each command -/

theorem gated_legal (s : State) (body : Except Cause State) :
    s.gated .legal body = .next (s.settle body) := rfl

theorem gated_badPhase (s : State) (body : Except Cause State) :
    s.gated .badPhase body = .next (s.raise .badPhase) := rfl

theorem gated_ignored (s : State) (body : Except Cause State) : s.gated .ignored body = .next s := rfl

theorem exec_nop (s : State) : exec .nop s = .next s := by
  cases h : s.phase <;> simp [exec, execNop, legality, legalityRow, State.gated, State.settle, h]

theorem exec_rdStatus (s : State) : exec .rdStatus s = .next (s.respond s.status) := by
  cases h : s.phase <;> simp [exec, execRdStatus, legality, legalityRow, State.gated, State.settle, h]

theorem exec_reset (s : State) : exec .reset s = .next s.clearError := by
  cases h : s.phase <;> simp [exec, execReset, legality, legalityRow, State.gated, State.settle, h]

theorem exec_shaInit (s : State) (h : s.phase ≠ .error) :
    exec .shaInit s = .next (s.hashStart.setPhase .shaMsg) := by
  cases hp : s.phase <;>
    simp_all [exec, execShaInit, legality, legalityRow, State.gated, State.settle]

theorem exec_hmacInit (s : State) (h : s.phase ≠ .error) :
    exec .hmacInit s = .next (s.clearKey.hashStart.setPhase .hmacKey) := by
  cases hp : s.phase <;>
    simp_all [exec, execHmacInit, legality, legalityRow, State.gated, State.settle]

theorem exec_msgByte (s : State) (b : BitVec 8) (h : s.phase = .shaMsg ∨ s.phase = .hmacMsg) :
    exec (.msgByte b) s = .next (s.settle (s.absorb b)) := by
  rcases h with h | h <;> simp [exec, execMsgByte, legality, legalityRow, State.gated, h]

theorem exec_keyByte (s : State) (b : BitVec 8) (h : s.phase = .hmacKey) :
    exec (.keyByte b) s = .next (s.settle ((s.storeKeyByte b).absorb b)) := by
  simp [exec, execKeyByte, legality, legalityRow, State.gated, h]

theorem exec_keyEnd (s : State) (h : s.phase = .hmacKey) :
    exec .keyEnd s = .next (((s.settleKey.hashStart.absorbRawAll
      (xorPad s.settleKey.kblk Config.ipadByte)).setLen 64#61).setPhase .hmacMsg) := by
  simp only [exec, execKeyEnd, legality, legalityRow, State.gated, h, startPadded_ok, State.settle]

theorem exec_final_sha (s : State) (h : s.phase = .shaMsg) :
    exec .final s = .next (s.finalize.setPhase .done) := by
  simp [exec, execFinal, legality, legalityRow, State.gated, h, State.finish, State.settle]

theorem exec_final_hmac (s t : State) (h : s.phase = .hmacMsg) (ht : s.hmacFinish = .ok t) :
    exec .final s = .next (t.setPhase .done) := by
  simp [exec, execFinal, State.finish, legality, legalityRow, State.gated, h, ht, State.settle]

theorem digestWord_some (s : State) (idx : BitVec 3) (hidx : idx.toNat < 5) :
    s.digestWord? idx = some s.h[idx.toNat] := by
  simp [State.digestWord?, hidx]

theorem digestWord_none (s : State) (idx : BitVec 3) (hidx : 5 ≤ idx.toNat) :
    s.digestWord? idx = none := by
  simp [State.digestWord?, hidx]

theorem exec_rdDigest_bad (s : State) (idx : BitVec 3) (hidx : 5 ≤ idx.toNat) :
    exec (.rdDigest idx) s = .next s.illegalWord := by
  simp [exec, execRdDigest, digestWord_none s idx hidx]

theorem exec_rdDigest (s : State) (idx : BitVec 3) (hidx : idx.toNat < 5) :
    exec (.rdDigest idx) s = .next
      (match legality (.rdDigest idx) s.phase with
        | .legal => s.respond s.h[idx.toNat]
        | .badPhase => (s.raise .badPhase).respond 0#32
        | .ignored => s.respond 0#32) := by
  simp only [exec, execRdDigest, digestWord_some s idx hidx]
  cases legality (.rdDigest idx) s.phase <;> rfl

/-- A command marked B raises `BAD_PHASE` (60_exceptions.md R118); `RD_DIGEST` also responds, so it is not
here. -/
theorem exec_badPhase (i : Instr) (s : State) (h : legality i s.phase = .badPhase)
    (hi : ∀ idx, i ≠ .rdDigest idx) : exec i s = .next (s.raise .badPhase) := by
  cases i with
  | rdDigest idx => exact absurd rfl (hi idx)
  | nop => cases hp : s.phase <;> simp [hp, legality, legalityRow] at h
  | rdStatus => cases hp : s.phase <;> simp [hp, legality, legalityRow] at h
  | reset => cases hp : s.phase <;> simp [hp, legality, legalityRow] at h
  | shaInit => simp only [exec, execShaInit, h, State.gated]
  | hmacInit => simp only [exec, execHmacInit, h, State.gated]
  | keyEnd => simp only [exec, execKeyEnd, h, State.gated]
  | msgByte b => simp only [exec, execMsgByte, h, State.gated]
  | keyByte b => simp only [exec, execKeyByte, h, State.gated]
  | final => simp only [exec, execFinal, h, State.gated]

/-- A command marked – is ignored (60_exceptions.md R123). -/
theorem exec_ignored (i : Instr) (s : State) (h : legality i s.phase = .ignored)
    (hi : ∀ idx, i ≠ .rdDigest idx) : exec i s = .next s := by
  cases i with
  | rdDigest idx => exact absurd rfl (hi idx)
  | nop => exact exec_nop s
  | rdStatus => cases hp : s.phase <;> simp [hp, legality, legalityRow] at h
  | reset => cases hp : s.phase <;> simp [hp, legality, legalityRow] at h
  | shaInit => simp only [exec, execShaInit, h, State.gated]
  | hmacInit => simp only [exec, execHmacInit, h, State.gated]
  | keyEnd => simp only [exec, execKeyEnd, h, State.gated]
  | msgByte b => simp only [exec, execMsgByte, h, State.gated]
  | keyByte b => simp only [exec, execKeyByte, h, State.gated]
  | final => simp only [exec, execFinal, h, State.gated]

/-- What `Absorb` of one byte settles to. -/
theorem settle_absorb (s : State) (u : State) (b : Byte) :
    s.settle (u.absorb b) =
      if u.len.toNat = Config.maxBytes then s.raise .lenOverflow
      else (u.absorbRaw b).setLen (u.len + 1#61) := by
  split
  · rename_i h; rw [absorb_full u b h]; rfl
  · rename_i h; rw [absorb_ok u b h]; rfl

/-! ### All commands -/

/-- No command stops the machine. -/
theorem exec_next (i : Instr) (s : State) : ∃ t, exec i s = .next t := by
  cases i with
  | rdDigest idx =>
    by_cases hidx : idx.toNat < 5
    · exact ⟨_, exec_rdDigest s idx hidx⟩
    · exact ⟨_, exec_rdDigest_bad s idx (by omega)⟩
  | nop => exact gated_next _ _ _
  | rdStatus => exact gated_next _ _ _
  | reset => exact gated_next _ _ _
  | shaInit => exact gated_next _ _ _
  | hmacInit => exact gated_next _ _ _
  | keyEnd => exact gated_next _ _ _
  | msgByte b => exact gated_next _ _ _
  | keyByte b => exact gated_next _ _ _
  | final => exact gated_next _ _ _

/-- What a command can do, case by case, with the conditions under which it does it: in `ERROR` or as `NOP`
nothing; an error entry; a response; or its body in a legal phase. -/
inductive Did (s : State) : Instr → State → Prop
  | nop : Did s .nop s
  | ignored {i : Instr} : s.phase = .error → legality i s.phase = .ignored → Did s i s
  | badPhase {i : Instr} : s.phase ≠ .error → legality i s.phase = .badPhase →
      (∀ idx, i ≠ .rdDigest idx) → Did s i (s.raise .badPhase)
  | msgFull {b : BitVec 8} : (s.phase = .shaMsg ∨ s.phase = .hmacMsg) →
      s.len.toNat = Config.maxBytes → Did s (.msgByte b) (s.raise .lenOverflow)
  | keyFull {b : BitVec 8} : s.phase = .hmacKey →
      s.len.toNat = Config.maxBytes → Did s (.keyByte b) (s.raise .lenOverflow)
  | noSuchWord {idx : BitVec 3} : 5 ≤ idx.toNat → s.phase ≠ .error →
      Did s (.rdDigest idx) (s.raise .illegalCmd)
  | digest {idx : BitVec 3} (hidx : idx.toNat < 5) : s.phase = .done →
      Did s (.rdDigest idx) (s.respond s.h[idx.toNat])
  | digestEarly {idx : BitVec 3} : idx.toNat < 5 → s.phase ≠ .done → s.phase ≠ .error →
      Did s (.rdDigest idx) ((s.raise .badPhase).respond 0#32)
  | digestInError {idx : BitVec 3} : idx.toNat < 5 → s.phase = .error →
      Did s (.rdDigest idx) (s.respond 0#32)
  | status : Did s .rdStatus (s.respond s.status)
  | cleared : Did s .reset s.clearError
  | shaInit : s.phase ≠ .error → Did s .shaInit (s.hashStart.setPhase .shaMsg)
  | hmacInit : s.phase ≠ .error → Did s .hmacInit (s.clearKey.hashStart.setPhase .hmacKey)
  | msgByte {b : BitVec 8} : (s.phase = .shaMsg ∨ s.phase = .hmacMsg) →
      s.len.toNat ≠ Config.maxBytes →
      Did s (.msgByte b) ((s.absorbRaw b).setLen (s.len + 1#61))
  | keyByte {b : BitVec 8} : s.phase = .hmacKey → s.len.toNat ≠ Config.maxBytes →
      Did s (.keyByte b) (((s.storeKeyByte b).absorbRaw b).setLen (s.len + 1#61))
  | keyEnd : s.phase = .hmacKey → Did s .keyEnd
      (((s.settleKey.hashStart.absorbRawAll
        (xorPad s.settleKey.kblk Config.ipadByte)).setLen 64#61).setPhase .hmacMsg)
  | finalSha : s.phase = .shaMsg → Did s .final (s.finalize.setPhase .done)
  | finalHmac {t : State} : s.phase = .hmacMsg → s.hmacFinish = .ok t →
      Did s .final (t.setPhase .done)

theorem exec_badPhase_did (i : Instr) (s t : State) (h : exec i s = .next t)
    (hl : legality i s.phase = .badPhase) (hi : ∀ idx, i ≠ .rdDigest idx) (he : s.phase ≠ .error) :
    Did s i t := by
  rw [exec_badPhase i s hl hi] at h
  cases h
  exact .badPhase he hl hi

theorem exec_ignored_did (i : Instr) (s t : State) (h : exec i s = .next t)
    (hl : legality i s.phase = .ignored) (hi : ∀ idx, i ≠ .rdDigest idx) (he : s.phase = .error) :
    Did s i t := by
  rw [exec_ignored i s hl hi] at h
  cases h
  exact .ignored he hl

/-- The inversion lemma of `exec`: whatever a command answers, one of the cases of `Did` holds. -/
theorem exec_did {i : Instr} {s t : State} (h : exec i s = .next t) : Did s i t := by
  cases i with
  | nop => rw [exec_nop] at h; cases h; exact .nop
  | rdStatus => rw [exec_rdStatus] at h; cases h; exact .status
  | reset => rw [exec_reset] at h; cases h; exact .cleared
  | shaInit =>
    by_cases he : s.phase = .error
    · exact exec_ignored_did _ _ _ h (by simp [he, legality, legalityRow]) (by simp) he
    · rw [exec_shaInit s he] at h; cases h; exact .shaInit he
  | hmacInit =>
    by_cases he : s.phase = .error
    · exact exec_ignored_did _ _ _ h (by simp [he, legality, legalityRow]) (by simp) he
    · rw [exec_hmacInit s he] at h; cases h; exact .hmacInit he
  | rdDigest idx =>
    by_cases hidx : idx.toNat < 5
    · rw [exec_rdDigest s idx hidx] at h
      cases h
      cases hp : s.phase <;> simp only [legality, legalityRow]
      case done => exact .digest hidx hp
      case error => exact .digestInError hidx hp
      all_goals exact .digestEarly hidx (by simp [hp]) (by simp [hp])
    · rw [exec_rdDigest_bad s idx (by omega)] at h
      cases h
      unfold State.illegalWord
      split
      · exact .ignored ‹_› (by simp_all [legality, legalityRow])
      · exact .noSuchWord (by omega) ‹_›
  | msgByte b =>
    cases hp : s.phase
    case error => exact exec_ignored_did _ _ _ h (by simp [hp, legality, legalityRow]) (by simp) hp
    case shaMsg =>
      rw [exec_msgByte s b (.inl hp), settle_absorb] at h; cases h
      split
      · exact .msgFull (.inl hp) ‹_›
      · exact .msgByte (.inl hp) ‹_›
    case hmacMsg =>
      rw [exec_msgByte s b (.inr hp), settle_absorb] at h; cases h
      split
      · exact .msgFull (.inr hp) ‹_›
      · exact .msgByte (.inr hp) ‹_›
    all_goals exact exec_badPhase_did _ _ _ h (by simp [hp, legality, legalityRow]) (by simp) (by simp [hp])
  | keyByte b =>
    cases hp : s.phase
    case error => exact exec_ignored_did _ _ _ h (by simp [hp, legality, legalityRow]) (by simp) hp
    case hmacKey =>
      rw [exec_keyByte s b hp, settle_absorb] at h; cases h
      simp only [storeKeyByte_len]
      split
      · exact .keyFull hp ‹_›
      · exact .keyByte hp ‹_›
    all_goals exact exec_badPhase_did _ _ _ h (by simp [hp, legality, legalityRow]) (by simp) (by simp [hp])
  | keyEnd =>
    cases hp : s.phase
    case error => exact exec_ignored_did _ _ _ h (by simp [hp, legality, legalityRow]) (by simp) hp
    case hmacKey =>
      rw [exec_keyEnd s hp] at h
      rw [← Host.Outcome.next.inj h]
      exact .keyEnd hp
    all_goals exact exec_badPhase_did _ _ _ h (by simp [hp, legality, legalityRow]) (by simp) (by simp [hp])
  | final =>
    cases hp : s.phase
    case error => exact exec_ignored_did _ _ _ h (by simp [hp, legality, legalityRow]) (by simp) hp
    case shaMsg =>
      rw [exec_final_sha s hp] at h
      rw [← Host.Outcome.next.inj h]
      exact .finalSha hp
    case hmacMsg =>
      obtain ⟨u, hu⟩ := hmacFinish_isOk s
      rw [exec_final_hmac s u hp hu] at h
      rw [← Host.Outcome.next.inj h]
      exact .finalHmac hp hu
    all_goals exact exec_badPhase_did _ _ _ h (by simp [hp, legality, legalityRow]) (by simp) (by simp [hp])

/-! ### Accepting a word -/

theorem accept_command {w : CmdWord} {i : Instr} (s : State) (h : decode w = .command i) :
    s.accept w = exec i s := by
  simp [State.accept, h]

theorem accept_illegal {w : CmdWord} {why : Illegal} (s : State) (h : decode w = .illegal why) :
    s.accept w = .next s.illegalWord := by
  simp [State.accept, h]

/-! ### Runs -/

@[simp] theorem run_zero (s : State) : run 0 s = .next s := rfl

/-- A run goes by its first step. -/
theorem run_succ_eq (n : Nat) (s : State) : run (n + 1) s =
    match step s with
    | .next s' => run n s'
    | .fault r => .fault r
    | .refused r => .refused r := by
  have hs : Sys2Proof.core.step s = step s := rfl
  simp only [run, Host.Core.run, hs]
  cases step s <;> rfl

theorem run_succ (n : Nat) {s t : State} (h : step s = .next t) : run (n + 1) s = run n t := by
  rw [run_succ_eq, h]

/-- Runs compose. -/
theorem run_add {m : Nat} (n : Nat) {s t : State} (h : run m s = .next t) :
    run (m + n) s = run n t := by
  induction m generalizing s with
  | zero =>
    rw [run_zero] at h
    cases h
    rw [Nat.zero_add]
  | succ m ih =>
    rw [run_succ_eq] at h
    rw [show m + 1 + n = m + n + 1 by omega, run_succ_eq]
    cases hs : step s with
    | next u => rw [hs] at h; exact ih h
    | fault r => rw [hs] at h; cases h
    | refused r => rw [hs] at h; cases h

end Sys2Proof.Machine
end

