-- ==== Sys2Proof/Laws/Encoding.lean ====
section
/-! SUPPORT. How a command word is put together from its fields, and when each format decodes to a
command. -/

namespace Sys2Proof

/-- Format N: opcode and twelve bits (30_encoding.md R47). -/
theorem word_fieldsN (w : CmdWord) :
    (w.extractLsb' 12 4 ++ w.extractLsb' 0 12 : BitVec 16) = w := by
  apply BitVec.eq_of_getLsbD_eq
  intro i hi
  rw [BitVec.getLsbD_append]
  by_cases h : i < 12
  · simp [h]
  · simp [h]
    rw [show 12 + (i - 12) = i by omega]
    simp
    omega

/-- Format B: opcode, four bits, byte (R48). -/
theorem word_fieldsB (w : CmdWord) :
    (w.extractLsb' 12 4 ++ (w.extractLsb' 8 4 ++ w.extractLsb' 0 8) : BitVec 16) = w := by
  apply BitVec.eq_of_getLsbD_eq
  intro i hi
  rw [BitVec.getLsbD_append, BitVec.getLsbD_append]
  by_cases h8 : i < 8
  · simp [h8]
    omega
  · by_cases h12 : i < 12
    · simp [h8, h12]
      rw [show 8 + (i - 8) = i by omega]
      simp
      omega
    · simp [h12]
      rw [show 12 + (i - 12) = i by omega]
      simp
      omega

/-- Format I: opcode, nine bits, index (R49). -/
theorem word_fieldsI (w : CmdWord) :
    (w.extractLsb' 12 4 ++ (w.extractLsb' 3 9 ++ w.extractLsb' 0 3) : BitVec 16) = w := by
  apply BitVec.eq_of_getLsbD_eq
  intro i hi
  rw [BitVec.getLsbD_append, BitVec.getLsbD_append]
  by_cases h3 : i < 3
  · simp [h3]
    omega
  · by_cases h12 : i < 12
    · simp [h3, h12]
      rw [show 3 + (i - 3) = i by omega]
      simp
      omega
    · simp [h12]
      rw [show 12 + (i - 12) = i by omega]
      simp
      omega

theorem decodeN_command_iff (i j : Instr) (w : CmdWord) :
    decodeN j w = .command i ↔ i = j ∧ w.extractLsb' 0 12 = 0#12 := by
  unfold decodeN
  split <;> simp_all [eq_comm (a := i)]

theorem decodeB_command_iff (i : Instr) (f : BitVec 8 → Instr) (w : CmdWord) :
    decodeB f w = .command i ↔ i = f (imm8Field w) ∧ w.extractLsb' 8 4 = 0#4 := by
  unfold decodeB
  split <;> simp_all [eq_comm (a := i)]

theorem decodeI_command_iff (i : Instr) (f : BitVec 3 → Instr) (w : CmdWord) :
    decodeI f w = .command i ↔
      i = f (idxField w) ∧ w.extractLsb' 3 9 = 0#9 ∧ (idxField w).toNat ≤ 4 := by
  unfold decodeI
  split <;> [split; skip] <;> simp_all [eq_comm (a := i)]

end Sys2Proof
end

