-- ==== Sys2Proof/Laws/PerInstr.lean ====
section
/-! SUPPORT. Facts stated once for every command, as lemmas one per constructor: each command's word lies in
its own row of the opcode map (30_encoding.md R50). -/

namespace Sys2Proof.Laws.TableRow

/-- The `mask` column of R50. -/
def mask : Instr → CmdWord
  | .nop => 0xFFFF#16
  | .shaInit => 0xFFFF#16
  | .hmacInit => 0xFFFF#16
  | .keyEnd => 0xFFFF#16
  | .msgByte _ => 0xFF00#16
  | .keyByte _ => 0xFF00#16
  | .final => 0xFFFF#16
  | .rdDigest _ => 0xFFF8#16
  | .rdStatus => 0xFFFF#16
  | .reset => 0xFFFF#16

/-- The `match` column of R50. -/
def pattern : Instr → CmdWord
  | .nop => 0x0000#16
  | .shaInit => 0x1000#16
  | .hmacInit => 0x2000#16
  | .keyEnd => 0x3000#16
  | .msgByte _ => 0x4000#16
  | .keyByte _ => 0x5000#16
  | .final => 0x6000#16
  | .rdDigest _ => 0x7000#16
  | .rdStatus => 0x8000#16
  | .reset => 0xF000#16

/-- A command's word matches its row of R50. -/
def Statement (i : Instr) : Prop := encode i &&& mask i = pattern i

theorem nop : Statement .nop := rfl

theorem shaInit : Statement .shaInit := rfl

theorem hmacInit : Statement .hmacInit := rfl

theorem keyEnd : Statement .keyEnd := rfl

theorem byte_word (op : BitVec 16) (hop : op &&& 0xFF00#16 = op) (b : BitVec 8) :
    (op ||| b.setWidth 16) &&& 0xFF00#16 = op := by
  apply BitVec.eq_of_getLsbD_eq
  intro i hi
  have hbit := congrArg (fun v => v.getLsbD i) hop
  simp only [BitVec.getLsbD_and, BitVec.getLsbD_or, BitVec.getLsbD_setWidth] at hbit ⊢
  by_cases h8 : i < 8
  · have : (0xFF00#16).getLsbD i = false := by
      interval_cases i <;> rfl
    simp_all
  · have hb : b.getLsbD i = false := BitVec.getLsbD_of_ge _ _ (by omega)
    rw [hb]
    simpa using hbit

theorem msgByte (imm8 : BitVec 8) : Statement (.msgByte imm8) := byte_word 0x4000#16 rfl imm8

theorem keyByte (imm8 : BitVec 8) : Statement (.keyByte imm8) := byte_word 0x5000#16 rfl imm8

theorem final : Statement .final := rfl

theorem rdDigest (idx : BitVec 3) : Statement (.rdDigest idx) := by
  revert idx
  unfold Statement
  decide

theorem rdStatus : Statement .rdStatus := rfl

theorem reset : Statement .reset := rfl

end Sys2Proof.Laws.TableRow
end

