-- ==== Sys2Proof/Laws/Runs.lean ====
section
/-! SUPPORT. Steps act by act, and that no command reads what the host still does: the lemmas by which a run
is put together from the effects of its commands. -/

namespace Sys2Proof.Machine

/-! ### No operation reads the host's acts -/

theorem setLen_setHost (s : State) (acts : List HostAct) (n : BitVec 61) :
    (s.setHost acts).setLen n = (s.setLen n).setHost acts := rfl

theorem setPhase_setHost (s : State) (acts : List HostAct) (p : Phase) :
    (s.setHost acts).setPhase p = (s.setPhase p).setHost acts := rfl

theorem setKey_setHost (s : State) (acts : List HostAct) (kb : Vector Byte 64) :
    (s.setHost acts).setKey kb = (s.setKey kb).setHost acts := rfl

theorem hashStart_setHost (s : State) (acts : List HostAct) :
    (s.setHost acts).hashStart = s.hashStart.setHost acts := rfl

theorem clearKey_setHost (s : State) (acts : List HostAct) :
    (s.setHost acts).clearKey = s.clearKey.setHost acts := rfl

theorem digestBytes_setHost (s : State) (acts : List HostAct) :
    (s.setHost acts).digestBytes = s.digestBytes := rfl

theorem raise_setHost (s : State) (acts : List HostAct) (c : Cause) :
    (s.setHost acts).raise c = (s.raise c).setHost acts := rfl

theorem respond_setHost (s : State) (acts : List HostAct) (v : Word) :
    (s.setHost acts).respond v = (s.respond v).setHost acts := rfl

theorem absorbRaw_setHost (s : State) (acts : List HostAct) (b : Byte) :
    (s.setHost acts).absorbRaw b = (s.absorbRaw b).setHost acts := by
  by_cases hidx : s.idx = 63#6
  · rw [absorbRaw_full s b hidx, absorbRaw_full (s.setHost acts) b hidx]; rfl
  · rw [absorbRaw_open s b hidx, absorbRaw_open (s.setHost acts) b hidx]; rfl

theorem absorbRawAll_setHost (s : State) (acts : List HostAct) (bs : List Byte) :
    (s.setHost acts).absorbRawAll bs = (s.absorbRawAll bs).setHost acts := by
  induction bs generalizing s with
  | nil => rfl
  | cons b bs ih => simp [absorbRaw_setHost, ih]

theorem finalize_setHost (s : State) (acts : List HostAct) :
    (s.setHost acts).finalize = s.finalize.setHost acts := by
  obtain ⟨z, hz, hz64⟩ := exists_zeros s
  rw [finalize_eq s z hz hz64, finalize_eq (s.setHost acts) z hz hz64, absorbRawAll_setHost, setHost_len]

theorem settleKey_setHost (s : State) (acts : List HostAct) :
    (s.setHost acts).settleKey = s.settleKey.setHost acts := by
  by_cases hlen : 64 < s.len.toNat
  · rw [settleKey_long s hlen, settleKey_long (s.setHost acts) hlen, finalize_setHost,
      digestBytes_setHost, setKey_setHost]
  · rw [settleKey_short s (by omega), settleKey_short (s.setHost acts) (by simp; omega)]

theorem storeKeyByte_setHost (s : State) (acts : List HostAct) (b : Byte) :
    (s.setHost acts).storeKeyByte b = (s.storeKeyByte b).setHost acts := by
  by_cases hlt : s.len.toNat < 64
  · simp [State.storeKeyByte, hlt, State.setKey, State.setHost]
  · simp [State.storeKeyByte, hlt]

theorem hmacFinish_setHost {s t : State} (acts : List HostAct) (h : s.hmacFinish = .ok t) :
    (s.setHost acts).hmacFinish = .ok (t.setHost acts) := by
  rw [hmacFinish_ok] at h ⊢
  rw [← Except.ok.inj h, finalize_setHost, hashStart_setHost, digestBytes_setHost, setHost_kblk,
    absorbRawAll_setHost, setLen_setHost, finalize_setHost]

/-- A command does the same whatever the host still does. -/
theorem exec_setHost {i : Instr} {s t : State} (acts : List HostAct) (h : exec i s = .next t) :
    exec i (s.setHost acts) = .next (t.setHost acts) := by
  have hd := exec_did h
  cases hd with
  | nop => exact exec_nop _
  | ignored he hl =>
    cases i with
    | rdDigest idx =>
      by_cases hidx : idx.toNat < 5
      · rw [exec_rdDigest s idx hidx, hl] at h
        have hs : s.respond 0#32 = s := Host.Outcome.next.inj h
        rw [exec_rdDigest (s.setHost acts) idx hidx, setHost_phase, hl]
        change Host.Outcome.next ((s.respond 0#32).setHost acts) = _
        rw [hs]
      · rw [exec_rdDigest_bad _ idx (by omega)]
        simp [State.illegalWord, he]
    | nop => exact exec_nop _
    | rdStatus => exact absurd hl (by simp [he, legality, legalityRow])
    | reset => exact absurd hl (by simp [he, legality, legalityRow])
    | _ => exact exec_ignored _ (s.setHost acts) hl (by simp)
  | badPhase he hl hi => exact exec_badPhase _ (s.setHost acts) hl hi
  | msgFull hp hlen => rw [exec_msgByte (s.setHost acts) _ hp, settle_absorb, setHost_len, if_pos hlen, raise_setHost]
  | keyFull hp hlen =>
    rw [exec_keyByte (s.setHost acts) _ hp, settle_absorb, if_pos (by simpa using hlen), raise_setHost]
  | noSuchWord hidx he =>
    rw [exec_rdDigest_bad _ _ hidx, State.illegalWord, setHost_phase, if_neg he, raise_setHost]
  | digest hidx hp => rw [exec_rdDigest _ _ hidx, setHost_phase, hp]; rfl
  | digestEarly hidx hd he =>
    rw [exec_rdDigest _ _ hidx, setHost_phase]
    cases hp : s.phase
    case done => exact absurd hp hd
    case error => exact absurd hp he
    all_goals rfl
  | digestInError hidx hp => rw [exec_rdDigest _ _ hidx, setHost_phase, hp]; rfl
  | status => exact exec_rdStatus _
  | cleared => exact exec_reset _
  | shaInit he => exact exec_shaInit (s.setHost acts) he
  | hmacInit he => exact exec_hmacInit (s.setHost acts) he
  | msgByte hp hlen =>
    rw [exec_msgByte (s.setHost acts) _ hp, settle_absorb, setHost_len, if_neg hlen, absorbRaw_setHost,
      setLen_setHost]
  | keyByte hp hlen =>
    rw [exec_keyByte (s.setHost acts) _ hp, settle_absorb, if_neg (by simpa using hlen),
      storeKeyByte_setHost, absorbRaw_setHost, setLen_setHost, setHost_len, storeKeyByte_len]
  | keyEnd hp =>
    rw [exec_keyEnd (s.setHost acts) hp, settleKey_setHost, hashStart_setHost, setHost_kblk,
      absorbRawAll_setHost, setLen_setHost, setPhase_setHost]
  | finalSha hp => rw [exec_final_sha (s.setHost acts) hp, finalize_setHost, setPhase_setHost]
  | finalHmac hp hu =>
    rw [exec_final_hmac (s.setHost acts) _ hp (hmacFinish_setHost acts hu), setPhase_setHost]

/-- Accepting a word does the same whatever the host still does. -/
theorem accept_setHost {w : CmdWord} {s t : State} (acts : List HostAct) (h : s.accept w = .next t) :
    (s.setHost acts).accept w = .next (t.setHost acts) := by
  cases hd : decode w with
  | command i =>
    rw [accept_command _ hd] at h ⊢
    exact exec_setHost acts h
  | illegal why =>
    rw [accept_illegal _ hd] at h ⊢
    rw [← Host.Outcome.next.inj h]
    by_cases he : s.phase = .error
    · rw [State.illegalWord, State.illegalWord, if_pos he, if_pos (by exact he)]
    · rw [State.illegalWord, State.illegalWord, if_neg he, if_neg (by exact he), raise_setHost]

/-- Every accepted word answers a next state (70_reset_and_hazards.md R145). -/
theorem accept_next (s : State) (w : CmdWord) : ∃ t, s.accept w = .next t := by
  cases hd : decode w with
  | command i => rw [accept_command _ hd]; exact exec_next i s
  | illegal why => rw [accept_illegal _ hd]; exact ⟨_, rfl⟩

/-- A command leaves what the host has taken and still does (20_memory.md R31). -/
theorem exec_channels {i : Instr} {s t : State} (h : exec i s = .next t) :
    t.taken = s.taken ∧ t.host = s.host := by
  have h := exec_did h
  cases h with
  | finalHmac hp hu => obtain ⟨-, -, -, -, -, -, h1, h2⟩ := hmacFinish_frame hu; exact ⟨h1, h2⟩
  | _ => simp

theorem accept_channels {w : CmdWord} {s t : State} (h : s.accept w = .next t) :
    t.taken = s.taken ∧ t.host = s.host := by
  cases hd : decode w with
  | command i => rw [accept_command _ hd] at h; exact exec_channels h
  | illegal why =>
    rw [accept_illegal _ hd] at h
    rw [← Host.Outcome.next.inj h]
    unfold State.illegalWord
    split <;> simp

/-! ### Steps, act by act -/

/-- A take at the head of the host's acts is served at once. -/
theorem step_take {s : State} {rest : List HostAct} (hhost : s.host = .take :: rest) :
    step s = .next (s.setHost rest).takeResponse := by
  cases hr : s.rsp <;> simp [step, State.nextAct, hr, hhost, firstWithoutCommand, State.serve]

/-- A hard reset at the head of the host's acts is served at once. -/
theorem step_hardReset {s : State} {rest : List HostAct} (hhost : s.host = .hardReset :: rest) :
    step s = .next (s.setHost rest).hardReset := by
  cases hr : s.rsp <;> simp [step, State.nextAct, hr, hhost, firstWithoutCommand, State.serve]

/-- With no acts left the core waits. -/
theorem step_idle {s : State} (hhost : s.host = []) : step s = .next s := by
  cases hr : s.rsp <;> simp [step, State.nextAct, hr, hhost, firstWithoutCommand, State.wait]

theorem takeResponse_none {s : State} (h : s.rsp = none) : s.takeResponse = s := by
  simp [State.takeResponse, h]

theorem takeResponse_some {s : State} {v : Word} (h : s.rsp = some v) :
    s.takeResponse = { s with rsp := none, taken := s.taken ++ [v] } := by
  simp [State.takeResponse, h]

/-- What the look-ahead past offered commands finds: the first act that is no offer (log entry 4). -/
theorem firstWithoutCommand_some {acts rest : List HostAct} {act : HostAct}
    (h : firstWithoutCommand acts = some (act, rest)) :
    ∃ a b : List HostAct, (∀ x ∈ a, ∃ w, x = .offer w) ∧ acts = a ++ act :: b ∧ rest = a ++ b ∧
      (act = .take ∨ act = .hardReset) := by
  induction acts generalizing rest with
  | nil => simp [firstWithoutCommand] at h
  | cons x l ih =>
    cases x with
    | offer w =>
      simp only [firstWithoutCommand, Option.map_eq_some_iff] at h
      obtain ⟨⟨act', rest'⟩, h', heq⟩ := h
      cases heq
      obtain ⟨a, b, ha, rfl, rfl, hact⟩ := ih h'
      exact ⟨.offer w :: a, b, by simpa using ha, rfl, rfl, hact⟩
    | take => simp [firstWithoutCommand] at h; exact ⟨[], l, by simp, by simp [h.1], by simp [h.2], .inl h.1.symm⟩
    | hardReset => simp [firstWithoutCommand] at h; exact ⟨[], l, by simp, by simp [h.1], by simp [h.2], .inr h.1.symm⟩

/-- Behind offers, the first act that is no command is served, and the offers stay. -/
theorem firstWithoutCommand_append {a b : List HostAct} {act : HostAct} (ha : ∀ x ∈ a, ∃ w, x = .offer w)
    (hact : act = .take ∨ act = .hardReset) :
    firstWithoutCommand (a ++ act :: b) = some (act, a ++ b) := by
  induction a with
  | nil => rcases hact with rfl | rfl <;> rfl
  | cons x a ih =>
    obtain ⟨w, rfl⟩ := ha x (by simp)
    simp [firstWithoutCommand, ih fun x hx => ha x (by simp [hx])]

theorem firstWithoutCommand_none {acts : List HostAct} (h : firstWithoutCommand acts = none) :
    ∀ x ∈ acts, ∃ w, x = .offer w := by
  induction acts with
  | nil => simp
  | cons x l ih =>
    cases x with
    | offer w => simp [firstWithoutCommand] at h; simpa using ih h
    | take => simp [firstWithoutCommand] at h
    | hardReset => simp [firstWithoutCommand] at h

end Sys2Proof.Machine
end

