-- ==== Sys2Proof/Tests/Slice0.lean ====
section
/-! SUPPORT. Tests of the model's own, their expected values from 95_test_vectors.md and from the encoding
tables of 30_encoding.md, and a witness for the hypotheses of every statement that has some. -/

namespace Sys2Proof.Tests

open Sys2Proof Sys2Proof.Machine

/-! ### Helpers -/

/-- A small state: reset, in the given phase. -/
def inPhase (p : Phase) : State := State.reset.setPhase p

/-- A small state in `ERROR` with the given cause. -/
def inError (c : Cause) : State := State.reset.raise c

/-- `H` of a state, set. -/
def withH (s : State) (h : Vector Word 5) : State := { s with h := h }

/-- A state that has absorbed the bytes `bs` (fewer than 64) since the last whole block. -/
def absorbing (s : State) (bs : List Byte) : State :=
  { s with blk := keyBlockOf bs, idx := BitVec.ofNat 6 bs.length, len := BitVec.ofNat 61 bs.length }

/-- A state whose host does the given acts. -/
def withHost (s : State) (acts : List HostAct) : State := s.setHost acts

/-- A state with a response waiting. -/
def waiting (acts : List HostAct) : State := ((inPhase .done).respond 0x0000000C#32).setHost acts

/-- A state with `LEN` at its maximum. -/
def full (p : Phase) : State := (inPhase p).setLen (BitVec.ofNat 61 (2 ^ 61 - 1))

/-- The answer is a next state with the property. -/
def answers (r : Result) (p : State → Bool) : Bool :=
  match r with
  | .next s => p s
  | .fault _ => false
  | .refused _ => false

/-- The answer is a fault. -/
def faults (r : Result) : Bool :=
  match r with
  | .next _ => false
  | .fault _ => true
  | .refused _ => false

/-! ### Well-formedness (30_encoding.md R49, R54) -/

theorem test_wellFormed_refuses_5 : (Instr.rdDigest 5#3).wellFormed = false := by decide
theorem test_wellFormed_refuses_6 : (Instr.rdDigest 6#3).wellFormed = false := by decide
theorem test_wellFormed_refuses_7 : (Instr.rdDigest 7#3).wellFormed = false := by decide
theorem test_wellFormed_accepts : (Instr.rdDigest 4#3).wellFormed = true ∧
    (Instr.msgByte 0xFF#8).wellFormed = true := by decide

/-! ### Decoding, words written out from the encodings of R50 (95_test_vectors.md 6.1) -/

theorem test_decode_nop : decode 0b0000000000000000#16 = .command .nop := by decide
theorem test_decode_shaInit : decode 0b0001000000000000#16 = .command .shaInit := by decide
theorem test_decode_hmacInit : decode 0b0010000000000000#16 = .command .hmacInit := by decide
theorem test_decode_keyEnd : decode 0b0011000000000000#16 = .command .keyEnd := by decide
theorem test_decode_msgByte : decode 0b0100000001100001#16 = .command (.msgByte 0x61#8) := by decide
theorem test_decode_keyByte : decode 0b0101000010000000#16 = .command (.keyByte 0x80#8) := by decide
theorem test_decode_final : decode 0b0110000000000000#16 = .command .final := by decide
theorem test_decode_rdDigest : decode 0b0111000000000011#16 = .command (.rdDigest 3#3) := by decide
theorem test_decode_rdStatus : decode 0b1000000000000000#16 = .command .rdStatus := by decide
theorem test_decode_reset : decode 0b1111000000000000#16 = .command .reset := by decide

theorem test_decode_byte_edges : decode 0x4000#16 = .command (.msgByte 0x00#8) ∧
    decode 0x40FF#16 = .command (.msgByte 0xFF#8) ∧ decode 0x7004#16 = .command (.rdDigest 4#3) := by
  decide

theorem test_decode_reserved_bits :
    ([0x0001#16, 0x1001#16, 0x2800#16, 0x3010#16, 0x4100#16, 0x4F61#16, 0x5100#16, 0x6001#16,
      0x7008#16, 0x7010#16, 0x7804#16, 0x8001#16, 0xF00F#16, 0xFFFF#16].all
      fun w => decode w == .illegal .reservedBits) = true := by decide

theorem test_decode_index_out_of_range :
    ([0x7005#16, 0x7006#16, 0x7007#16].all
      fun w => decode w == .illegal .indexOutOfRange) = true := by decide

theorem test_decode_reserved_opcodes :
    ([0x9000#16, 0xA000#16, 0xB123#16, 0xC000#16, 0xD000#16, 0xE000#16, 0xEFFF#16].all
      fun w => decode w == .illegal .reservedOpcode) = true := by decide

theorem test_decodeTableWord : decodeTableWord 16 0x7004 = some (.rdDigest 4#3) ∧
    decodeTableWord 16 0x9000 = none ∧ decodeTableWord 8 0xFF61 = none ∧
    decodeTableWord 32 0x10000 = none := by decide

/-! ### Datapath (95_test_vectors.md 2.1, 2.2) -/

theorem test_rotl : rotl 0x80000000#32 1 = 0x00000001#32 ∧ rotl 0x00000001#32 31 = 0x80000000#32 ∧
    rotl 0x67452301#32 5 = 0xe8a4602c#32 ∧ rotl 0x12345678#32 4 = 0x23456781#32 := by decide

theorem test_round_functions :
    ch 0xaaaaaaaa#32 0x55555555#32 0xffffffff#32 = 0x55555555#32 ∧
    parity 0x0f0f0f0f#32 0x00ff00ff#32 0x0000ffff#32 = 0x0ff0f00f#32 ∧
    maj 0x0f0f0f0f#32 0x00ff00ff#32 0x0000ffff#32 = 0x000f0fff#32 := by decide

theorem test_band_edges : roundK 19 = 0x5a827999#32 ∧ roundK 20 = 0x6ed9eba1#32 ∧
    roundK 39 = 0x6ed9eba1#32 ∧ roundK 40 = 0x8f1bbcdc#32 ∧ roundK 59 = 0x8f1bbcdc#32 ∧
    roundK 60 = 0xca62c1d6#32 := by decide

/-- The block of `SHA1("abc")`. -/
def abcBlock : Vector Byte 64 := blockAt ([0x61#8, 0x62#8, 0x63#8] ++ pad 3) 0

theorem test_schedule_abc : (schedule abcBlock)[0] = 0x61626380#32 ∧
    (schedule abcBlock)[15] = 0x00000018#32 ∧ (schedule abcBlock)[16] = 0xc2c4c700#32 ∧
    (schedule abcBlock)[19] = 0x85898e01#32 ∧ (schedule abcBlock)[79] = 0x822e0879#32 := by
  decide +kernel

theorem test_round_0_abc : roundStep 0 0x61626380#32 (loadWorking iv) =
    ⟨0x0116fc33#32, 0x67452301#32, 0x7bf36ae2#32, 0x98badcfe#32, 0x10325476#32⟩ := by decide

theorem test_working_abc : workingAfter iv abcBlock =
    ⟨0x42541b35#32, 0x5738d5e1#32, 0x21834873#32, 0x681e6df6#32, 0xd8fdf6ad#32⟩ := by decide +kernel

/-- The length field and the fill bytes at the edge of a block (2.5). -/
theorem test_pad_edges : padZeros 55 = 0 ∧ padZeros 56 = 63 ∧ padZeros 64 = 55 ∧
    pad 55 = [0x80#8, 0#8, 0#8, 0#8, 0#8, 0#8, 0#8, 0x01#8, 0xb8#8] := by decide

/-! ### One step each (95_test_vectors.md 3.3, 4, 6.3) -/

theorem test_nop : answers (exec .nop (inPhase .done)) (fun t => t == inPhase .done) = true := by
  decide +kernel

theorem test_nop_in_error :
    answers (exec .nop (inError .badPhase)) (fun t => t.status == 0x57#32) = true := by decide

/-- 4.5: an HMAC is abandoned. -/
theorem test_shaInit : answers (exec .shaInit (absorbing (inPhase .hmacKey) [1#8, 2#8]))
    (fun t => t.phase == .shaMsg && t.len == 0#61 && t.idx == 0#6 && t.h.toList ==
      [0x67452301#32, 0xEFCDAB89#32, 0x98BADCFE#32, 0x10325476#32, 0xC3D2E1F0#32]) = true := by decide

theorem test_shaInit_in_error :
    answers (exec .shaInit (inError .badPhase)) (fun t => t.status == 0x57#32) = true := by decide

theorem test_msgByte : answers (exec (.msgByte 0x61#8) (inPhase .shaMsg))
    (fun t => t.blk[0] == 0x61#8 && t.len == 1#61 && t.idx == 1#6 && t.phase == .shaMsg) = true := by
  decide

/-- 4.9's error at the spec's own `MAX_BYTES`. -/
theorem test_msgByte_overflow : answers (exec (.msgByte 0x00#8) (full .hmacMsg))
    (fun t => t.status == 0x77#32 && t.len == (full .hmacMsg).len) = true := by decide

/-- 4.1: `FINAL` of "abc". -/
theorem test_final_sha :
    answers (exec .final (absorbing (withH (inPhase .shaMsg) iv) [0x61#8, 0x62#8, 0x63#8]))
      (fun t => t.status == 0x0000000C#32 && t.len == 3#61 && t.idx == 0#6 && t.h.toList ==
        [0xA9993E36#32, 0x4706816A#32, 0xBA3E2571#32, 0x7850C26C#32, 0x9CD0D89D#32]) = true := by
  decide +kernel

/-- 4.2: the state before `FINAL` of RFC 2202 case 1. -/
def rfcCase1 : State :=
  (((absorbing (withH (inPhase .hmacMsg)
      #v[0x064C662A#32, 0xCC6ED1B0#32, 0x6CFA9AB0#32, 0x042F137F#32, 0xCEA570EB#32])
    [0x48#8, 0x69#8, 0x20#8, 0x54#8, 0x68#8, 0x65#8, 0x72#8, 0x65#8]).setLen 72#61).setKey
      (keyBlockOf (List.replicate 20 0x0b#8)))

theorem test_final_hmac : answers (exec .final rfcCase1)
    (fun t => t.phase == .done && t.len == 84#61 && t.idx == 0#6 && t.h.toList ==
      [0xB6173186#32, 0x55057264#32, 0xE28BC0B6#32, 0xFB378C8E#32, 0xF146BE00#32]) = true := by
  decide +kernel

theorem test_hmacInit :
    answers (exec .hmacInit ((inPhase .done).setKey (Vector.replicate 64 0xAA#8)))
      (fun t => t.phase == .hmacKey && t.kblk.toList == List.replicate 64 0#8 && t.len == 0#61 &&
        t.h == iv) = true := by decide +kernel

/-- 3.3: the 64th key byte goes to `KBLK[63]` and completes a block. -/
theorem test_keyByte_64th :
    answers (exec (.keyByte 0x3f#8) (absorbing (withH (inPhase .hmacKey) iv)
        ((List.range 63).map (BitVec.ofNat 8))))
      (fun t => t.kblk[63] == 0x3f#8 && t.idx == 0#6 && t.len == 64#61 && t.h.toList ==
        [0xb9ac757b#32, 0xbc297925#32, 0x2e227274#32, 0x06872f94#32, 0xcbea56a1#32]) = true := by
  decide +kernel

/-- 3.3: the 65th goes to `BLK[0]` only. -/
theorem test_keyByte_65th :
    answers (exec (.keyByte 0x40#8) ((inPhase .hmacKey).setLen 64#61))
      (fun t => t.kblk.toList == List.replicate 64 0#8 && t.blk[0] == 0x40#8 && t.len == 65#61) = true := by
  decide +kernel

/-- 4.7: the empty key. -/
theorem test_keyEnd_empty : answers (exec .keyEnd (withH (inPhase .hmacKey) iv))
    (fun t => t.phase == .hmacMsg && t.len == 64#61 && t.idx == 0#6 && t.h.toList ==
      [0xC9F7BD57#32, 0x621BD73B#32, 0xEA0FEAD1#32, 0x41A5A132#32, 0x4E4F361D#32]) = true := by
  decide +kernel

/-- 3.3: a key of 65 bytes is replaced by its digest. -/
theorem test_keyEnd_long :
    answers (exec .keyEnd ((absorbing (withH (inPhase .hmacKey)
        #v[0xb9ac757b#32, 0xbc297925#32, 0x2e227274#32, 0x06872f94#32, 0xcbea56a1#32]) [0x40#8]).setLen 65#61))
      (fun t => t.phase == .hmacMsg && t.kblk.toList == [0x69#8, 0xbd#8, 0x72#8, 0x8a#8, 0xd6#8, 0xe1#8, 0x3c#8,
        0xd7#8, 0x6f#8, 0xf1#8, 0x97#8, 0x51#8, 0xfd#8, 0xe4#8, 0x27#8, 0xb0#8, 0x0e#8, 0x39#8, 0x57#8,
        0x46#8] ++ List.replicate 44 0#8) = true := by decide +kernel

theorem test_rdDigest : answers (exec (.rdDigest 4#3) (withH (inPhase .done) iv))
    (fun t => t.rsp == some 0xC3D2E1F0#32 && t.phase == .done) = true := by decide

theorem test_rdDigest_idle : answers (exec (.rdDigest 0#3) (inPhase .idle))
    (fun t => t.rsp == some 0#32 && t.status == 0x57#32) = true := by decide

theorem test_rdStatus : answers (exec .rdStatus (inPhase .done))
    (fun t => t.rsp == some 0x0000000C#32 && t.phase == .done) = true := by decide

theorem test_rdStatus_in_error : answers (exec .rdStatus (inError .illegalCmd))
    (fun t => t.rsp == some 0x00000037#32 && t.status == 0x37#32) = true := by decide

theorem test_reset : answers (exec .reset (inError .lenOverflow))
    (fun t => t.phase == .idle && t.errcode == .none) = true := by decide

theorem test_reset_keeps_datapath : answers (exec .reset (absorbing (withH (inPhase .shaMsg) iv) [0x61#8]))
    (fun t => t.h == iv && t.len == 1#61 && t.phase == .idle) = true := by decide +kernel

theorem test_illegal_word : answers ((inPhase .idle).accept 0x7005#16)
    (fun t => t.status == 0x37#32 && t.rsp == none) = true := by decide

theorem test_illegal_word_in_error : answers ((inError .badPhase).accept 0x9000#16)
    (fun t => t.status == 0x57#32) = true := by decide

theorem test_badPhase : ∀ q ∈ [(Phase.idle, 0x4061#16), (.idle, 0x3000#16), (.shaMsg, 0x5061#16),
      (.shaMsg, 0x3000#16), (.hmacKey, 0x6000#16), (.hmacKey, 0x400B#16), (.hmacMsg, 0x500B#16),
      (.done, 0x6000#16), (.done, 0x4061#16)],
    answers ((inPhase q.1).accept q.2) (fun t => t.status == 0x57#32 && t.rsp == none) = true := by
  decide +kernel

/-! ### Steps -/

theorem test_withFetchWord : answers (step (State.reset.withFetchWord 16 0x2000))
    (fun t => t.phase == .hmacKey && t.host == []) = true := by decide

theorem test_step_take : answers (step (waiting [.offer 0#16, .take, .hardReset]))
    (fun t => t.rsp == none && t.taken == [0x0000000C#32] && t.host == [.offer 0#16, .hardReset]) = true := by
  decide

theorem test_step_stuck : faults (step (waiting [.offer 0#16])) = true := by decide

/-! ### Assembler (95_test_vectors.md 4) -/

theorem test_asm_msgByte : assembleLine "MSG_BYTE 'a'      ; 4061".toList = some [.msgByte 0x61#8] := by decide
theorem test_asm_keyByte : assembleLine "KEY_BYTE 0x0B".toList = some [.keyByte 0x0B#8] := by decide
theorem test_asm_index : assembleLine "RD_DIGEST 4".toList = some [.rdDigest 4#3] ∧
    assembleLine "RD_DIGEST 5".toList = none := by decide
theorem test_asm_decimal : assembleLine "MSG_BYTE 255".toList = some [.msgByte 0xFF#8] ∧
    assembleLine "MSG_BYTE 256".toList = none := by decide
theorem test_asm_sha1 : assembleLine "SHA1 hex:61fF".toList =
    some [.shaInit, .msgByte 0x61#8, .msgByte 0xFF#8, .final] := by decide
theorem test_asm_hmac : assembleLine "HMAC hex:01, \"a\"".toList =
    some [.hmacInit, .keyByte 0x01#8, .keyEnd, .msgByte 0x61#8, .final] := by decide

/-! ### Witnesses: for every statement with hypotheses, states and operands that meet them, clause by clause
and at the ends of their ranges -/

theorem witness_DecodeEncodeAgree : (Instr.rdDigest 4#3).wellFormed = true ∧
    decode 0x7004#16 = .command (.rdDigest 4#3) := by decide

theorem witness_ReservedOpcodesAreIllegal :
    (9 ≤ ((0x9000#16).extractLsb' 12 4).toNat ∧ ((0x9000#16).extractLsb' 12 4).toNat ≤ 14) ∧
    (9 ≤ ((0xEFFF#16).extractLsb' 12 4).toNat ∧ ((0xEFFF#16).extractLsb' 12 4).toNat ≤ 14) ∧
    State.reset.phase ≠ .error := by decide

theorem witness_ReservedBitsAreIllegal :
    (((0x0001#16).extractLsb' 12 4).toNat ∈ [0x0, 0x1, 0x2, 0x3, 0x6, 0x8, 0xF] ∧
      (0x0001#16).extractLsb' 0 12 ≠ 0#12) ∧
    (((0xF800#16).extractLsb' 12 4).toNat ∈ [0x0, 0x1, 0x2, 0x3, 0x6, 0x8, 0xF] ∧
      (0xF800#16).extractLsb' 0 12 ≠ 0#12) ∧
    (((0x4100#16).extractLsb' 12 4).toNat ∈ [0x4, 0x5] ∧ (0x4100#16).extractLsb' 8 4 ≠ 0#4) ∧
    (((0x5800#16).extractLsb' 12 4).toNat ∈ [0x4, 0x5] ∧ (0x5800#16).extractLsb' 8 4 ≠ 0#4) ∧
    (((0x7008#16).extractLsb' 12 4).toNat = 0x7 ∧ (0x7008#16).extractLsb' 3 9 ≠ 0#9) := by decide

theorem witness_DigestIndexOutOfRangeIsIllegal : 5 ≤ (5#3).toNat ∧ 5 ≤ (7#3).toNat ∧
    (inPhase .idle).phase ≠ .error ∧ (inError .badPhase).phase = .error := by decide

theorem witness_RotationAndRoundFunctions : (1 ≤ 1 ∧ 1 ≤ 31 ∧ 0 < 32) ∧ (1 ≤ 31 ∧ 31 ≤ 31 ∧ 31 < 32) ∧
    (0 < 80 ∧ 0 ≤ 19) ∧ (19 < 80 ∧ 19 ≤ 19) ∧ (20 < 80 ∧ 20 ≤ 20 ∧ 20 ≤ 39) ∧ (39 < 80 ∧ 20 ≤ 39 ∧ 39 ≤ 39) ∧
    (40 < 80 ∧ 40 ≤ 40 ∧ 40 ≤ 59) ∧ (59 < 80 ∧ 40 ≤ 59 ∧ 59 ≤ 59) ∧ (60 < 80 ∧ 60 ≤ 60) ∧
    (79 < 80 ∧ 60 ≤ 79) := by decide

theorem witness_ScheduleLoadAndExpansion : 0 < 16 ∧ 15 < 16 ∧ (16 ≤ 16 ∧ 16 < 80) ∧ (16 ≤ 79 ∧ 79 < 80) := by
  decide

theorem witness_MicroStepsRefineCompress : 0 < 80 ∧ 79 < 80 := by decide

theorem witness_AbsorbCountsOrRejects : ((inPhase .shaMsg).setIdx 62#6).idx ≠ 63#6 ∧
    ((inPhase .shaMsg).setIdx 63#6).idx = 63#6 ∧ (full .shaMsg).len.toNat = 2 ^ 61 - 1 ∧
    (inPhase .shaMsg).len.toNat ≠ 2 ^ 61 - 1 ∧
    ((inPhase .shaMsg).setLen (BitVec.ofNat 61 (2 ^ 61 - 2))).len.toNat ≠ 2 ^ 61 - 1 := by decide

theorem witness_PaddingShape : 0 ≤ 2 ^ 61 - 1 ∧ 2 ^ 61 - 1 ≤ 2 ^ 61 - 1 := by decide

theorem witness_FinalizePadsWhatWasAbsorbed :
    (((inPhase .shaMsg).setLen 119#61).setIdx 55#6).idx.toNat =
      (((inPhase .shaMsg).setLen 119#61).setIdx 55#6).len.toNat % 64 ∧
    (((inPhase .shaMsg).setLen 56#61).setIdx 56#6).idx.toNat =
      (((inPhase .shaMsg).setLen 56#61).setIdx 56#6).len.toNat % 64 := by decide

theorem witness_StreamingEqualsSha1 : ([0x61#8] : List Byte).length ≤ 2 ^ 61 - 1 := by decide

theorem witness_DigestBytesBigEndian : (0 < 5 ∧ 0 < 4) ∧ (4 < 5 ∧ 3 < 4) := by decide

theorem witness_HashFunctionsDomain : (∃ d, sha1 [] = some d) ∧ ∃ d, hmac [] [] = some d :=
  ⟨Option.isSome_iff_exists.1 (by decide +kernel), Option.isSome_iff_exists.1 (by decide +kernel)⟩

theorem witness_ShaInitBeginsHash : (inPhase .done).phase ≠ .error ∧ (inError .illegalCmd).phase = .error ∧
    ∃ t, exec .shaInit (inPhase .done) = .next t := ⟨by decide, by decide, exec_next _ _⟩

theorem witness_MsgByteAbsorbs :
    ((inPhase .shaMsg).phase = .shaMsg ∧ (inPhase .shaMsg).len.toNat ≠ 2 ^ 61 - 1 ∧ (inPhase .shaMsg).idx ≠ 63#6) ∧
    (((inPhase .hmacMsg).setIdx 62#6).phase = .hmacMsg ∧
      ((inPhase .hmacMsg).setIdx 62#6).len.toNat ≠ 2 ^ 61 - 1 ∧ ((inPhase .hmacMsg).setIdx 62#6).idx ≠ 63#6) ∧
    (((inPhase .shaMsg).setIdx 63#6).phase = .shaMsg ∧
      ((inPhase .shaMsg).setIdx 63#6).len.toNat ≠ 2 ^ 61 - 1 ∧ ((inPhase .shaMsg).setIdx 63#6).idx = 63#6) ∧
    ((full .hmacMsg).phase = .hmacMsg ∧ (full .hmacMsg).len.toNat = 2 ^ 61 - 1) ∧
    (inPhase .idle).phase = .idle ∧ (inPhase .hmacKey).phase = .hmacKey ∧ (inPhase .done).phase = .done ∧
    (inError .badPhase).phase = .error := by decide

theorem witness_FinalMakesDigestAvailable : (inPhase .shaMsg).phase = .shaMsg ∧
    (inPhase .hmacMsg).phase = .hmacMsg ∧ (inPhase .idle).phase = .idle ∧ (inPhase .hmacKey).phase = .hmacKey ∧
    (inPhase .done).phase = .done ∧ (inError .badPhase).phase = .error ∧
    ([] : List Byte).length ≤ 2 ^ 61 - 1 ∧
    State.absorbAll [] (inPhase .shaMsg).hashStart = .ok (inPhase .shaMsg).hashStart ∧
    (inPhase .shaMsg).hashStart.phase = .shaMsg ∧ ∃ t, exec .final (inPhase .shaMsg).hashStart = .next t :=
  ⟨by decide, by decide, by decide, by decide, by decide, by decide, by decide, rfl, rfl, exec_next _ _⟩

theorem witness_HmacInitClearsKeyAndBeginsHash : (inPhase .idle).phase ≠ .error ∧
    (inError .badPhase).phase = .error := by decide

theorem witness_KeyByteStoresAndAbsorbs :
    ((inPhase .hmacKey).phase = .hmacKey ∧ (inPhase .hmacKey).len.toNat ≠ 2 ^ 61 - 1 ∧
      (inPhase .hmacKey).len.toNat < 64 ∧ (inPhase .hmacKey).idx ≠ 63#6) ∧
    ((((inPhase .hmacKey).setLen 63#61).setIdx 63#6).phase = .hmacKey ∧
      (((inPhase .hmacKey).setLen 63#61).setIdx 63#6).len.toNat ≠ 2 ^ 61 - 1 ∧
      (((inPhase .hmacKey).setLen 63#61).setIdx 63#6).len.toNat < 64 ∧
      (((inPhase .hmacKey).setLen 63#61).setIdx 63#6).idx = 63#6) ∧
    (((inPhase .hmacKey).setLen 64#61).phase = .hmacKey ∧
      ((inPhase .hmacKey).setLen 64#61).len.toNat ≠ 2 ^ 61 - 1 ∧
      64 ≤ ((inPhase .hmacKey).setLen 64#61).len.toNat) ∧
    ((full .hmacKey).phase = .hmacKey ∧ (full .hmacKey).len.toNat = 2 ^ 61 - 1) ∧
    (inPhase .idle).phase = .idle ∧ (inPhase .shaMsg).phase = .shaMsg ∧ (inPhase .hmacMsg).phase = .hmacMsg ∧
    (inPhase .done).phase = .done ∧ (inError .badPhase).phase = .error := by decide

theorem witness_KeyEndStartsInnerHash :
    (((inPhase .hmacKey).setLen 65#61).phase = .hmacKey ∧ 64 < ((inPhase .hmacKey).setLen 65#61).len.toNat) ∧
    (((inPhase .hmacKey).setLen 64#61).phase = .hmacKey ∧ ((inPhase .hmacKey).setLen 64#61).len.toNat ≤ 64) ∧
    19 < 20 ∧ ¬ 20 < 20 ∧ 63 < 64 ∧
    (inPhase .idle).phase = .idle ∧ (inPhase .shaMsg).phase = .shaMsg ∧ (inPhase .hmacMsg).phase = .hmacMsg ∧
    (inPhase .done).phase = .done ∧ (inError .badPhase).phase = .error := by decide

theorem witness_RdDigestResponds : (0#3).toNat < 5 ∧ (4#3).toNat < 5 ∧ 5 ≤ (5#3).toNat ∧ 5 ≤ (7#3).toNat ∧
    (inPhase .done).phase ≠ .error ∧ (inPhase .done).phase = .done ∧
    (inPhase .idle).phase = .idle ∧ (inPhase .shaMsg).phase = .shaMsg ∧ (inPhase .hmacKey).phase = .hmacKey ∧
    (inPhase .hmacMsg).phase = .hmacMsg ∧ (inError .badPhase).phase = .error := by decide

theorem witness_ResetCommandClears :
    (∃ t, exec .reset (inError .badPhase) = .next t ∧ (inError .badPhase).phase = .error ∧ t.phase ≠ .error) ∧
    (∃ t, exec .reset (inError .lenOverflow) = .next t ∧ (inError .lenOverflow).errcode ≠ .none ∧
      t.errcode = .none) :=
  ⟨⟨_, exec_reset _, by decide, by simp⟩, ⟨_, exec_reset _, by decide, rfl⟩⟩

/-- The invariants hold of reset, of every other phase with the registers of reset where they may, and of an
error state. -/
theorem inv_inPhase (p : Phase) (hp : p = .idle ∨ p = .shaMsg ∨ p = .hmacKey ∨ p = .done) : (inPhase p).Inv := by
  rcases hp with rfl | rfl | rfl | rfl <;> constructor <;> decide +kernel

theorem inv_inError (c : Cause) : (inError c).Inv := by cases c <;> constructor <;> decide +kernel

theorem inv_hmacMsg : ((inPhase .hmacMsg).setLen 64#61).Inv := by constructor <;> decide +kernel

theorem witness_StatusTakesEightValues : State.reset.Inv ∧ (inPhase .shaMsg).Inv ∧ (inPhase .hmacKey).Inv ∧
    ((inPhase .hmacMsg).setLen 64#61).Inv ∧ (inPhase .done).Inv ∧ (inError .illegalCmd).Inv ∧
    (inError .badPhase).Inv ∧ (inError .lenOverflow).Inv :=
  ⟨inv_inPhase .idle (by simp), inv_inPhase _ (by simp), inv_inPhase _ (by simp), inv_hmacMsg,
    inv_inPhase _ (by simp), inv_inError _, inv_inError _, inv_inError _⟩

theorem witness_IllegalWordsRaiseIllegalCmd : decode 0x9000#16 = .illegal .reservedOpcode ∧
    decode 0x0001#16 = .illegal .reservedBits ∧ decode 0x7007#16 = .illegal .indexOutOfRange ∧
    (inPhase .done).phase ≠ .error ∧ (inError .badPhase).phase = .error := by decide

theorem witness_BadPhaseExactlyWhereNotLegal :
    (Instr.rdDigest 4#3).wellFormed = true ∧ (inPhase .shaMsg).phase ≠ .error ∧
    (∃ t, exec (.rdDigest 4#3) (inPhase .shaMsg) = .next t) ∧ (∃ t, exec .keyEnd (inPhase .shaMsg) = .next t) ∧
    (∃ t, exec (.keyByte 0#8) (inPhase .hmacKey) = .next t) ∧
    (inError .badPhase).phase = .error ∧ Instr.final ≠ .reset ∧ ∃ t, exec .final (inError .badPhase) = .next t :=
  ⟨by decide, by decide, exec_next _ _, exec_next _ _, exec_next _ _, by decide, by decide, exec_next _ _⟩

theorem witness_LenOverflowExactlyAtMaximum : (full .shaMsg).phase ≠ .error ∧
    (∃ t, exec (.msgByte 0#8) (full .shaMsg) = .next t) ∧ (full .shaMsg).len.toNat = 2 ^ 61 - 1 ∧
    (∃ t, exec (.keyByte 0#8) (full .hmacKey) = .next t) ∧ (full .hmacKey).phase ≠ .error :=
  ⟨by decide, exec_next _ _, by decide, exec_next _ _, by decide⟩

theorem witness_ErrorsArePrecise :
    (Instr.rdDigest 0#3).wellFormed = true ∧ (inPhase .idle).phase ≠ .error ∧
    (∃ t, exec (.rdDigest 0#3) (inPhase .idle) = .next t ∧ t.phase = .error) ∧
    (∃ t, exec .final (inPhase .idle) = .next t ∧ t.phase = .error) ∧
    (∃ t, exec (.msgByte 0#8) (full .shaMsg) = .next t ∧ t.phase = .error) ∧
    decode 0xE000#16 = .illegal .reservedOpcode :=
  ⟨by decide, by decide, ⟨_, rfl, rfl⟩, ⟨_, rfl, rfl⟩, ⟨_, rfl, rfl⟩, by decide⟩

theorem witness_ErrorPhaseBehaviour : (inError .badPhase).phase = .error ∧ (4#3).toNat ≤ 4 ∧
    decode 0x7005#16 = .illegal .indexOutOfRange ∧ (inError .badPhase).errcode ≠ .none ∧
    answers (State.feed [0x1000#16, 0x8000#16] (inError .badPhase)) (fun t => t.phase == .error) = true := by
  decide

theorem witness_ErrorIsStickyOverRuns :
    (withHost (inError .badPhase) [.offer 0x1000#16, .take]).phase = .error ∧
    (∀ act ∈ (withHost (inError .badPhase) [.offer 0x1000#16, .take]).host,
      act ≠ .hardReset ∧ act ≠ .offer 0xF000#16) ∧
    run 2 (withHost (inError .badPhase) [.offer 0x1000#16, .take]) = .next (inError .badPhase) :=
  ⟨rfl, by simp [withHost], rfl⟩

theorem witness_NextPhaseTable : (Instr.keyByte 0#8).wellFormed = true ∧
    (∃ t, exec (.keyByte 0#8) (inPhase .hmacKey) = .next t) ∧ (∃ t, exec .keyEnd (inPhase .hmacKey) = .next t) ∧
    (∃ t, exec .final (inPhase .hmacMsg) = .next t) ∧ (∃ t, exec (.msgByte 0#8) (full .hmacMsg) = .next t) ∧
    (∃ t, exec .reset (inError .badPhase) = .next t) ∧
    (decode 0x9000#16 = .illegal .reservedOpcode ∧ (inPhase .done).phase ≠ .error ∧
      (inError .badPhase).phase = .error) ∧
    (∃ t, step (withHost (inPhase .idle) [.offer 0x1000#16]) = .next t ∧
      t.phase ≠ (withHost (inPhase .idle) [.offer 0x1000#16]).phase) ∧
    (∃ t, step (waiting [.offer 0x1000#16, .hardReset]) = .next t ∧
      t.phase ≠ (waiting [.offer 0x1000#16, .hardReset]).phase) :=
  ⟨by decide, exec_next _ _, exec_next _ _, exec_next _ _, exec_next _ _, exec_next _ _,
    ⟨by decide, by decide, by decide⟩, ⟨_, rfl, by decide⟩, ⟨_, rfl, by decide⟩⟩

theorem witness_WhoWritesKeyBlockAndErrcode :
    ((Instr.final ≠ .hmacInit ∧ Instr.final ≠ .keyEnd ∧ ∀ b, Instr.final ≠ .keyByte b) ∧
      ∃ t, exec .final (inPhase .hmacMsg) = .next t) ∧
    (∃ t, exec .final (inPhase .idle) = .next t ∧ t.errcode ≠ (inPhase .idle).errcode) ∧
    ∃ t, exec .reset (inError .badPhase) = .next t ∧ t.errcode ≠ (inError .badPhase).errcode :=
  ⟨⟨by simp, exec_next _ _⟩, ⟨_, rfl, by decide⟩, ⟨_, rfl, by decide⟩⟩

theorem witness_ExactlyReadsRespond : (Instr.rdDigest 4#3).wellFormed = true ∧
    (∃ t, exec (.rdDigest 4#3) (inPhase .idle) = .next t) ∧ (∃ t, exec .rdStatus (inPhase .idle) = .next t) ∧
    ∃ t, exec .keyEnd (inPhase .hmacKey) = .next t :=
  ⟨by decide, exec_next _ _, exec_next _ _, exec_next _ _⟩

theorem witness_ByteCommandsFrame :
    (∃ t, exec (.msgByte 1#8) (inPhase .shaMsg) = .next t ∧ t.phase ≠ .error) ∧
    (∃ t, exec (.keyByte 1#8) (inPhase .hmacKey) = .next t ∧ t.phase ≠ .error) ∧
    (inPhase .shaMsg).idx ≠ 63#6 ∧ 63 < 64 ∧ 63 ≠ (inPhase .shaMsg).idx.toNat :=
  ⟨⟨_, rfl, by decide⟩, ⟨_, rfl, by decide⟩, by decide, by decide, by decide⟩

theorem witness_HashCommandsFrame :
    (∃ t, exec .shaInit (inPhase .idle) = .next t ∧ t.phase ≠ .error) ∧
    (∃ t, exec .hmacInit (inPhase .done) = .next t ∧ t.phase ≠ .error) ∧
    (∃ t, exec .keyEnd (inPhase .hmacKey) = .next t ∧ t.phase ≠ .error) ∧
    ((inPhase .shaMsg).phase = .shaMsg ∧ ∃ t, exec .final (inPhase .shaMsg) = .next t ∧ t.phase ≠ .error) ∧
    ∃ t, exec .final (inPhase .hmacMsg) = .next t ∧ t.phase ≠ .error := by
  obtain ⟨u, hu⟩ := hmacFinish_isOk (inPhase .hmacMsg)
  exact ⟨⟨_, exec_shaInit _ (by decide), by simp⟩, ⟨_, exec_hmacInit _ (by decide), by simp⟩,
    ⟨_, exec_keyEnd _ rfl, by simp⟩, ⟨rfl, _, exec_final_sha _ rfl, by simp⟩,
    ⟨_, exec_final_hmac _ u rfl hu, by simp⟩⟩

theorem witness_StepKeepsInvariants :
    ((inPhase .hmacKey).setHost [.offer 0x3000#16]).Inv ∧
    ∃ t, step ((inPhase .hmacKey).setHost [.offer 0x3000#16]) = .next t :=
  ⟨⟨by decide, by decide, by decide, by decide +kernel, by decide⟩,
    by rw [step_offer rfl rfl]; exact accept_next _ _⟩

theorem witness_HiddenStateStaysHidden :
    State.Indistinguishable (inPhase .idle) (withH (inPhase .idle) iv) ∧
    State.Indistinguishable (absorbing (inPhase .shaMsg) [0x61#8])
      { absorbing (inPhase .shaMsg) [0x61#8] with kblk := Vector.replicate 64 0xFF#8 } :=
  ⟨⟨rfl, rfl, rfl, rfl, rfl, trivial⟩, ⟨rfl, rfl, rfl, rfl, rfl, rfl, rfl, rfl, fun _ _ => rfl⟩⟩

theorem witness_HardResetLooksLikeResetCommand : (inPhase .shaMsg).rsp = none := rfl

theorem witness_StepRunsDecodedCommand :
    (withHost (inPhase .idle) [.offer 0x1000#16, .take]).rsp = none ∧
    (withHost (inPhase .idle) [.offer 0x1000#16, .take]).host = .offer 0x1000#16 :: [.take] ∧
    decode 0x1000#16 = .command .shaInit ∧ decode 0x9000#16 = .illegal .reservedOpcode ∧
    (withHost (inPhase .idle) [.offer 0x9000#16]).host = .offer 0x9000#16 :: [] := by decide

theorem witness_HardResetIsServed :
    (withHost (inPhase .shaMsg) [.hardReset, .offer 0x4061#16]).host = .hardReset :: [.offer 0x4061#16] ∧
    (waiting [.hardReset, .take]).host = .hardReset :: [.take] ∧
    ((waiting [.offer 0x1000#16, .hardReset, .take]).rsp = some 0x0000000C#32 ∧
      (∀ act ∈ [HostAct.offer 0x1000#16], ∃ w, act = .offer w) ∧
      (waiting [.offer 0x1000#16, .hardReset, .take]).host = [.offer 0x1000#16] ++ .hardReset :: [.take]) :=
  ⟨rfl, rfl, rfl, by simp, rfl⟩

theorem witness_ResponseIsTakenBeforeNextCommand :
    ((waiting []).rsp = some 0x0000000C#32 ∧ ∃ t, step (waiting []) = .next t) ∧
    (∃ t, step (waiting [.offer 0#16, .take]) = .next t) ∧
    ∃ t, step (waiting [.offer 0#16, .hardReset, .take]) = .next t :=
  ⟨⟨rfl, _, rfl⟩, ⟨_, rfl⟩, ⟨_, rfl⟩⟩

theorem witness_RunIsFoldOverCommands :
    (withHost (inPhase .idle) [.offer 0x1000#16, .take, .offer 0x8000#16, .take, .hardReset]).rsp = none ∧
    (withHost (inPhase .idle) [.offer 0x1000#16, .take, .offer 0x8000#16, .take, .hardReset]).host =
      [0x1000#16, 0x8000#16].flatMap (fun w => [HostAct.offer w, .take]) ++ [.hardReset] := ⟨rfl, rfl⟩

theorem witness_Sha1EndToEnd :
    let s := withHost (inPhase .idle) (offers (sha1Program [0x61#8]) ++ readsAndTakes readDigestAll ++ [])
    ([0x61#8] : List Byte).length ≤ 2 ^ 61 - 1 ∧ s.phase ≠ .error ∧ s.rsp = none ∧
    s.host = offers (sha1Program [0x61#8]) ++ readsAndTakes readDigestAll ++ [] := by decide

theorem witness_HmacEndToEnd :
    let s := withHost (inPhase .done)
      (offers (hmacProgram [0x0b#8] [0x61#8]) ++ readsAndTakes readDigestAll ++ [.take])
    ([0x0b#8] : List Byte).length ≤ 2 ^ 61 - 1 ∧ ([0x61#8] : List Byte).length ≤ 2 ^ 61 - 1 - 64 ∧
    s.phase ≠ .error ∧ s.rsp = none ∧
    s.host = offers (hmacProgram [0x0b#8] [0x61#8]) ++ readsAndTakes readDigestAll ++ [.take] := by decide

theorem witness_FillersChangeNothing :
    let p := [([Filler.nop, .status], Instr.shaInit), ([], .msgByte 0x61#8), ([.status], .final)]
    let q := [([], Instr.hmacInit), ([Filler.status], .keyEnd), ([.nop], .final)]
    (inPhase .idle).phase ≠ .error ∧ (inPhase .idle).rsp = none ∧
    (withHost (inPhase .idle) (interleaved p ++ [])).host = interleaved p ++ [] ∧
    p.map Prod.snd = sha1Program [0x61#8] ∧ q.map Prod.snd = hmacProgram [] [] := by decide

theorem witness_DoneDigestIsOfTheBytesSent :
    (inPhase .idle).phase ≠ .error ∧
    (∀ i ∈ [Instr.msgByte 0x61#8, .rdStatus, .final], i.wellFormed = true ∧ continuesInvocation i = true) ∧
    answers (State.feed (programWords [.shaInit, .msgByte 0x61#8, .rdStatus, .final]) (inPhase .idle))
      (fun t => t.phase == .done) = true ∧
    (∀ i ∈ [Instr.keyEnd, .nop, .final], i.wellFormed = true ∧ continuesInvocation i = true) ∧
    answers (State.feed (programWords [.hmacInit, .keyEnd, .nop, .final]) (inPhase .idle))
      (fun t => t.phase == .done) = true := by
  refine ⟨by decide, by simp [Instr.wellFormed, continuesInvocation], by decide +kernel,
    by simp [Instr.wellFormed, continuesInvocation], by decide +kernel⟩

theorem witness_KeyBlockHoldsFirstKeyBytes : ([0x0b#8] : List Byte).length ≤ 2 ^ 61 - 1 ∧
    (inPhase .idle).phase ≠ .error ∧ 0 < 64 ∧ 63 < 64 := by decide

theorem witness_AssembledCommandsAreWellFormed :
    (LineEnd [] ∧ LineEnd "  ; 4061".toList) ∧
    (ByteText "0x00".toList 0x00#8 ∧ ByteText "0xfF".toList 0xFF#8 ∧ ByteText "0".toList 0x00#8 ∧
      ByteText "255".toList 0xFF#8 ∧ ByteText "' '".toList 0x20#8 ∧ ByteText "'~'".toList 0x7E#8) ∧
    (0 ≤ 4 ∧ 4 ≤ 4 ∧ 5 ≤ 5 ∧ 9 ≤ 9) ∧
    (BytesText "hex:".toList [] ∧ BytesText "hex:61fF".toList [0x61#8, 0xFF#8] ∧
      BytesText "\"\"".toList [] ∧ BytesText "\"a\"".toList [0x61#8]) ∧
    assembleLine "RD_DIGEST 4".toList = some [.rdDigest 4#3] ∧
    Instr.rdDigest 4#3 ∈ [Instr.rdDigest 4#3] :=
  ⟨⟨⟨0, [], by simp⟩, ⟨2, "; 4061".toList, rfl, .inr ⟨_, rfl⟩⟩⟩,
    ⟨.inl ⟨['0', '0'], by decide, rfl⟩, .inl ⟨['f', 'F'], by decide, rfl⟩, .inr (.inl (by decide)),
      .inr (.inl (by decide)), .inr (.inr ⟨' ', by decide, by decide, by decide, rfl⟩),
      .inr (.inr ⟨'~', by decide, by decide, by decide, rfl⟩)⟩,
    by decide,
    ⟨.inl ⟨[], rfl, rfl⟩, .inl ⟨['6', '1', 'f', 'F'], by decide, rfl⟩, .inr ⟨[], by simp, rfl, rfl⟩,
      .inr ⟨['a'], by simp, rfl, rfl⟩⟩,
    by decide, by decide⟩

end Sys2Proof.Tests
end

section
/-! SUPPORT. The refinement of a compression into micro-steps (00_scope.md R8, 10_state.md R13,
40_sha1_datapath.md R70), and the step that accepts an offered word (60_exceptions.md R120). -/

namespace Sys2Proof.Machine

/-! ### Rounds, one more at the end -/

/-- Rounds over a list of schedule words go by their last round. -/
theorem roundsFrom_take_succ (ws : List Word) (n t : Nat) (r : Working) (hn : n < ws.length) :
    roundsFrom (ws.take (n + 1)) t r =
      roundStep (t + n) (ws.getD n 0) (roundsFrom (ws.take n) t r) := by
  induction ws generalizing n t r with
  | nil => simp at hn
  | cons wt ws ih =>
    cases n with
    | zero => simp [roundsFrom]
    | succ n =>
      have hlast := ih n (t + 1) (roundStep t wt r) (by simpa using hn)
      simpa [roundsFrom, Nat.add_assoc, Nat.add_comm 1 n] using hlast

/-- Micro-rounds go by their last round. -/
theorem microRounds_succ (n : Nat) (s : State) :
    State.microRounds (n + 1) s = (State.microRounds n s).microRound := by
  induction n generalizing s with
  | zero => rfl
  | succ n ih => exact ih s.microRound

/-! ### The micro-steps of one compression -/

/-- `T` after `n` micro-rounds: it counts them, and stays at 79 (R13). -/
def roundIndex (n : Nat) : BitVec 7 := BitVec.ofNat 7 (min n 79)

theorem roundIndex_toNat (n : Nat) : (roundIndex n).toNat = min n 79 := by
  simp only [roundIndex, BitVec.toNat_ofNat]
  omega

/-- `roundIndex` counts as `State.microRound` does. -/
theorem roundIndex_succ (n : Nat) :
    (if roundIndex n = 79#7 then roundIndex n else roundIndex n + 1#7) = roundIndex (n + 1) := by
  have hn := roundIndex_toNat n
  apply BitVec.eq_of_toNat_eq
  split
  · next hlast =>
    rw [hlast, BitVec.toNat_ofNat] at hn
    rw [hlast, roundIndex_toNat, BitVec.toNat_ofNat]
    omega
  · next hmore =>
    rw [← BitVec.toNat_inj, hn, BitVec.toNat_ofNat] at hmore
    rw [BitVec.toNat_add, hn, roundIndex_toNat, BitVec.toNat_ofNat]
    omega

/-- The state after the load and the first `n` micro-rounds: the working registers have gone through the
first `n` rounds of R70, and nothing else differs from the loaded state but `T`. -/
theorem microRounds_microLoad (s : State) (n : Nat) (hn : n ≤ 80) :
    State.microRounds n s.microLoad = { s.microLoad with
      work := roundsFrom ((scheduleWords s.blk).take n) 0 (loadWorking s.h)
      t := roundIndex n } := by
  induction n with
  | zero => rfl
  | succ n ih =>
    have hround := roundsFrom_take_succ (scheduleWords s.blk) n 0 (loadWorking s.h)
      (by rw [length_scheduleWords]; omega)
    have hword : (schedule s.blk).getD n 0 = (scheduleWords s.blk).getD n 0 := by
      simp [schedule, Vector.getD]
    have hindex : (roundIndex n).toNat = n := by rw [roundIndex_toNat]; omega
    rw [microRounds_succ, ih (by omega), hround, ← hword, Nat.zero_add, ← roundIndex_succ]
    simp only [State.microRound, State.microLoad, hindex]

/-- The refined compression is the atomic one (R8, R70). -/
theorem microFold_microRounds (s : State) :
    (State.microRounds 80 s.microLoad).microFold = s.compress := by
  rw [microRounds_microLoad s 80 (Nat.le_refl 80),
    List.take_of_length_le (Nat.le_of_eq (length_scheduleWords s.blk))]
  rfl

/-- The free value `T` holds after a compression is within the bound of R13 (log entry 3). -/
theorem compress_t_le (s : State) : s.compress.t.toNat ≤ 79 := by
  have hfree := (Config.roundAfterFold s.freeDraws).isLt
  rw [State.compress, BitVec.toNat_ofNat]
  omega

/-- Settles O11: after `n` micro-rounds the working registers are those of the first `n` rounds and `T` is
`n`, by induction on `n`; at 80 the fold gives the atomic compression. -/
theorem microStepsRefineCompress : Obligations.MicroStepsRefineCompress := by
  intro s
  refine ⟨fun n hn => ?_, microFold_microRounds s, compress_t_le s⟩
  rw [microRounds_microLoad s n (by omega), roundIndex_toNat]
  omega

/-- Settles O50: with no response waiting the offered word is accepted, and accepting it goes by what the
word decodes to. -/
theorem stepRunsDecodedCommand : Obligations.StepRunsDecodedCommand := by
  intro s w rest hrsp hhost
  constructor
  · intro i hdecode
    exact (step_offer hrsp hhost).trans (accept_command _ hdecode)
  · intro why hdecode
    exact (step_offer hrsp hhost).trans (accept_illegal _ hdecode)

end Sys2Proof.Machine
end

section
/-! SUPPORT. The invariants of 10_state.md R25: what establishes them in each phase, and that no act of the
host breaks them. -/

namespace Sys2Proof.Machine

/-! ### What establishes the invariants -/

theorem inv_of_error {s : State} (hphase : s.phase = .error) (herr : s.errcode ≠ .none) : s.Inv := by
  constructor <;> simp [hphase, herr, Phase.absorbing]

theorem inv_of_idle {s : State} (hphase : s.phase = .idle) (herr : s.errcode = .none) : s.Inv := by
  constructor <;> simp [hphase, herr, Phase.absorbing]

theorem inv_of_done {s : State} (hphase : s.phase = .done) (herr : s.errcode = .none)
    (hidx : s.idx = 0#6) : s.Inv := by
  constructor <;> simp [hphase, herr, hidx, Phase.absorbing]

theorem inv_of_shaMsg {s : State} (hphase : s.phase = .shaMsg) (herr : s.errcode = .none)
    (hidx : s.idx.toNat = s.len.toNat % 64) : s.Inv := by
  constructor <;> simp [hphase, herr, hidx]

theorem inv_of_hmacKey {s : State} (hphase : s.phase = .hmacKey) (herr : s.errcode = .none)
    (hidx : s.idx.toNat = s.len.toNat % 64)
    (hkey : ∀ i : Fin 64, s.len.toNat ≤ i.val → s.kblk[i] = 0#8) : s.Inv := by
  constructor
  case key_tail_zero => exact fun _ => hkey
  all_goals simp [hphase, herr, hidx]

theorem inv_of_hmacMsg {s : State} (hphase : s.phase = .hmacMsg) (herr : s.errcode = .none)
    (hidx : s.idx.toNat = s.len.toNat % 64) (hlen : 64 ≤ s.len.toNat) : s.Inv := by
  constructor <;> simp [hphase, herr, hidx, hlen]

theorem State.Inv.errcode_none {s : State} (hs : s.Inv) (hphase : s.phase ≠ .error) :
    s.errcode = .none :=
  not_not.1 fun h => hphase (hs.errcode_iff.1 h)

/-! ### What reads none of the registers the invariants speak of -/

theorem inv_raise (s : State) (c : Cause) : (s.raise c).Inv :=
  inv_of_error rfl (by cases c <;> simp [Cause.errcode])

theorem inv_clearError (s : State) : s.clearError.Inv := inv_of_idle rfl rfl

theorem inv_hardReset (s : State) : s.hardReset.Inv := inv_of_idle rfl rfl

theorem inv_respond {s : State} (hs : s.Inv) (v : Word) : (s.respond v).Inv := { hs with }

theorem inv_setHost {s : State} (hs : s.Inv) (acts : List HostAct) : (s.setHost acts).Inv :=
  { hs with }

theorem inv_takeResponse {s : State} (hs : s.Inv) : s.takeResponse.Inv := by
  cases hr : s.rsp with
  | none => rwa [takeResponse_none hr]
  | some v => rw [takeResponse_some hr]; exact { hs with }

theorem inv_illegalWord {s : State} (hs : s.Inv) : s.illegalWord.Inv := by
  unfold State.illegalWord
  split
  · exact hs
  · exact inv_raise s _

/-! ### The commands -/

/-- `LEN` counts on below the bound of R72. -/
theorem toNat_len_add_one {s : State} (hlen : s.len.toNat ≠ Config.maxBytes) :
    (s.len + 1#61).toNat = s.len.toNat + 1 := by
  have hlt := s.len.isLt
  have hmax : Config.maxBytes = 2 ^ 61 - 1 := rfl
  simp [BitVec.toNat_add]
  omega

/-- A counted byte keeps `IDX = LEN mod 64`. -/
theorem absorbed_idx_eq {s u : State} (b : Byte) (hu : u.idx = s.idx)
    (hidx : s.idx.toNat = s.len.toNat % 64) (hlen : s.len.toNat ≠ Config.maxBytes) :
    (u.absorbRaw b).idx.toNat = (s.len + 1#61).toNat % 64 := by
  rw [absorbRaw_idx, hu, toNat_len_add_one hlen]
  omega

/-- `KEY_BYTE` writes the key block at `LEN` only, if there (R94). -/
theorem storeKeyByte_kblk (s : State) (b : Byte) (i : Nat) (hi : i < 64) :
    (s.storeKeyByte b).kblk[i] = if s.len.toNat = i then b else s.kblk[i] := by
  unfold State.storeKeyByte
  split
  · next hlt => exact Vector.getElem_set hlt hi
  · rw [if_neg (by omega)]

/-- Whatever a command does, it keeps the invariants. -/
theorem inv_did {i : Instr} {s t : State} (hs : s.Inv) (h : Did s i t) : t.Inv := by
  cases h with
  | nop | ignored => exact hs
  | badPhase | msgFull | keyFull | noSuchWord => exact inv_raise s _
  | digestEarly => exact inv_respond (inv_raise s _) _
  | digest | digestInError | status => exact inv_respond hs _
  | cleared => exact inv_clearError s
  | shaInit hp => exact inv_of_shaMsg rfl (hs.errcode_none hp) rfl
  | hmacInit hp => exact inv_of_hmacKey rfl (hs.errcode_none hp) rfl (by simp)
  | @msgByte b hp hlen =>
    have hidx (ha : s.phase.absorbing = true) :=
      absorbed_idx_eq (u := s) b rfl (hs.idx_eq ha) hlen
    rcases hp with hp | hp
    · exact inv_of_shaMsg (by simpa) (by simpa using hs.errcode_none (by simp [hp]))
        (hidx (by rw [hp]; rfl))
    · refine inv_of_hmacMsg (by simpa) (by simpa using hs.errcode_none (by simp [hp]))
        (hidx (by rw [hp]; rfl)) ?_
      have hpad := hs.pad_counted hp
      rw [setLen_len, toNat_len_add_one hlen]
      omega
  | @keyByte b hp hlen =>
    refine inv_of_hmacKey (by simpa) (by simpa using hs.errcode_none (by simp [hp]))
      (absorbed_idx_eq b (by simp) (hs.idx_eq (by rw [hp]; rfl)) hlen) ?_
    intro i hi
    rw [setLen_len, toNat_len_add_one hlen] at hi
    rw [setLen_kblk, absorbRaw_kblk, Fin.getElem_fin,
      storeKeyByte_kblk s b i i.isLt, if_neg (by omega)]
    exact hs.key_tail_zero hp i (by omega)
  | keyEnd hp =>
    exact inv_of_hmacMsg (by simp) (by simpa using hs.errcode_none (by simp [hp]))
      (by simp [padBlock_idx]) (by simp)
  | finalSha hp =>
    exact inv_of_done (by simp) (by simpa using hs.errcode_none (by simp [hp])) (by simp)
  | finalHmac hp hu =>
    obtain ⟨-, hidx, -, -, herr, -⟩ := hmacFinish_frame hu
    exact inv_of_done rfl (herr.trans (hs.errcode_none (by simp [hp]))) hidx

/-! ### Steps -/

theorem inv_accept {w : CmdWord} {s t : State} (hs : s.Inv) (h : s.accept w = .next t) : t.Inv := by
  cases hd : decode w with
  | command i => rw [accept_command _ hd] at h; exact inv_did hs (exec_did h)
  | illegal why =>
    rw [accept_illegal _ hd] at h
    exact Host.Outcome.next.inj h ▸ inv_illegalWord hs

theorem inv_serve {act : HostAct} {s t : State} (hs : s.Inv) (h : s.serve act = .next t) :
    t.Inv := by
  cases act with
  | offer w => exact inv_accept hs h
  | take => exact Host.Outcome.next.inj h ▸ inv_takeResponse hs
  | hardReset => exact Host.Outcome.next.inj h ▸ inv_hardReset s

/-- Settles O46: a step serves one act or waits, and every act keeps the invariants. -/
theorem stepKeepsInvariants : Obligations.StepKeepsInvariants := by
  intro s t hs h
  rcases step_cases h with ⟨act, rest, -, hserve⟩ | ⟨-, -, rfl⟩
  · exact inv_serve (inv_setHost hs rest) hserve
  · exact hs

/-- Settles O45: the core leaves hard reset idle and without an error. -/
theorem resetMeetsInvariants : Obligations.ResetMeetsInvariants := inv_of_idle rfl rfl

end Sys2Proof.Machine
end

section
/-! SUPPORT. What the host cannot see stays unseen (10_state.md R22, R26): the hash in progress is `H`, `LEN`,
`IDX` and `BLK` below `IDX`, every operation computes it from itself alone, and so do the responses. -/

namespace Sys2Proof.Machine

/-! ### The hash in progress -/

/-- The same hash in progress: what `sameHidden` asks of the hash registers in each absorbing phase. -/
structure SameHash (s1 s2 : State) : Prop where
  h_eq : s1.h = s2.h
  len_eq : s1.len = s2.len
  idx_eq : s1.idx = s2.idx
  blk_eq : ∀ i : Fin 64, i.val < s1.idx.toNat → s1.blk[i] = s2.blk[i]

theorem sameHash_hashStart (s1 s2 : State) : SameHash s1.hashStart s2.hashStart :=
  ⟨rfl, rfl, rfl, fun _ hi => absurd hi (Nat.not_lt_zero _)⟩

theorem SameHash.setLen {s1 s2 : State} (hs : SameHash s1 s2) (n : BitVec 61) :
    SameHash (s1.setLen n) (s2.setLen n) :=
  ⟨hs.h_eq, rfl, hs.idx_eq, hs.blk_eq⟩

theorem SameHash.setPhase {s1 s2 : State} (hs : SameHash s1 s2) (p : Phase) :
    SameHash (s1.setPhase p) (s2.setPhase p) :=
  ⟨hs.h_eq, hs.len_eq, hs.idx_eq, hs.blk_eq⟩

/-- A stored byte extends the agreement of the block buffers by one. -/
theorem SameHash.storeByte_blk_eq {s1 s2 : State} (hs : SameHash s1 s2) (b : Byte) (i : Nat)
    (hi : i < 64) (hle : i ≤ s1.idx.toNat) : (s1.storeByte b).blk[i] = (s2.storeByte b).blk[i] := by
  simp only [storeByte_blk, Vector.getElem_set, ← hs.idx_eq]
  split
  · rfl
  · exact hs.blk_eq ⟨i, hi⟩ (by dsimp only; omega)

/-- The byte that fills the block completes the agreement, so the compressions agree. -/
theorem SameHash.compress_h_eq {s1 s2 : State} (hs : SameHash s1 s2) (b : Byte)
    (h63 : s1.idx = 63#6) : (s1.storeByte b).compress.h = (s2.storeByte b).compress.h := by
  have hfull : s1.idx.toNat = 63 := by simp [h63]
  have hblk : (s1.storeByte b).blk = (s2.storeByte b).blk :=
    Vector.ext fun i hi => hs.storeByte_blk_eq b i hi (by omega)
  rw [compress_h, compress_h, hblk, storeByte_h, storeByte_h, hs.h_eq]

theorem SameHash.absorbRaw {s1 s2 : State} (hs : SameHash s1 s2) (b : Byte) :
    SameHash (s1.absorbRaw b) (s2.absorbRaw b) := by
  by_cases h63 : s1.idx = 63#6
  · rw [absorbRaw_full s1 b h63, absorbRaw_full s2 b (hs.idx_eq ▸ h63)]
    exact ⟨by simpa using hs.compress_h_eq b h63, by simpa using hs.len_eq, by simp, by simp⟩
  · rw [absorbRaw_open s1 b h63, absorbRaw_open s2 b (hs.idx_eq ▸ h63)]
    refine ⟨hs.h_eq, hs.len_eq, congrArg (· + 1#6) hs.idx_eq, fun i hi => ?_⟩
    have hsucc : (s1.idx + 1#6).toNat ≤ s1.idx.toNat + 1 := by
      rw [BitVec.toNat_add]; exact Nat.mod_le _ _
    rw [setIdx_idx] at hi
    exact hs.storeByte_blk_eq b i i.isLt (by omega)

theorem SameHash.absorbRawAll {s1 s2 : State} (hs : SameHash s1 s2) (bs : List Byte) :
    SameHash (s1.absorbRawAll bs) (s2.absorbRawAll bs) := by
  induction bs generalizing s1 s2 with
  | nil => exact hs
  | cons b bs ih => exact ih (hs.absorbRaw b)

theorem SameHash.finalize {s1 s2 : State} (hs : SameHash s1 s2) :
    SameHash s1.finalize s2.finalize := by
  obtain ⟨z, hz, hz64⟩ := exists_zeros s1
  rw [finalize_eq s1 z hz hz64, finalize_eq s2 z (hs.idx_eq ▸ hz) hz64, ← hs.len_eq]
  exact hs.absorbRawAll _

theorem SameHash.digestBytes_finalize {s1 s2 : State} (hs : SameHash s1 s2) :
    s1.finalize.digestBytes = s2.finalize.digestBytes :=
  congrArg digestOf hs.finalize.h_eq

/-- The keyed hash of `HMAC_MSG`, finished: it reads the hash in progress and the key block (R97). -/
theorem SameHash.hmacFinish {s1 s2 t1 t2 : State} (hs : SameHash s1 s2) (hkey : s1.kblk = s2.kblk)
    (h1 : s1.hmacFinish = .ok t1) (h2 : s2.hmacFinish = .ok t2) : SameHash t1 t2 := by
  rw [hmacFinish_ok] at h1 h2
  rw [← Except.ok.inj h1, ← Except.ok.inj h2, hkey, hs.digestBytes_finalize]
  exact (((sameHash_hashStart _ _).absorbRawAll _).setLen _).finalize

theorem SameHash.settleKey_kblk {s1 s2 : State} (hs : SameHash s1 s2) (hkey : s1.kblk = s2.kblk) :
    s1.settleKey.kblk = s2.settleKey.kblk := by
  by_cases hlen : 64 < s1.len.toNat
  · rw [settleKey_long s1 hlen, settleKey_long s2 (hs.len_eq ▸ hlen)]
    exact congrArg keyBlockOf hs.digestBytes_finalize
  · rw [settleKey_short s1 (by omega), settleKey_short s2 (by rw [← hs.len_eq]; omega)]
    exact hkey

theorem SameHash.storeKeyByte {s1 s2 : State} (hs : SameHash s1 s2) (b : Byte) :
    SameHash (s1.storeKeyByte b) (s2.storeKeyByte b) :=
  ⟨by simpa using hs.h_eq, by simpa using hs.len_eq, by simpa using hs.idx_eq,
    by simpa using hs.blk_eq⟩

theorem storeKeyByte_kblk_congr {s1 s2 : State} (hlen : s1.len = s2.len) (hkey : s1.kblk = s2.kblk)
    (b : Byte) : (s1.storeKeyByte b).kblk = (s2.storeKeyByte b).kblk := by
  simp only [State.storeKeyByte, hlen, hkey]
  split
  · rfl
  · exact hkey

/-! ### The hidden registers a phase can read -/

/-- What `sameHidden` follows from, whatever the phase. -/
theorem sameHidden_of_sameHash {s1 s2 : State} (hs : SameHash s1 s2)
    (hkey : s1.phase = .hmacKey ∨ s1.phase = .hmacMsg → s1.kblk = s2.kblk) : sameHidden s1 s2 := by
  obtain ⟨hh, hlen, hidx, hblk⟩ := hs
  unfold sameHidden
  split
  · trivial
  · trivial
  · exact hh
  · exact ⟨hh, hlen, hidx, hblk⟩
  · next hp => exact ⟨hh, hlen, hidx, hblk, hkey (.inl hp)⟩
  · next hp => exact ⟨hh, hlen, hidx, hblk, hkey (.inr hp)⟩

theorem State.Indistinguishable.done_h {s1 s2 : State} (hs : s1.Indistinguishable s2)
    (hp : s1.phase = .done) : s1.h = s2.h := by
  simpa [sameHidden, hp] using hs.hidden

theorem State.Indistinguishable.sameHash {s1 s2 : State} (hs : s1.Indistinguishable s2)
    (ha : s1.phase.absorbing = true) : SameHash s1 s2 := by
  have hh := hs.hidden
  cases hp : s1.phase with
  | shaMsg =>
    rw [sameHidden, hp] at hh
    obtain ⟨h, hlen, hidx, hblk⟩ := hh
    exact ⟨h, hlen, hidx, hblk⟩
  | hmacKey | hmacMsg =>
    rw [sameHidden, hp] at hh
    obtain ⟨h, hlen, hidx, hblk, -⟩ := hh
    exact ⟨h, hlen, hidx, hblk⟩
  | idle | done | error => simp [hp, Phase.absorbing] at ha

theorem State.Indistinguishable.kblk_eq {s1 s2 : State} (hs : s1.Indistinguishable s2)
    (hp : s1.phase = .hmacKey ∨ s1.phase = .hmacMsg) : s1.kblk = s2.kblk := by
  have hh := hs.hidden
  rcases hp with hp | hp
  all_goals
    rw [sameHidden, hp] at hh
    obtain ⟨-, -, -, -, hkey⟩ := hh
    exact hkey

theorem State.Indistinguishable.status_eq {s1 s2 : State} (hs : s1.Indistinguishable s2) :
    s1.status = s2.status := by
  simp only [State.status, State.digestValid, State.errFlag, hs.phase_eq, hs.errcode_eq]

/-! ### Operations on two states the host cannot tell apart -/

theorem State.Indistinguishable.raise {s1 s2 : State} (hs : s1.Indistinguishable s2) (c : Cause) :
    (s1.raise c).Indistinguishable (s2.raise c) :=
  ⟨rfl, rfl, hs.rsp_eq, hs.taken_eq, hs.host_eq, trivial⟩

theorem State.Indistinguishable.clearError {s1 s2 : State} (hs : s1.Indistinguishable s2) :
    s1.clearError.Indistinguishable s2.clearError :=
  ⟨rfl, rfl, hs.rsp_eq, hs.taken_eq, hs.host_eq, trivial⟩

theorem State.Indistinguishable.hardReset {s1 s2 : State} (hs : s1.Indistinguishable s2) :
    s1.hardReset.Indistinguishable s2.hardReset :=
  ⟨rfl, rfl, rfl, hs.taken_eq, hs.host_eq, trivial⟩

theorem State.Indistinguishable.respond {s1 s2 : State} (hs : s1.Indistinguishable s2) {v1 v2 : Word}
    (hv : v1 = v2) : (s1.respond v1).Indistinguishable (s2.respond v2) :=
  ⟨hs.phase_eq, hs.errcode_eq, congrArg some hv, hs.taken_eq, hs.host_eq, hs.hidden⟩

theorem State.Indistinguishable.setHost {s1 s2 : State} (hs : s1.Indistinguishable s2)
    (acts : List HostAct) : (s1.setHost acts).Indistinguishable (s2.setHost acts) :=
  ⟨hs.phase_eq, hs.errcode_eq, hs.rsp_eq, hs.taken_eq, rfl, hs.hidden⟩

theorem State.Indistinguishable.takeResponse {s1 s2 : State} (hs : s1.Indistinguishable s2) :
    s1.takeResponse.Indistinguishable s2.takeResponse := by
  cases hr : s1.rsp with
  | none => rwa [takeResponse_none hr, takeResponse_none (hs.rsp_eq ▸ hr)]
  | some v =>
    rw [takeResponse_some hr, takeResponse_some (hs.rsp_eq ▸ hr)]
    exact ⟨hs.phase_eq, hs.errcode_eq, rfl, congrArg (· ++ [v]) hs.taken_eq, hs.host_eq, hs.hidden⟩

theorem State.Indistinguishable.illegalWord {s1 s2 : State} (hs : s1.Indistinguishable s2) :
    s1.illegalWord.Indistinguishable s2.illegalWord := by
  unfold State.illegalWord
  rw [← hs.phase_eq]
  split
  · exact hs
  · exact hs.raise _

/-! ### The commands -/

theorem legality_shaInit_legal_iff (p : Phase) : legality .shaInit p = .legal ↔ p ≠ .error := by
  cases p <;> simp [legality, legalityRow]

theorem legality_hmacInit_legal_iff (p : Phase) : legality .hmacInit p = .legal ↔ p ≠ .error := by
  cases p <;> simp [legality, legalityRow]

theorem legality_keyEnd_legal_iff (p : Phase) : legality .keyEnd p = .legal ↔ p = .hmacKey := by
  cases p <;> simp [legality, legalityRow]

theorem legality_keyByte_legal_iff (b : BitVec 8) (p : Phase) :
    legality (.keyByte b) p = .legal ↔ p = .hmacKey := by
  cases p <;> simp [legality, legalityRow]

theorem legality_msgByte_legal_iff (b : BitVec 8) (p : Phase) :
    legality (.msgByte b) p = .legal ↔ p = .shaMsg ∨ p = .hmacMsg := by
  cases p <;> simp [legality, legalityRow]

theorem legality_final_legal_iff (p : Phase) :
    legality .final p = .legal ↔ p = .shaMsg ∨ p = .hmacMsg := by
  cases p <;> simp [legality, legalityRow]

/-- Two results that are next states the host cannot tell apart. -/
def Alike (r1 r2 : Result) : Prop :=
  ∃ t1 t2 : State, r1 = .next t1 ∧ r2 = .next t2 ∧ t1.Indistinguishable t2

section
variable {s1 s2 : State} (hs : s1.Indistinguishable s2)
include hs

/-- Two bodies that leave the same hash in progress, and the same key block where the phase they leave
reads it, and move nothing but `PHASE` besides. -/
theorem State.Indistinguishable.of_sameHash {t1 t2 : State} (hhash : SameHash t1 t2)
    (hphase : t1.phase = t2.phase)
    (hkey : t1.phase = .hmacKey ∨ t1.phase = .hmacMsg → t1.kblk = t2.kblk)
    (herr1 : t1.errcode = s1.errcode) (herr2 : t2.errcode = s2.errcode)
    (hc1 : SameChannels s1 t1) (hc2 : SameChannels s2 t2) : t1.Indistinguishable t2 where
  phase_eq := hphase
  errcode_eq := by rw [herr1, herr2, hs.errcode_eq]
  rsp_eq := by rw [hc1.rsp_eq, hc2.rsp_eq, hs.rsp_eq]
  taken_eq := by rw [hc1.taken_eq, hc2.taken_eq, hs.taken_eq]
  host_eq := by rw [hc1.host_eq, hc2.host_eq, hs.host_eq]
  hidden := sameHidden_of_sameHash hhash hkey

theorem exec_shaInit_alike (hp : s1.phase ≠ .error) :
    Alike (exec .shaInit s1) (exec .shaInit s2) := by
  refine ⟨_, _, exec_shaInit s1 hp, exec_shaInit s2 (hs.phase_eq ▸ hp), ?_⟩
  exact hs.of_sameHash ((sameHash_hashStart s1 s2).setPhase _) rfl (by simp) rfl rfl
    ⟨rfl, rfl, rfl⟩ ⟨rfl, rfl, rfl⟩

theorem exec_hmacInit_alike (hp : s1.phase ≠ .error) :
    Alike (exec .hmacInit s1) (exec .hmacInit s2) := by
  refine ⟨_, _, exec_hmacInit s1 hp, exec_hmacInit s2 (hs.phase_eq ▸ hp), ?_⟩
  exact hs.of_sameHash ((sameHash_hashStart _ _).setPhase _) rfl (fun _ => rfl) rfl rfl
    ⟨rfl, rfl, rfl⟩ ⟨rfl, rfl, rfl⟩

theorem exec_keyEnd_alike (hp : s1.phase = .hmacKey) :
    Alike (exec .keyEnd s1) (exec .keyEnd s2) := by
  have hkey := (hs.sameHash (by rw [hp]; rfl)).settleKey_kblk (hs.kblk_eq (.inl hp))
  refine ⟨_, _, exec_keyEnd s1 hp, exec_keyEnd s2 (hs.phase_eq ▸ hp), ?_⟩
  rw [← hkey]
  exact hs.of_sameHash ((((sameHash_hashStart _ _).absorbRawAll _).setLen _).setPhase _) (by simp)
    (by simpa using hkey) (by simp) (by simp) (by constructor <;> simp) (by constructor <;> simp)

theorem exec_keyByte_alike (b : BitVec 8) (hp : s1.phase = .hmacKey) :
    Alike (exec (.keyByte b) s1) (exec (.keyByte b) s2) := by
  have hhash := hs.sameHash (by rw [hp]; rfl)
  have hkey := storeKeyByte_kblk_congr hhash.len_eq (hs.kblk_eq (.inl hp)) b
  refine ⟨_, _, exec_keyByte s1 b hp, exec_keyByte s2 b (hs.phase_eq ▸ hp), ?_⟩
  rw [settle_absorb, settle_absorb, storeKeyByte_len, storeKeyByte_len, ← hhash.len_eq]
  split
  · exact hs.raise _
  · exact hs.of_sameHash (((hhash.storeKeyByte b).absorbRaw b).setLen _) (by simpa using hs.phase_eq)
      (by simpa using fun _ => hkey) (by simp) (by simp) (by constructor <;> simp)
      (by constructor <;> simp)

theorem exec_msgByte_alike (b : BitVec 8) (hp : s1.phase = .shaMsg ∨ s1.phase = .hmacMsg) :
    Alike (exec (.msgByte b) s1) (exec (.msgByte b) s2) := by
  have hhash := hs.sameHash (by rcases hp with hp | hp <;> rw [hp] <;> rfl)
  refine ⟨_, _, exec_msgByte s1 b hp, exec_msgByte s2 b (hs.phase_eq ▸ hp), ?_⟩
  rw [settle_absorb, settle_absorb, ← hhash.len_eq]
  split
  · exact hs.raise _
  · exact hs.of_sameHash ((hhash.absorbRaw b).setLen _) (by simpa using hs.phase_eq)
      (by simpa using hs.kblk_eq) (by simp) (by simp) (by constructor <;> simp)
      (by constructor <;> simp)

theorem exec_final_alike (hp : s1.phase = .shaMsg ∨ s1.phase = .hmacMsg) :
    Alike (exec .final s1) (exec .final s2) := by
  rcases hp with hp | hp
  · have hhash := hs.sameHash (by rw [hp]; rfl)
    refine ⟨_, _, exec_final_sha s1 hp, exec_final_sha s2 (hs.phase_eq ▸ hp), ?_⟩
    exact hs.of_sameHash (hhash.finalize.setPhase _) (by simp) (by simp) (by simp) (by simp)
      (by constructor <;> simp) (by constructor <;> simp)
  · have hhash := hs.sameHash (by rw [hp]; rfl)
    obtain ⟨u1, hu1⟩ := hmacFinish_isOk s1
    obtain ⟨u2, hu2⟩ := hmacFinish_isOk s2
    obtain ⟨-, -, -, -, herr1, hr1, ht1, hh1⟩ := hmacFinish_frame hu1
    obtain ⟨-, -, -, -, herr2, hr2, ht2, hh2⟩ := hmacFinish_frame hu2
    refine ⟨_, _, exec_final_hmac s1 u1 hp hu1, exec_final_hmac s2 u2 (hs.phase_eq ▸ hp) hu2, ?_⟩
    exact hs.of_sameHash ((hhash.hmacFinish (hs.kblk_eq (.inr hp)) hu1 hu2).setPhase _) rfl (by simp)
      herr1 herr2 ⟨hr1, ht1, hh1⟩ ⟨hr2, ht2, hh2⟩

theorem exec_rdDigest_alike (idx : BitVec 3) :
    Alike (exec (.rdDigest idx) s1) (exec (.rdDigest idx) s2) := by
  by_cases hidx : idx.toNat < 5
  · refine ⟨_, _, exec_rdDigest s1 idx hidx, exec_rdDigest s2 idx hidx, ?_⟩
    rw [← hs.phase_eq]
    cases hp : s1.phase
    case done => exact hs.respond (by rw [hs.done_h hp])
    case error => exact hs.respond rfl
    all_goals exact (hs.raise _).respond rfl
  · exact ⟨_, _, exec_rdDigest_bad s1 idx (by omega), exec_rdDigest_bad s2 idx (by omega),
      hs.illegalWord⟩

/-- The cell of the legality matrix is the same in both states, and so is what the command does there. -/
theorem exec_alike (i : Instr) : Alike (exec i s1) (exec i s2) := by
  by_cases hi : ∃ idx, i = .rdDigest idx
  · obtain ⟨idx, rfl⟩ := hi
    exact exec_rdDigest_alike hs idx
  have hi : ∀ idx, i ≠ .rdDigest idx := not_exists.1 hi
  cases hl : legality i s1.phase with
  | badPhase =>
    exact ⟨_, _, exec_badPhase i s1 hl hi, exec_badPhase i s2 (hs.phase_eq ▸ hl) hi, hs.raise _⟩
  | ignored => exact ⟨_, _, exec_ignored i s1 hl hi, exec_ignored i s2 (hs.phase_eq ▸ hl) hi, hs⟩
  | legal =>
    cases i with
    | nop => exact ⟨_, _, exec_nop s1, exec_nop s2, hs⟩
    | rdStatus => exact ⟨_, _, exec_rdStatus s1, exec_rdStatus s2, hs.respond hs.status_eq⟩
    | reset => exact ⟨_, _, exec_reset s1, exec_reset s2, hs.clearError⟩
    | shaInit => exact exec_shaInit_alike hs ((legality_shaInit_legal_iff _).1 hl)
    | hmacInit => exact exec_hmacInit_alike hs ((legality_hmacInit_legal_iff _).1 hl)
    | keyEnd => exact exec_keyEnd_alike hs ((legality_keyEnd_legal_iff _).1 hl)
    | keyByte b => exact exec_keyByte_alike hs b ((legality_keyByte_legal_iff b _).1 hl)
    | msgByte b => exact exec_msgByte_alike hs b ((legality_msgByte_legal_iff b _).1 hl)
    | final => exact exec_final_alike hs ((legality_final_legal_iff _).1 hl)
    | rdDigest idx => exact absurd rfl (hi idx)

/-! ### Acts and steps -/

theorem accept_alike (w : CmdWord) : Alike (s1.accept w) (s2.accept w) := by
  cases hd : decode w with
  | command i => simpa only [accept_command _ hd] using exec_alike hs i
  | illegal why => exact ⟨_, _, accept_illegal s1 hd, accept_illegal s2 hd, hs.illegalWord⟩

theorem serve_alike (act : HostAct) : Alike (s1.serve act) (s2.serve act) := by
  cases act with
  | offer w => exact accept_alike hs w
  | take => exact ⟨_, _, rfl, rfl, hs.takeResponse⟩
  | hardReset => exact ⟨_, _, rfl, rfl, hs.hardReset⟩

theorem State.Indistinguishable.nextAct_eq : s1.nextAct = s2.nextAct := by
  unfold State.nextAct
  rw [hs.rsp_eq, hs.host_eq]

/-- What the core does with no act to serve, it does by the host's acts alone. -/
theorem wait_alike : Alike s1.wait s2.wait ∨ ∃ f : Fault, s1.wait = .fault f ∧ s2.wait = .fault f := by
  unfold State.wait
  rw [← hs.host_eq]
  split
  · exact .inl ⟨s1, s2, rfl, rfl, hs⟩
  · exact .inr ⟨_, rfl, rfl⟩

theorem step_alike : Alike (step s1) (step s2) ∨ ∃ f : Fault, step s1 = .fault f ∧ step s2 = .fault f := by
  unfold step
  rw [← hs.nextAct_eq]
  split
  · next act rest _ => exact .inl (serve_alike (hs.setHost rest) act)
  · exact wait_alike hs

end

/-- Settles O48: a step serves the same act in both states, and no act's effect on what the host sees depends
on a register that `sameHidden` leaves out. -/
theorem hiddenStateStaysHidden : Obligations.HiddenStateStaysHidden := by
  intro s1 s2 hs
  refine ⟨?_, ?_, hs.status_eq, step_alike hs⟩
  · rw [State.digestValid, State.digestValid, hs.phase_eq]
  · rw [State.errFlag, State.errFlag, hs.phase_eq]

end Sys2Proof.Machine
end

section
/-! SUPPORT. The phase register, the status word and the outputs (10_state.md R18 to R24): which values they
take, and who writes them. -/

namespace Sys2Proof.Machine

/-! ### The status word and the outputs -/

theorem status_phase_field (s : State) : s.status.extractLsb' 0 3 = s.phase.code := by
  apply BitVec.eq_of_getLsbD_eq
  intro i hi
  simp [State.status, hi, show i < 32 by omega, show i < 4 by omega, show i < 5 by omega]

theorem status_digestValid_bit (s : State) : s.status.getLsbD 3 = s.digestValid := by
  simp [State.status]

theorem status_err_bit (s : State) : s.status.getLsbD 4 = s.errFlag := by
  simp [State.status]

theorem status_errcode_field (s : State) : s.status.extractLsb' 5 3 = s.errcode.code := by
  apply BitVec.eq_of_getLsbD_eq
  intro i hi
  have hphase : s.phase.code.getLsbD (5 + i) = false := BitVec.getLsbD_of_ge _ _ (by omega)
  simp [State.status, hphase, hi, show 5 + i < 32 by omega, show 5 + i - 3 ≠ 0 by omega,
    show 5 + i - 4 ≠ 0 by omega]

theorem status_reserved_field (s : State) : s.status.extractLsb' 8 24 = 0#24 := by
  apply BitVec.eq_of_getLsbD_eq
  intro i hi
  have hphase : s.phase.code.getLsbD (8 + i) = false := BitVec.getLsbD_of_ge _ _ (by omega)
  have herr : s.errcode.code.getLsbD (8 + i - 5) = false := BitVec.getLsbD_of_ge _ _ (by omega)
  simp [State.status, hphase, herr, show 8 + i - 3 ≠ 0 by omega, show 8 + i - 4 ≠ 0 by omega]

theorem digestValid_iff (s : State) : s.digestValid = true ↔ s.phase = .done := by
  simp [State.digestValid]

theorem errFlag_iff (s : State) : s.errFlag = true ↔ s.phase = .error := by
  simp [State.errFlag]

theorem status_idle {s : State} (hphase : s.phase = .idle) (herr : s.errcode = .none) :
    s.status = 0x00000000#32 := by
  rw [State.status, State.digestValid, State.errFlag, hphase, herr]
  rfl

/-- Settles O31: each field of the word is the code or the flag it is assembled from. -/
theorem statusWordFields : Obligations.StatusWordFields := by
  refine ⟨fun s => ⟨?_, ?_, ?_, ?_, status_reserved_field s⟩, fun s => status_idle rfl rfl⟩
  · rw [status_phase_field]; cases s.phase <;> rfl
  · rw [status_digestValid_bit, digestValid_iff]
  · rw [status_err_bit, errFlag_iff]
  · rw [status_errcode_field]; cases s.errcode <;> rfl

/-- Settles O32: by (a) of the invariants an error code goes with `ERROR` alone, and `STATUS` is a function
of the two. -/
theorem statusTakesEightValues : Obligations.StatusTakesEightValues := by
  intro s hs
  unfold State.status State.digestValid State.errFlag
  cases hp : s.phase with
  | error =>
    cases he : s.errcode with
    | none => exact absurd he (hs.errcode_iff.2 hp)
    | illegalCmd | badPhase | lenOverflow => decide
  | idle | shaMsg | hmacKey | hmacMsg | done =>
    rw [hs.errcode_none (by simp [hp])]
    decide

/-- Settles O33: the flags are tests of `PHASE`, and the response channel is a test of `rsp`. -/
theorem outputsFollowState : Obligations.OutputsFollowState := by
  intro s
  refine ⟨?_, ?_, ?_, ?_, rfl, rfl, rfl, rfl⟩
  · exact digestValid_iff s
  · exact errFlag_iff s
  · cases hr : s.rsp <;> simp [State.outputs, hr]
  · simp [State.outputs]

/-- Settles O47: hard reset and `RESET` both leave `IDLE` without an error, of which the flags and `STATUS` are
functions; `RESET` writes nothing else. -/
theorem resetValues : Obligations.ResetValues := by
  refine ⟨⟨rfl, rfl, rfl, rfl, status_idle rfl rfl⟩,
    fun s => ⟨rfl, rfl, rfl, rfl, status_idle rfl rfl⟩,
    fun s => ⟨s.clearError, exec_reset s, rfl, rfl, rfl, rfl, status_idle rfl rfl, ?_⟩⟩
  exact ⟨rfl, rfl, rfl, rfl, rfl, rfl, rfl, rfl⟩

/-! ### The phase register -/

/-- The phase the body of a command leaves, where the command is legal; `full` is `LEN = MAX_BYTES`, in which
a byte is not absorbed (R119). -/
def phaseAfterBody (i : Instr) (full : Bool) (p : Phase) : Phase :=
  match i with
  | .nop | .rdDigest _ | .rdStatus => p
  | .shaInit => .shaMsg
  | .hmacInit => .hmacKey
  | .keyEnd => .hmacMsg
  | .msgByte _ | .keyByte _ => if full then .error else p
  | .final => .done
  | .reset => .idle

/-- The phase after a command, by its cell of the legality matrix (R118, R120). -/
def nextPhase (i : Instr) (full : Bool) (p : Phase) : Phase :=
  match legality i p with
  | .ignored => p
  | .badPhase => .error
  | .legal => phaseAfterBody i full p

theorem nextPhase_of_legal {i : Instr} {p : Phase} (full : Bool) (hl : legality i p = .legal) :
    nextPhase i full p = phaseAfterBody i full p := by
  simp only [nextPhase, hl]

theorem legality_nop (p : Phase) : legality .nop p = .legal := by cases p <;> rfl

theorem legality_rdStatus (p : Phase) : legality .rdStatus p = .legal := by cases p <;> rfl

theorem legality_reset (p : Phase) : legality .reset p = .legal := by cases p <;> rfl

theorem did_phase {i : Instr} {s t : State} (hi : i.wellFormed = true) (h : Did s i t) :
    t.phase = nextPhase i s.lenFull s.phase := by
  cases h with
  | nop => rw [nextPhase_of_legal _ (legality_nop _)]; rfl
  | status => rw [nextPhase_of_legal _ (legality_rdStatus _)]; rfl
  | cleared => rw [nextPhase_of_legal _ (legality_reset _)]; rfl
  | ignored _ hl | badPhase _ hl => simp [nextPhase, hl]
  | @msgFull b hp hlen =>
    rw [nextPhase_of_legal _ ((legality_msgByte_legal_iff b _).2 hp), (lenFull_iff s).2 hlen]
    rfl
  | @keyFull b hp hlen =>
    rw [nextPhase_of_legal _ ((legality_keyByte_legal_iff b _).2 hp), (lenFull_iff s).2 hlen]
    rfl
  | noSuchWord hidx =>
    have hle := of_decide_eq_true hi
    omega
  | digest _ hp | digestInError _ hp => rw [hp]; exact hp
  | digestEarly _ hd he => cases hp : s.phase <;> simp_all [nextPhase, legality, legalityRow]
  | shaInit hp => rw [nextPhase_of_legal _ ((legality_shaInit_legal_iff _).2 hp)]; rfl
  | hmacInit hp => rw [nextPhase_of_legal _ ((legality_hmacInit_legal_iff _).2 hp)]; rfl
  | @msgByte b hp hlen =>
    have hfull : s.lenFull = false := by simpa [State.lenFull] using hlen
    rw [nextPhase_of_legal _ ((legality_msgByte_legal_iff b _).2 hp), hfull]
    simp [phaseAfterBody]
  | @keyByte b hp hlen =>
    have hfull : s.lenFull = false := by simpa [State.lenFull] using hlen
    rw [nextPhase_of_legal _ ((legality_keyByte_legal_iff b _).2 hp), hfull]
    simp [phaseAfterBody]
  | keyEnd hp => rw [nextPhase_of_legal _ ((legality_keyEnd_legal_iff _).2 hp)]; rfl
  | finalSha hp => rw [nextPhase_of_legal _ ((legality_final_legal_iff _).2 (.inl hp))]; rfl
  | finalHmac hp => rw [nextPhase_of_legal _ ((legality_final_legal_iff _).2 (.inr hp))]; rfl

/-- Which act is served: the first when no response waits, else the first that is no offer. -/
theorem nextAct_cases {s : State} {act : HostAct} {rest : List HostAct}
    (h : s.nextAct = some (act, rest)) :
    (s.rsp = none ∧ s.host = act :: rest) ∨
      (s.rsp ≠ none ∧ (∀ w, act ≠ .offer w) ∧ ∃ a b : List HostAct,
        (∀ x ∈ a, ∃ w, x = .offer w) ∧ s.host = a ++ act :: b ∧ rest = a ++ b) := by
  unfold State.nextAct at h
  split at h
  · next v hr =>
    obtain ⟨a, b, ha, hhost, hrest, hact⟩ := firstWithoutCommand_some h
    exact .inr ⟨by simp [hr], by rcases hact with rfl | rfl <;> simp, a, b, ha, hhost, hrest⟩
  · next hr =>
    split at h
    · cases h
    · next hhost => cases h; exact .inl ⟨hr, hhost⟩

theorem takeResponse_phase (s : State) : s.takeResponse.phase = s.phase := by
  unfold State.takeResponse
  split <;> rfl

/-- A hard reset that is served stands past the offers behind a waiting response, which stay. -/
theorem nextAct_hardReset {s : State} {rest : List HostAct}
    (h : s.nextAct = some (.hardReset, rest)) :
    ∃ a b : List HostAct, (∀ act ∈ a, ∃ w : CmdWord, act = .offer w) ∧ (s.rsp = none → a = []) ∧
      s.host = a ++ .hardReset :: b ∧ rest = a ++ b := by
  rcases nextAct_cases h with ⟨-, hhost⟩ | ⟨hr, -, a, b, ha, hhost, hrest⟩
  · exact ⟨[], rest, by simp, fun _ => rfl, hhost, rfl⟩
  · exact ⟨a, b, ha, fun hn => absurd hn hr, hhost, hrest⟩

/-- Settles O40: the table is `nextPhase`; an illegal word is error entry or ignored; and of the acts a step
serves, a take leaves `PHASE` alone. -/
theorem nextPhaseTable : Obligations.NextPhaseTable := by
  refine ⟨fun i s t hi h => ?_, fun s w why hd => ?_, fun s t h hne => ?_⟩
  · rw [did_phase hi (exec_did h)]
    cases i <;> cases s.phase <;>
      simp [nextPhase, phaseAfterBody, legality, legalityRow, lenFull_iff, Config.maxBytes]
  · rw [accept_illegal s hd]
    exact ⟨fun he => congrArg _ (if_neg he), fun he => congrArg _ (if_pos he)⟩
  · rcases step_cases h with ⟨act, rest, hact, hserve⟩ | ⟨-, -, rfl⟩
    · cases act with
      | offer w =>
        rcases nextAct_cases hact with ⟨hr, hhost⟩ | ⟨-, hno, -⟩
        · exact .inl ⟨hr, w, rest, hhost, hserve⟩
        · exact absurd rfl (hno w)
      | take =>
        rw [← Host.Outcome.next.inj hserve, takeResponse_phase] at hne
        exact absurd rfl hne
      | hardReset =>
        obtain ⟨a, b, ha, hr, hhost, rfl⟩ := nextAct_hardReset hact
        exact .inr ⟨a, b, ha, hr, hhost, (Host.Outcome.next.inj hserve).symm⟩
    · exact absurd rfl hne

/-! ### Who writes which register -/

/-- Settles O41: read off the cases of `Did`; the channels by `exec_channels`. -/
theorem whoWritesKeyBlockAndErrcode : Obligations.WhoWritesKeyBlockAndErrcode := by
  intro i s t h
  refine ⟨fun ⟨hinit, hend, hbyte⟩ => ?_, fun hne => ?_, exec_channels h⟩
  · cases exec_did h with
    | finalHmac _ hu => obtain ⟨-, -, hkey, -⟩ := hmacFinish_frame hu; exact hkey
    | hmacInit => exact absurd rfl hinit
    | keyEnd => exact absurd rfl hend
    | @keyByte b => exact absurd rfl (hbyte b)
    | _ => simp
  · cases exec_did h with
    | finalHmac _ hu => obtain ⟨-, -, -, -, herr, -⟩ := hmacFinish_frame hu; exact absurd herr hne
    | cleared => exact .inr rfl
    | badPhase he | noSuchWord _ he | digestEarly _ _ he => exact .inl ⟨rfl, he⟩
    | msgFull hp => exact .inl ⟨rfl, by rcases hp with hp | hp <;> simp [hp]⟩
    | keyFull hp => exact .inl ⟨rfl, by simp [hp]⟩
    | _ => exact absurd (by simp) hne

end Sys2Proof.Machine
end

section
/-! SUPPORT. The sixteen-word ring (10_state.md R12, U13): it holds the newest words of the schedule expanded so
far, and each use moves it on by one word. -/

namespace Sys2Proof.Machine

/-- While the ring lasts, its words come out in order. -/
theorem ringWords_eq_take (n : Nat) (ring : List Word) (hn : n ≤ ring.length) :
    ringWords n ring = ring.take n := by
  induction n generalizing ring with
  | zero => rfl
  | succ n ih =>
    cases ring with
    | nil => simp at hn
    | cons x ring =>
      have hle : n ≤ ring.length := by simpa using hn
      simp [ringWords, ih, List.take_append_of_le_length, hle, Nat.le_succ_of_le]

/-- The ring of the sixteen newest words gives out the oldest of them. -/
theorem ring_head (ws : List Word) (hlen : 16 ≤ ws.length) :
    (ws.take 16).reverse = ws.getD 15 0 :: (ws.take 15).reverse := by
  rw [List.take_succ_eq_append_getElem hlen, List.reverse_append]
  simp [List.getElem?_eq_getElem hlen]

/-- The ring lists oldest first what the expansion lists newest first. -/
theorem ring_getD (ws : List Word) (hlen : 16 ≤ ws.length) (i : Nat) (hi : i < 16) :
    (ws.take 16).reverse.getD i 0 = ws.getD (15 - i) 0 := by
  have htake : (ws.take 16).length = 16 := List.length_take_of_le hlen
  rw [List.getD_reverse i (by omega), htake, List.getD_eq_getElem?_getD, List.getD_eq_getElem?_getD,
    List.getElem?_take_of_lt (by omega)]

/-- One use of the ring: the oldest of the sixteen newest words goes out, and the schedule's next word comes
in. -/
theorem ringWords_succ (n : Nat) (ws : List Word) (hlen : 16 ≤ ws.length) :
    ringWords (n + 1) (ws.take 16).reverse =
      ws.getD 15 0 :: ringWords n ((nextWord ws :: ws).take 16).reverse := by
  have hnext : rotl ((ws.take 16).reverse.getD 13 0 ^^^ (ws.take 16).reverse.getD 8 0 ^^^
      (ws.take 16).reverse.getD 2 0 ^^^ (ws.take 16).reverse.getD 0 0) 1 = nextWord ws := by
    simp only [ring_getD ws hlen, Nat.reduceLT, nextWord]
  rw [ringWords, hnext, ring_head ws hlen]
  simp

/-- The expanded schedule, oldest word first, is what has left the ring and what the ring gives out. -/
theorem expand_eq_ringWords (n : Nat) (ws : List Word) (hlen : 16 ≤ ws.length) :
    (expand n ws).reverse = (ws.drop 16).reverse ++ ringWords (n + 16) (ws.take 16).reverse := by
  induction n generalizing ws with
  | zero =>
    have hring : (ws.take 16).reverse.length = 16 := by simpa using hlen
    rw [Nat.zero_add, ringWords_eq_take 16 _ hring.ge, List.take_of_length_le hring.le,
      ← List.reverse_append, List.take_append_drop]
    rfl
  | succ n ih =>
    have hdrop : ws.drop 15 = ws.getD 15 0 :: ws.drop 16 := by
      rw [List.drop_eq_getElem_cons hlen, List.getD_eq_getElem _ _ hlen]
    rw [Nat.add_right_comm, ringWords_succ _ ws hlen, expand, ih (nextWord ws :: ws) (Nat.le_succ_of_le hlen),
      List.drop_succ_cons, hdrop, List.reverse_cons, List.append_assoc, List.singleton_append]

/-- The expansion keeps the words it began with. -/
theorem suffix_expand (n : Nat) (ws : List Word) : ws <:+ expand n ws := by
  induction n generalizing ws with
  | zero => exact List.suffix_rfl
  | succ n ih => exact (List.suffix_cons _ _).trans (ih (nextWord ws :: ws))

/-- The schedule's first sixteen words are the loaded ones. -/
theorem take_schedule (blk : Vector Byte 64) :
    (schedule blk).toList.take 16 = (loadedWords blk).reverse := by
  obtain ⟨later, hlater⟩ := suffix_expand 64 (loadedWords blk)
  have hwords : (schedule blk).toList = (expand 64 (loadedWords blk)).reverse := rfl
  rw [hwords, ← hlater, List.reverse_append]
  exact List.take_left' (by simp [loadedWords])

/-- Settles O10: the eighty words are what a ring loaded with the first sixteen gives out. -/
theorem ringOfSixteenWordsAgrees : Obligations.RingOfSixteenWordsAgrees := by
  intro blk
  have hlen : (loadedWords blk).length = 16 := by simp [loadedWords]
  have hexpand := expand_eq_ringWords 64 (loadedWords blk) hlen.ge
  rw [List.drop_of_length_le hlen.le, List.take_of_length_le hlen.le] at hexpand
  rw [take_schedule]
  exact hexpand.symm

end Sys2Proof.Machine
end

section
/-! SUPPORT. The key phase (10_state.md R25 (d)): after `HMAC_INIT` the key block collects the key bytes in
order. -/

namespace Sys2Proof.Machine

/-! ### The words of the key program -/

theorem decode_encode_hmacInit : decode (encode .hmacInit) = .command .hmacInit := by decide

/-- The word of `KEY_BYTE` as a number: opcode 5, a zero field, the byte (R50). -/
theorem encode_keyByte_toNat (b : BitVec 8) : (encode (.keyByte b)).toNat = 0x5000 + b.toNat := by
  have hor := Nat.two_pow_add_eq_or_of_lt b.isLt 0x50
  have hlt := b.isLt
  rw [encode, BitVec.toNat_or, BitVec.toNat_setWidth, Nat.mod_eq_of_lt (by omega)]
  exact hor.symm

theorem decode_encode_keyByte (b : BitVec 8) :
    decode (encode (.keyByte b)) = .command (.keyByte b) := by
  have hword := encode_keyByte_toNat b
  have hlt := b.isLt
  have hop : (opField (encode (.keyByte b))).toNat = 5 := by
    rw [opField, BitVec.extractLsb'_toNat, hword, Nat.shiftRight_eq_div_pow]
    omega
  have hzero : (encode (.keyByte b)).extractLsb' 8 4 = 0#4 := by
    apply BitVec.eq_of_toNat_eq
    rw [BitVec.extractLsb'_toNat, hword, Nat.shiftRight_eq_div_pow, BitVec.toNat_ofNat]
    omega
  have himm : imm8Field (encode (.keyByte b)) = b := by
    apply BitVec.eq_of_toNat_eq
    rw [imm8Field, BitVec.extractLsb'_toNat, hword, Nat.shiftRight_zero]
    omega
  rw [decode, hop]
  exact (decodeB_command_iff _ _ _).2 ⟨by rw [himm], hzero⟩

/-! ### The key bytes so far -/

/-- The key phase after the key bytes `p`: they are counted, and the first 64 of them stand in `KBLK`. -/
structure KeyPhase (s : State) (p : List Byte) : Prop where
  phase_eq : s.phase = .hmacKey
  len_eq : s.len.toNat = p.length
  kblk_eq : ∀ (i : Nat) (_ : i < 64), s.kblk[i] = p.getD i 0#8

theorem keyPhase_hmacInit (s : State) : KeyPhase (s.clearKey.hashStart.setPhase .hmacKey) [] where
  phase_eq := rfl
  len_eq := rfl
  kblk_eq := by simp

theorem KeyPhase.takeResponse {s : State} {p : List Byte} (h : KeyPhase s p) :
    KeyPhase s.takeResponse p := by
  unfold State.takeResponse
  split
  · exact ⟨h.phase_eq, h.len_eq, h.kblk_eq⟩
  · exact h

/-- A byte added at the end is read at its own place only. -/
theorem getD_snoc_of_ne (p : List Byte) (b : Byte) {i : Nat} (hi : p.length ≠ i) :
    (p ++ [b]).getD i 0#8 = p.getD i 0#8 := by
  rcases Nat.lt_or_gt_of_ne hi with hlt | hgt
  · rw [List.getD_eq_default _ _ (by simpa using hlt), List.getD_eq_default _ _ hlt.le]
  · exact List.getD_append _ _ _ _ hgt

theorem KeyPhase.keyByte {s : State} {p : List Byte} (h : KeyPhase s p) (b : Byte)
    (hp : p.length < Config.maxBytes) :
    ∃ t, s.accept (encode (.keyByte b)) = .next t ∧ KeyPhase t (p ++ [b]) := by
  have hlen : s.len.toNat ≠ Config.maxBytes := by rw [h.len_eq]; omega
  refine ⟨((s.storeKeyByte b).absorbRaw b).setLen (s.len + 1#61), ?_, ?_, ?_, ?_⟩
  · rw [accept_command s (decode_encode_keyByte b), exec_keyByte s b h.phase_eq, settle_absorb,
      storeKeyByte_len, if_neg hlen]
  · simpa using h.phase_eq
  · rw [setLen_len, toNat_len_add_one hlen, h.len_eq]
    simp
  · intro i hi
    rw [setLen_kblk, absorbRaw_kblk, storeKeyByte_kblk s b i hi, h.len_eq, h.kblk_eq i hi]
    split
    · next heq => simp [← heq]
    · next hne => rw [getD_snoc_of_ne p b hne]

/-- The bytes of a key, fed one by one. -/
theorem KeyPhase.feed {s : State} {p : List Byte} (h : KeyPhase s p) (k : List Byte)
    (hlen : p.length + k.length ≤ Config.maxBytes) :
    ∃ t, State.feed (programWords (keyProgram k)) s = .next t ∧ KeyPhase t (p ++ k) := by
  induction k generalizing s p with
  | nil => exact ⟨s, rfl, by simpa using h⟩
  | cons b k ih =>
    rw [List.length_cons] at hlen
    obtain ⟨u, hu, hkey⟩ := h.keyByte b (by omega)
    obtain ⟨t, ht, hkeys⟩ := ih hkey.takeResponse (by simp; omega)
    refine ⟨t, ?_, by simpa using hkeys⟩
    rw [← ht]
    simp [keyProgram, programWords, State.feed, hu]

/-- Settles O59: by induction on the key, each byte standing at its place in `KBLK` while there is one. -/
theorem keyBlockHoldsFirstKeyBytes : Obligations.KeyBlockHoldsFirstKeyBytes := by
  intro k s hk he
  obtain ⟨t, ht, hkey⟩ := (keyPhase_hmacInit s).takeResponse.feed k (by simpa [Config.maxBytes] using hk)
  have hinit : s.accept (encode .hmacInit) = .next (s.clearKey.hashStart.setPhase .hmacKey) := by
    rw [accept_command s decode_encode_hmacInit, exec_hmacInit s he]
  refine ⟨t, ?_, hkey.phase_eq, hkey.len_eq, fun i hi => ?_⟩
  · rw [← ht]
    simp only [programWords, List.map_cons, State.feed, hinit]
  · rw [hkey.kblk_eq i hi, List.nil_append]
    split
    · rfl
    · next hge => exact List.getD_eq_default _ _ (by omega)

end Sys2Proof.Machine
end

section
/-! SUPPORT. The schedule and the two channels (20_memory.md R31 to R42): the words a compression leaves in `W`,
which commands respond, and a run as the fold over the words of the command stream. -/

namespace Sys2Proof.Machine

/-! ### The message schedule -/

/-- Four bytes joined, the first the most significant, are the four shifted to their places (R32). -/
theorem wordOfBytes_eq_or (b0 b1 b2 b3 : Byte) :
    wordOfBytes b0 b1 b2 b3 =
      ((b0.setWidth 32) <<< 24) ||| ((b1.setWidth 32) <<< 16) ||| ((b2.setWidth 32) <<< 8) |||
        (b3.setWidth 32) :=
  (BitVec.setWidth_eq _).symm.trans BitVec.setWidth_append_append_append_eq_shiftLeft_setWidth_or

/-- A loaded word, byte by byte (R65). -/
theorem loadWord_eq_or (blk : Vector Byte 64) (j : Nat) (hj : j < 16) :
    loadWord blk j =
      ((blk[4 * j].setWidth 32) <<< 24) ||| ((blk[4 * j + 1].setWidth 32) <<< 16) |||
        ((blk[4 * j + 2].setWidth 32) <<< 8) ||| (blk[4 * j + 3].setWidth 32) := by
  have hget (i : Nat) (hi : i < 64) : blk.getD i 0 = blk[i] := by simp [Vector.getD, hi]
  rw [loadWord, wordOfBytes_eq_or, hget _ (by omega), hget _ (by omega), hget _ (by omega),
    hget _ (by omega)]

/-- The expansion puts `n` words before those it began with. -/
theorem drop_expand (n : Nat) (ws : List Word) : (expand n ws).drop n = ws := by
  have hdrop := List.suffix_iff_eq_drop.1 (suffix_expand n ws)
  rw [length_expand, Nat.add_sub_cancel] at hdrop
  exact hdrop.symm

/-- Each word the expansion adds is the `nextWord` of the words older than it. -/
theorem drop_expand_eq_cons (n : Nat) (ws : List Word) (k : Nat) (hk : k < n) :
    (expand n ws).drop k =
      nextWord ((expand n ws).drop (k + 1)) :: (expand n ws).drop (k + 1) := by
  induction n generalizing ws with
  | zero => exact absurd hk (Nat.not_lt_zero k)
  | succ n ih =>
    rw [expand]
    rcases Nat.lt_succ_iff_lt_or_eq.1 hk with hlt | rfl
    · exact ih (nextWord ws :: ws) hlt
    · rw [← List.drop_drop, drop_expand]
      rfl

/-- A word the expansion adds, read at its place. -/
theorem expand_getD (n : Nat) (ws : List Word) (k : Nat) (hk : k < n) :
    (expand n ws).getD k 0 = nextWord ((expand n ws).drop (k + 1)) := by
  rw [List.getD_eq_getElem?_getD, ← List.head?_drop, drop_expand_eq_cons n ws k hk]
  rfl

/-- `W[j]` in the list the schedule is expanded in, newest word first. -/
theorem schedule_getElem (blk : Vector Byte 64) (j : Nat) (hj : j < 80) :
    (schedule blk)[j] = (expand 64 (loadedWords blk)).getD (79 - j) 0 := by
  have hlen : (expand 64 (loadedWords blk)).length = 80 := by
    simp [length_expand, loadedWords]
  rw [List.getD_eq_getElem _ _ (by omega)]
  simp [schedule, scheduleWords, hlen]

theorem schedule_loaded (blk : Vector Byte 64) (j : Nat) (hj : j < 16) :
    (schedule blk)[j] = loadWord blk j := by
  have htake : ((schedule blk).toList.take 16)[j]? = some (loadWord blk j) := by
    rw [take_schedule]; simp [loadedWords, hj]
  rw [List.getElem?_take_of_lt hj] at htake
  simpa [show j < 80 by omega] using htake

theorem schedule_recurrence (blk : Vector Byte 64) (j : Nat) (hge : 16 ≤ j) (hj : j < 80) :
    (schedule blk)[j] = rotl ((schedule blk)[j - 3] ^^^ (schedule blk)[j - 8] ^^^
      (schedule blk)[j - 14] ^^^ (schedule blk)[j - 16]) 1 := by
  simp only [schedule_getElem]
  rw [expand_getD 64 _ (79 - j) (by omega), nextWord]
  simp only [List.getD_eq_getElem?_getD, List.getElem?_drop]
  rw [show 79 - (j - 3) = 79 - j + 1 + 2 by omega, show 79 - (j - 8) = 79 - j + 1 + 7 by omega,
    show 79 - (j - 14) = 79 - j + 1 + 13 by omega, show 79 - (j - 16) = 79 - j + 1 + 15 by omega]

/-- Settles O9: the loaded words are the oldest of the schedule, and each later one was the next word of those
older than it. -/
theorem scheduleLoadAndExpansion : Obligations.ScheduleLoadAndExpansion := by
  intro s
  exact ⟨fun j hj => (schedule_loaded s.blk j hj).trans (loadWord_eq_or s.blk j hj),
    schedule_recurrence s.blk⟩

/-! ### The commands that respond -/

/-- Settles O42: a read responds by its cell of the legality matrix, a word in each; of the other cases of `Did`
none touches the response channel. -/
theorem exactlyReadsRespond : Obligations.ExactlyReadsRespond := by
  intro i s t hi h
  constructor
  · rintro (⟨idx, rfl⟩ | rfl)
    · have hidx : idx.toNat < 5 := Nat.lt_succ_of_le (of_decide_eq_true hi)
      rw [exec_rdDigest s idx hidx] at h
      rw [← Host.Outcome.next.inj h]
      cases legality (.rdDigest idx) s.phase <;> exact ⟨_, rfl⟩
    · rw [exec_rdStatus] at h
      exact ⟨_, congrArg State.rsp (Host.Outcome.next.inj h).symm⟩
  · intro hno
    cases exec_did h with
    | digest | digestEarly | digestInError => exact absurd (.inl ⟨_, rfl⟩) hno
    | status => exact absurd (.inr rfl) hno
    | finalHmac _ hu => obtain ⟨-, -, -, -, -, hrsp, -⟩ := hmacFinish_frame hu; exact hrsp
    | _ => simp

/-! ### Runs as folds -/

theorem takeResponse_setHost (s : State) (acts : List HostAct) :
    (s.setHost acts).takeResponse = s.takeResponse.setHost acts := by
  cases hr : s.rsp with
  | none => rw [takeResponse_none hr, takeResponse_none (s := s.setHost acts) hr]
  | some v => rw [takeResponse_some hr, takeResponse_some (s := s.setHost acts) hr]; rfl

theorem takeResponse_rsp (s : State) : s.takeResponse.rsp = none := by
  cases hr : s.rsp with
  | none => rw [takeResponse_none hr, hr]
  | some v => rw [takeResponse_some hr]

theorem feed_cons {w : CmdWord} {s u : State} (ws : List CmdWord) (h : s.accept w = .next u) :
    State.feed (w :: ws) s = State.feed ws u.takeResponse := by
  rw [State.feed, h]

/-- The two steps of one word of the stream: it is accepted, and its response, if any, is taken. -/
theorem run_offer_take {w : CmdWord} {s u : State} {acts : List HostAct} (hrsp : s.rsp = none)
    (hhost : s.host = .offer w :: .take :: acts) (hu : s.accept w = .next u) :
    run 2 s = .next (u.takeResponse.setHost acts) := by
  have hoffer : step s = .next (u.setHost (.take :: acts)) :=
    (step_offer hrsp hhost).trans (accept_setHost _ hu)
  rw [run_succ 1 hoffer, run_succ 0 (step_take rfl), run_zero]
  exact congrArg _ (takeResponse_setHost u acts)

/-- Settles O54: by induction on the words, of which each takes two steps; what it does depends on no act that
is still to come. -/
theorem runIsFoldOverCommands : Obligations.RunIsFoldOverCommands := by
  intro ws s rest hrsp hhost
  induction ws generalizing s with
  | nil =>
    obtain rfl : s.host = rest := hhost
    exact ⟨s, rfl, rfl, hrsp, rfl⟩
  | cons w ws ih =>
    obtain ⟨u, hu⟩ := accept_next s w
    have htwo := run_offer_take hrsp hhost hu
    obtain ⟨t, ht, hrest, hnone, hfold⟩ := ih (u.takeResponse.setHost _)
      (by rw [setHost_rsp, takeResponse_rsp]) rfl
    refine ⟨t, ?_, hrest, hnone, ?_⟩
    · rw [List.length_cons, Nat.mul_succ, Nat.add_comm, run_add _ htwo]
      exact ht
    · rw [← hfold]
      exact (feed_cons ws (accept_setHost rest hu)).trans
        (congrArg _ (takeResponse_setHost u rest))

end Sys2Proof.Machine
end

section
/-! SUPPORT. The decoder and the encoder (30_encoding.md R50, R51): the fields of each command's word, that
decoding and encoding are inverse, and the rows of the opcode map. -/

namespace Sys2Proof.Machine

/-! ### The fields of a word that carries an operand -/

/-- An operand fills the low bits of a word, as it stands (R56). -/
theorem extractLsb'_setWidth_low {n : Nat} (hn : n ≤ 16) (x : BitVec n) :
    (x.setWidth 16).extractLsb' 0 n = x := by
  rw [BitVec.extractLsb'_setWidth_of_le (by omega), BitVec.extractLsb'_eq_self]

/-- Above an operand its word is zero. -/
theorem extractLsb'_setWidth_high {n lo : Nat} (hlo : n ≤ lo) (k : Nat) (x : BitVec n) :
    (x.setWidth 16).extractLsb' lo k = 0#k := by
  apply BitVec.eq_of_getLsbD_eq
  intro i _
  simp [BitVec.getLsbD_of_ge x (lo + i) (by omega)]

/-- Two words are equal when their opcodes, their `m`-bit zero fields and their `n`-bit operands are (R48,
R49). -/
theorem eq_of_fields {n m : Nat} (hnm : n + m = 12) {v w : CmdWord}
    (hop : v.extractLsb' 12 4 = w.extractLsb' 12 4) (hmid : v.extractLsb' n m = w.extractLsb' n m)
    (hlow : v.extractLsb' 0 n = w.extractLsb' 0 n) : v = w := by
  apply BitVec.eq_of_getLsbD_eq
  intro i hi
  have hbit {lo k : Nat} (h : v.extractLsb' lo k = w.extractLsb' lo k) (hlo : lo ≤ i) (hk : i < lo + k) :
      v.getLsbD i = w.getLsbD i := by
    have := congrArg (fun x => x.getLsbD (i - lo)) h
    simpa [show i - lo < k by omega, show lo + (i - lo) = i by omega] using this
  rcases Nat.lt_or_ge i n with hn | hn
  · exact hbit hlow (Nat.zero_le i) (by omega)
  · rcases Nat.lt_or_ge i 12 with h12 | h12
    · exact hbit hmid hn (by omega)
    · exact hbit hop h12 hi

/-- A word with an `n`-bit operand under the opcode of `op` is the word `w` exactly when the three fields
agree. -/
theorem operandWord_eq_iff {n m : Nat} (hnm : n + m = 12) {op : CmdWord}
    (hzero : op.extractLsb' n m = 0#m) (hlow : op.extractLsb' 0 n = 0#n) (x : BitVec n) (w : CmdWord) :
    op ||| x.setWidth 16 = w ↔
      w.extractLsb' 12 4 = op.extractLsb' 12 4 ∧ w.extractLsb' n m = 0#m ∧ x = w.extractLsb' 0 n := by
  have hop : (op ||| x.setWidth 16).extractLsb' 12 4 = op.extractLsb' 12 4 := by
    rw [BitVec.extractLsb'_or, extractLsb'_setWidth_high (by omega), BitVec.or_zero]
  have hmid : (op ||| x.setWidth 16).extractLsb' n m = 0#m := by
    rw [BitVec.extractLsb'_or, extractLsb'_setWidth_high (Nat.le_refl n), hzero, BitVec.or_zero]
  have hx : (op ||| x.setWidth 16).extractLsb' 0 n = x := by
    rw [BitVec.extractLsb'_or, extractLsb'_setWidth_low (by omega), hlow, BitVec.zero_or]
  constructor
  · rintro rfl
    exact ⟨hop, hmid, hx.symm⟩
  · rintro ⟨hop', hmid', hx'⟩
    exact eq_of_fields hnm (hop.trans hop'.symm) (hmid.trans hmid'.symm) (hx.trans hx')

/-- A mask that takes the opcode and the zero field, and nothing of an `n`-bit operand, selects by those two
fields (R50). -/
theorem and_mask_eq_iff {n m : Nat} (hnm : n + m = 12) {op mask : CmdWord}
    (hzero : op.extractLsb' n m = 0#m) (hlow : op.extractLsb' 0 n = 0#n)
    (hmask_op : mask.extractLsb' 12 4 = BitVec.allOnes 4) (hmask_mid : mask.extractLsb' n m = BitVec.allOnes m)
    (hmask_low : mask.extractLsb' 0 n = 0#n) (w : CmdWord) :
    w &&& mask = op ↔ w.extractLsb' 12 4 = op.extractLsb' 12 4 ∧ w.extractLsb' n m = 0#m := by
  have hop : (w &&& mask).extractLsb' 12 4 = w.extractLsb' 12 4 := by
    rw [BitVec.extractLsb'_and, hmask_op, BitVec.and_allOnes]
  have hmid : (w &&& mask).extractLsb' n m = w.extractLsb' n m := by
    rw [BitVec.extractLsb'_and, hmask_mid, BitVec.and_allOnes]
  have hx : (w &&& mask).extractLsb' 0 n = 0#n := by
    rw [BitVec.extractLsb'_and, hmask_low, BitVec.and_zero]
  constructor
  · rintro rfl
    exact ⟨hop.symm, hmid.symm.trans hzero⟩
  · rintro ⟨hop', hmid'⟩
    exact eq_of_fields hnm (hop.trans hop') (hmid.trans (hmid'.trans hzero.symm)) (hx.trans hlow.symm)

theorem msgByte_word_iff (b : BitVec 8) (w : CmdWord) : encode (.msgByte b) = w ↔
    w.extractLsb' 12 4 = 4#4 ∧ w.extractLsb' 8 4 = 0#4 ∧ b = w.extractLsb' 0 8 :=
  operandWord_eq_iff (op := 0x4000#16) (m := 4) rfl rfl rfl b w

theorem keyByte_word_iff (b : BitVec 8) (w : CmdWord) : encode (.keyByte b) = w ↔
    w.extractLsb' 12 4 = 5#4 ∧ w.extractLsb' 8 4 = 0#4 ∧ b = w.extractLsb' 0 8 :=
  operandWord_eq_iff (op := 0x5000#16) (m := 4) rfl rfl rfl b w

theorem rdDigest_word_iff (idx : BitVec 3) (w : CmdWord) : encode (.rdDigest idx) = w ↔
    w.extractLsb' 12 4 = 7#4 ∧ w.extractLsb' 3 9 = 0#9 ∧ idx = w.extractLsb' 0 3 :=
  operandWord_eq_iff (op := 0x7000#16) (m := 9) rfl rfl rfl idx w

theorem wellFormed_rdDigest_iff (idx : BitVec 3) : (Instr.rdDigest idx).wellFormed = true ↔ idx.toNat ≤ 4 :=
  decide_eq_true_iff

/-! ### Decoding and encoding are inverse (R51) -/

/-- Decoding the word of a well-formed command gives the command back. -/
theorem decode_encode {i : Instr} (hi : i.wellFormed = true) : decode (encode i) = .command i := by
  cases i with
  | msgByte b =>
    obtain ⟨hop, hzero, hb⟩ := (msgByte_word_iff b _).1 rfl
    rw [decode, opField, hop]
    exact (decodeB_command_iff _ _ _).2 ⟨congrArg _ hb, hzero⟩
  | keyByte b => exact decode_encode_keyByte b
  | rdDigest idx =>
    obtain ⟨hop, hzero, hidx⟩ := (rdDigest_word_iff idx _).1 rfl
    have hle := (wellFormed_rdDigest_iff idx).1 hi
    rw [decode, opField, hop]
    exact (decodeI_command_iff _ _ _).2 ⟨congrArg _ hidx, hzero, (congrArg BitVec.toNat hidx) ▸ hle⟩
  | _ => rfl

theorem opField_eq_of_toNat {w : CmdWord} {k : Nat} (hop : (opField w).toNat = k) :
    w.extractLsb' 12 4 = BitVec.ofNat 4 k := by
  rw [← hop, BitVec.ofNat_toNat, BitVec.setWidth_eq, opField]

/-- A word that the decoder reads in format N as the command `j` is the word of `j`. -/
theorem encode_of_decodeN {i j : Instr} {w : CmdWord} {k : Nat} (hop : (opField w).toNat = k)
    (hj : encode j = BitVec.ofNat 4 k ++ 0#12) (hwf : j.wellFormed = true)
    (h : decodeN j w = .command i) : i.wellFormed = true ∧ encode i = w := by
  obtain ⟨rfl, hzero⟩ := (decodeN_command_iff i j w).1 h
  exact ⟨hwf, by rw [hj, ← opField_eq_of_toNat hop, ← hzero, word_fieldsN]⟩

/-- A word that decodes to a command is the word of that command, which is well formed. -/
theorem encode_of_decode {w : CmdWord} {i : Instr} (h : decode w = .command i) :
    i.wellFormed = true ∧ encode i = w := by
  unfold decode at h
  split at h
  case h_5 hop =>
    obtain ⟨rfl, hzero⟩ := (decodeB_command_iff _ _ _).1 h
    exact ⟨rfl, (msgByte_word_iff _ w).2 ⟨opField_eq_of_toNat hop, hzero, rfl⟩⟩
  case h_6 hop =>
    obtain ⟨rfl, hzero⟩ := (decodeB_command_iff _ _ _).1 h
    exact ⟨rfl, (keyByte_word_iff _ w).2 ⟨opField_eq_of_toNat hop, hzero, rfl⟩⟩
  case h_8 hop =>
    obtain ⟨rfl, hzero, hle⟩ := (decodeI_command_iff _ _ _).1 h
    exact ⟨(wellFormed_rdDigest_iff _).2 hle, (rdDigest_word_iff _ w).2 ⟨opField_eq_of_toNat hop, hzero, rfl⟩⟩
  case h_11 => cases h
  all_goals exact encode_of_decodeN ‹_› rfl rfl h

theorem decode_eq_command_iff (w : CmdWord) (i : Instr) :
    decode w = .command i ↔ i.wellFormed = true ∧ encode i = w := by
  constructor
  · exact encode_of_decode
  · rintro ⟨hi, rfl⟩
    exact decode_encode hi

/-- Settles O3: the words are those of `encode`, and the two round trips are `decode_encode` and
`encode_of_decode`. -/
theorem decodeEncodeAgree : Obligations.DecodeEncodeAgree :=
  ⟨⟨rfl, rfl, rfl, rfl, fun _ => rfl, fun _ => rfl, rfl, fun _ => rfl, rfl, rfl⟩,
    fun _ => decode_encode, fun _ _ => encode_of_decode⟩

/-! ### The rows of the opcode map (R50) -/

/-- A row without operand bits: the mask takes the whole word. -/
theorem decode_eq_command_iff_full_mask {i : Instr} (hi : i.wellFormed = true) (w : CmdWord) :
    decode w = .command i ↔ w &&& 0xFFFF#16 = encode i := by
  have hmask : w &&& 0xFFFF#16 = w := BitVec.and_allOnes
  rw [decode_eq_command_iff, hmask, eq_comm (a := w)]
  exact and_iff_right hi

/-- Settles O2: a word is a command's exactly when it equals the command's encoding, and the mask takes the
fields that the operand leaves fixed. -/
theorem decodeFollowsOpcodeMap : Obligations.DecodeFollowsOpcodeMap := by
  intro w
  have hmsg := and_mask_eq_iff (n := 8) (m := 4) (op := 0x4000#16) (mask := 0xFF00#16) rfl rfl rfl rfl rfl rfl w
  have hkey := and_mask_eq_iff (n := 8) (m := 4) (op := 0x5000#16) (mask := 0xFF00#16) rfl rfl rfl rfl rfl rfl w
  have hdigest := and_mask_eq_iff (n := 3) (m := 9) (op := 0x7000#16) (mask := 0xFFF8#16) rfl rfl rfl rfl rfl rfl w
  refine ⟨decode_eq_command_iff_full_mask rfl w, decode_eq_command_iff_full_mask rfl w,
    decode_eq_command_iff_full_mask rfl w, decode_eq_command_iff_full_mask rfl w, fun b => ?_, fun b => ?_,
    decode_eq_command_iff_full_mask rfl w, fun idx => ?_, decode_eq_command_iff_full_mask rfl w,
    decode_eq_command_iff_full_mask rfl w⟩
  · rw [decode_eq_command_iff, msgByte_word_iff, hmsg, and_assoc]
    exact and_iff_right rfl
  · rw [decode_eq_command_iff, keyByte_word_iff, hkey, and_assoc]
    exact and_iff_right rfl
  · rw [decode_eq_command_iff, wellFormed_rdDigest_iff, rdDigest_word_iff, hdigest]
    exact ⟨fun ⟨hle, hop, hzero, hidx⟩ => ⟨⟨hop, hzero⟩, hidx, hle⟩,
      fun ⟨⟨hop, hzero⟩, hidx, hle⟩ => ⟨hle, hop, hzero, hidx⟩⟩

end Sys2Proof.Machine
end

section
/-! SUPPORT. Which words are illegal, what accepting one does (30_encoding.md R52 to R54), and the count of the
legal words (R59). -/

namespace Sys2Proof.Machine

/-! ### Accepting an illegal word -/

/-- Outside `ERROR` an illegal word is error entry with `ILLEGAL_CMD` (60_exceptions.md R117). -/
theorem accept_illegal_of_ne_error {w : CmdWord} {why : Illegal} {s : State} (h : decode w = .illegal why)
    (hs : s.phase ≠ .error) : s.accept w = .next { s with errcode := .illegalCmd, phase := .error } := by
  rw [accept_illegal s h, State.illegalWord, if_neg hs]
  rfl

/-- In `ERROR` an illegal word is ignored (R123). -/
theorem accept_illegal_of_error {w : CmdWord} {why : Illegal} {s : State} (h : decode w = .illegal why)
    (hs : s.phase = .error) : s.accept w = .next s := by
  rw [accept_illegal s h, State.illegalWord, if_pos hs]

/-! ### The format of each opcode (R47 to R49) -/

theorem decode_formatN {w : CmdWord} (hop : (opField w).toNat ∈ [0x0, 0x1, 0x2, 0x3, 0x6, 0x8, 0xF]) :
    ∃ i, decode w = decodeN i w := by
  unfold decode
  generalize (opField w).toNat = op at hop
  fin_cases hop <;> exact ⟨_, rfl⟩

theorem decode_formatB {w : CmdWord} (hop : (opField w).toNat ∈ [0x4, 0x5]) : ∃ i, decode w = decodeB i w := by
  unfold decode
  generalize (opField w).toNat = op at hop
  fin_cases hop <;> exact ⟨_, rfl⟩

theorem decode_formatI {w : CmdWord} (hop : (opField w).toNat = 0x7) : decode w = decodeI .rdDigest w := by
  simp only [decode, hop]

theorem decode_reservedOpcode {w : CmdWord} (hlo : 9 ≤ (opField w).toNat) (hhi : (opField w).toNat ≤ 14) :
    decode w = .illegal .reservedOpcode := by
  unfold decode
  generalize (opField w).toNat = op at hlo hhi
  interval_cases op <;> rfl

/-- Settles O4: the decoder knows no command with such an opcode, and the word is accepted as an illegal one. -/
theorem reservedOpcodesAreIllegal : Obligations.ReservedOpcodesAreIllegal := by
  intro w hlo hhi
  have hdecode := decode_reservedOpcode hlo hhi
  exact ⟨hdecode, fun _ hs => accept_illegal_of_ne_error hdecode hs⟩

/-- Settles O5: the opcode fixes the format, and each format checks its own zero field. -/
theorem reservedBitsAreIllegal : Obligations.ReservedBitsAreIllegal := by
  intro w
  refine ⟨fun hop hzero => ?_, fun hop hzero => ?_, fun hop hzero => ?_⟩
  · obtain ⟨i, hdecode⟩ := decode_formatN hop
    exact hdecode.trans (if_neg hzero)
  · obtain ⟨i, hdecode⟩ := decode_formatB hop
    exact hdecode.trans (if_neg hzero)
  · exact (decode_formatI hop).trans (if_neg hzero)

theorem decode_indexOutOfRange {idx : BitVec 3} (hidx : 5 ≤ idx.toNat) :
    decode (encode (.rdDigest idx)) = .illegal .indexOutOfRange := by
  obtain ⟨hop, hzero, hfield⟩ := (rdDigest_word_iff idx _).1 rfl
  have hout : ¬ (idxField (encode (.rdDigest idx))).toNat ≤ 4 := by
    rw [idxField, ← hfield]
    omega
  rw [decode_formatI (congrArg BitVec.toNat hop), decodeI, if_pos hzero, if_neg hout]

/-- Settles O6: the decoder refuses the index before the phase is looked at. -/
theorem digestIndexOutOfRangeIsIllegal : Obligations.DigestIndexOutOfRangeIsIllegal := by
  intro idx hidx
  have hdecode := decode_indexOutOfRange hidx
  exact ⟨hdecode, fun _ => ⟨accept_illegal_of_ne_error hdecode, accept_illegal_of_error hdecode⟩⟩

/-! ### The legal words (R59) -/

/-- The 256 byte operands. -/
def allBytes : List Byte := (List.finRange 256).map BitVec.ofFin

theorem mem_allBytes (b : Byte) : b ∈ allBytes :=
  List.mem_map.2 ⟨b.toFin, List.mem_finRange _, rfl⟩

theorem nodup_allBytes : allBytes.Nodup :=
  (List.nodup_finRange 256).map fun _ _ h => congrArg BitVec.toFin h

/-- The commands of format N (R47). -/
def operandlessCommands : List Instr :=
  [.nop, .shaInit, .hmacInit, .keyEnd, .final, .rdStatus, .reset]

/-- Every well-formed command, once. -/
def legalCommands : List Instr :=
  operandlessCommands ++ readDigestAll ++ (allBytes.map .msgByte ++ allBytes.map .keyByte)

theorem length_legalCommands : legalCommands.length = 524 := by
  simp [legalCommands, operandlessCommands, readDigestAll, allBytes]

theorem nodup_legalCommands : legalCommands.Nodup := by
  have hmsg : (allBytes.map Instr.msgByte).Nodup := nodup_allBytes.map fun _ _ => Instr.msgByte.inj
  have hkey : (allBytes.map Instr.keyByte).Nodup := nodup_allBytes.map fun _ _ => Instr.keyByte.inj
  have hrest : (operandlessCommands ++ readDigestAll).Nodup := by decide
  refine hrest.append (hmsg.append hkey ?_) ?_
  · simp [List.disjoint_left]
  · simp [List.disjoint_left, operandlessCommands, readDigestAll]

theorem mem_readDigestAll_iff :
    ∀ idx : BitVec 3, .rdDigest idx ∈ readDigestAll ↔ (Instr.rdDigest idx).wellFormed = true := by
  decide

theorem mem_legalCommands_iff (i : Instr) : i ∈ legalCommands ↔ i.wellFormed = true := by
  cases i with
  | rdDigest idx => simp [legalCommands, operandlessCommands, mem_readDigestAll_iff]
  | msgByte b => simp [legalCommands, mem_allBytes, Instr.wellFormed]
  | keyByte b => simp [legalCommands, mem_allBytes, Instr.wellFormed]
  | _ => exact iff_of_true (List.mem_append_left _ (List.mem_append_left _ (by decide))) rfl

theorem isLegalWord_iff (w : CmdWord) :
    isLegalWord w = true ↔ ∃ i : Instr, i.wellFormed = true ∧ encode i = w := by
  simp only [← decode_eq_command_iff, isLegalWord]
  cases decode w <;> simp

theorem encode_inj_of_wellFormed {i j : Instr} (hi : i.wellFormed = true) (hj : j.wellFormed = true)
    (h : encode i = encode j) : i = j :=
  Decoded.command.inj ((decode_encode hi).symm.trans ((congrArg decode h).trans (decode_encode hj)))

/-- Settles O7: the legal words are the words of the well-formed commands, of which no two share one. -/
theorem legalWordCount : Obligations.LegalWordCount := by
  refine ⟨programWords legalCommands, ?_, ?_, fun w => ?_⟩
  · rw [programWords, List.length_map, length_legalCommands]
  · exact nodup_legalCommands.map_on fun i hi j hj =>
      encode_inj_of_wellFormed ((mem_legalCommands_iff i).1 hi) ((mem_legalCommands_iff j).1 hj)
  · simp only [isLegalWord_iff, programWords, List.mem_map, mem_legalCommands_iff]

end Sys2Proof.Machine
end

section
/-! SUPPORT. What the assembler gives for each line of 30_encoding.md R57 and R58, and that it gives nothing
but well-formed commands. -/

namespace Sys2Proof.Machine

/-! ### Lines that are accepted -/

theorem restIsBlank_dropWhile (t : List Char) :
    restIsBlank (t.dropWhile (· == ' ')) = restIsBlank t := by
  induction t with
  | nil => rfl
  | cons c cs ih =>
    by_cases hc : c = ' '
    · simpa [hc, restIsBlank] using ih
    · simp [hc]

theorem assembleLine_blank {tail : List Char} (h : LineEnd tail) : assembleLine tail = some [] :=
  if_pos ((restIsBlank_dropWhile tail).trans (restIsBlank_lineEnd h))

/-- A mnemonic alone on its line. -/
theorem assembleLine_alone {c : Char} {cs tail : List Char} {is : List Instr} (h : LineEnd tail)
    (hw : (c :: cs).all isMnemonicChar = true)
    (hm : assembleMnemonic (c :: cs) tail = finishLine is tail) : assembleLine (c :: cs ++ tail) = some is :=
  (assembleLine_word hw (lineEnd_not_mnemonic h)).trans (hm.trans (finishLine_lineEnd is h))

/-- A mnemonic with an operand after one space. -/
theorem assembleLine_operand {word : List Char} (hne : word ≠ []) (hw : word.all isMnemonicChar = true)
    (rest : List Char) : assembleLine (word ++ ' ' :: rest) = assembleMnemonic word (' ' :: rest) := by
  obtain ⟨c, cs, rfl⟩ := List.exists_cons_of_ne_nil hne
  exact assembleLine_word hw (.inr ⟨' ', rest, rfl, by decide⟩)

theorem byteLine_text (i : Byte → Instr) {t tail : List Char} {b : Byte} (ht : ByteText t b)
    (h : LineEnd tail) : byteLine i (' ' :: (t ++ tail)) = some [i b] := by
  simp [byteLine, readByte_text tail ht (lineEnd_cases h), finishLine_lineEnd _ h]

theorem bytesLine_text (f : List Byte → List Instr) {t tail : List Char} {m : List Byte} (ht : BytesText t m)
    (h : LineEnd tail) : bytesLine f (' ' :: (t ++ tail)) = some (f m) := by
  simp [bytesLine, readBytes_text tail ht (lineEnd_stop h), finishLine_lineEnd _ h]

theorem hmacLine_text {tk tm tail : List Char} {k m : List Byte} (hk : BytesText tk k) (hm : BytesText tm m)
    (h : LineEnd tail) : hmacLine (' ' :: (tk ++ ',' :: ' ' :: (tm ++ tail))) = some (hmacProgram k m) := by
  have hcomma := readBytes_text (',' :: ' ' :: (tm ++ tail)) hk (.inr ⟨',', _, rfl, by simp⟩)
  simp [hmacLine, hcomma, readBytes_text tail hm (lineEnd_stop h), finishLine_lineEnd _ h]

theorem decDigit_digitChar {d : Nat} (hd : d ≤ 9) : decDigit? (Nat.digitChar d) = some d := by
  interval_cases d <;> rfl

theorem indexLine_digit {d : Nat} (hd : d ≤ 4) {tail : List Char} (h : LineEnd tail) :
    indexLine (' ' :: Nat.digitChar d :: tail) = some [.rdDigest (BitVec.ofNat 3 d)] := by
  simp [indexLine, readIndex, decDigit_digitChar (show d ≤ 9 by omega), hd, finishLine_lineEnd _ h]

theorem indexLine_digit_out_of_range {d : Nat} (hlo : 5 ≤ d) (hhi : d ≤ 9) (tail : List Char) :
    indexLine (' ' :: Nat.digitChar d :: tail) = none := by
  simp [indexLine, readIndex, decDigit_digitChar hhi, show ¬ d ≤ 4 by omega]

/-! ### What is accepted is well formed -/

/-- If a reader accepts, every command it gives is well formed. -/
def GivesWellFormed (result : Option (List Instr)) : Prop :=
  ∀ is, result = some is → ∀ i ∈ is, i.wellFormed = true

theorem givesWellFormed_none : GivesWellFormed none := nofun

theorem givesWellFormed_some {is : List Instr} (h : ∀ i ∈ is, i.wellFormed = true) :
    GivesWellFormed (some is) :=
  fun _ hjs => Option.some.inj hjs ▸ h

theorem GivesWellFormed.ite {p : Prop} [Decidable p] {a b : Option (List Instr)} (ha : GivesWellFormed a)
    (hb : GivesWellFormed b) : GivesWellFormed (if p then a else b) := by
  split
  · exact ha
  · exact hb

theorem GivesWellFormed.bind {α : Type} {o : Option α} {f : α → Option (List Instr)}
    (h : ∀ x, o = some x → GivesWellFormed (f x)) : GivesWellFormed (o.bind f) := by
  cases o with
  | none => exact givesWellFormed_none
  | some x => exact h x rfl

theorem finishLine_givesWellFormed {is : List Instr} (h : ∀ i ∈ is, i.wellFormed = true) (rest : List Char) :
    GivesWellFormed (finishLine is rest) :=
  (givesWellFormed_some h).ite givesWellFormed_none

theorem byteLine_givesWellFormed {f : Byte → Instr} (hf : ∀ b, (f b).wellFormed = true) (cs : List Char) :
    GivesWellFormed (byteLine f cs) := by
  unfold byteLine
  split
  · exact .bind fun p _ => finishLine_givesWellFormed (by simp [hf]) p.2
  · exact givesWellFormed_none

theorem bytesLine_givesWellFormed {f : List Byte → List Instr} (hf : ∀ m, ∀ i ∈ f m, i.wellFormed = true)
    (cs : List Char) : GivesWellFormed (bytesLine f cs) := by
  unfold bytesLine
  split
  · exact .bind fun p _ => finishLine_givesWellFormed (hf p.1) p.2
  · exact givesWellFormed_none

/-- An index that is read is at most 4. -/
theorem readIndex_le {cs : List Char} {p : BitVec 3 × List Char} (h : readIndex cs = some p) :
    p.1.toNat ≤ 4 := by
  cases cs with
  | nil => cases h
  | cons c cs =>
    obtain ⟨d, -, hd⟩ := Option.bind_eq_some_iff.1 h
    obtain ⟨hle, hp⟩ := Option.ite_none_right_eq_some.1 hd
    rw [← Option.some.inj hp, BitVec.toNat_ofNat]
    omega

theorem indexLine_givesWellFormed (cs : List Char) : GivesWellFormed (indexLine cs) := by
  unfold indexLine
  split
  · refine .bind fun p hread => finishLine_givesWellFormed ?_ p.2
    simpa [wellFormed_rdDigest_iff] using readIndex_le hread
  · exact givesWellFormed_none

theorem msgProgram_wellFormed (m : List Byte) : ∀ i ∈ msgProgram m, i.wellFormed = true := by
  simp [msgProgram, Instr.wellFormed]

theorem keyProgram_wellFormed (k : List Byte) : ∀ i ∈ keyProgram k, i.wellFormed = true := by
  simp [keyProgram, Instr.wellFormed]

theorem sha1Program_wellFormed (m : List Byte) : ∀ i ∈ sha1Program m, i.wellFormed = true :=
  List.forall_mem_cons.2 ⟨rfl, List.forall_mem_append.2 ⟨msgProgram_wellFormed m, by decide⟩⟩

theorem hmacProgram_wellFormed (k m : List Byte) : ∀ i ∈ hmacProgram k m, i.wellFormed = true :=
  List.forall_mem_cons.2 ⟨rfl, List.forall_mem_append.2 ⟨keyProgram_wellFormed k,
    List.forall_mem_cons.2 ⟨rfl, List.forall_mem_append.2 ⟨msgProgram_wellFormed m, by decide⟩⟩⟩⟩

theorem hmacLine_givesWellFormed (cs : List Char) : GivesWellFormed (hmacLine cs) := by
  unfold hmacLine
  split
  · refine .bind fun k _ => ?_
    split
    · exact .bind fun m _ => finishLine_givesWellFormed (hmacProgram_wellFormed k.1 m.1) m.2
    · exact givesWellFormed_none
  · exact givesWellFormed_none

/-- Mnemonic by mnemonic, in the order of `assembleMnemonic`. -/
theorem assembleMnemonic_givesWellFormed (word rest : List Char) :
    GivesWellFormed (assembleMnemonic word rest) :=
  .ite (finishLine_givesWellFormed (by decide) rest) <|
  .ite (finishLine_givesWellFormed (by decide) rest) <|
  .ite (finishLine_givesWellFormed (by decide) rest) <|
  .ite (finishLine_givesWellFormed (by decide) rest) <|
  .ite (byteLine_givesWellFormed (fun _ => rfl) rest) <|
  .ite (byteLine_givesWellFormed (fun _ => rfl) rest) <|
  .ite (finishLine_givesWellFormed (by decide) rest) <|
  .ite (indexLine_givesWellFormed rest) <|
  .ite (finishLine_givesWellFormed (by decide) rest) <|
  .ite (finishLine_givesWellFormed (by decide) rest) <|
  .ite (bytesLine_givesWellFormed msgProgram_wellFormed rest) <|
  .ite (bytesLine_givesWellFormed keyProgram_wellFormed rest) <|
  .ite (bytesLine_givesWellFormed sha1Program_wellFormed rest) <|
  .ite (hmacLine_givesWellFormed rest) <|
  .ite (finishLine_givesWellFormed (by decide) rest) givesWellFormed_none

theorem assembleLine_givesWellFormed (line : List Char) : GivesWellFormed (assembleLine line) :=
  .ite (givesWellFormed_some (by simp)) (assembleMnemonic_givesWellFormed _ _)

/-- Settles O60: a line is read by its mnemonic, the operand by the reader of its form, and no reader gives a
command that is not well formed. -/
theorem assembledCommandsAreWellFormed : Obligations.AssembledCommandsAreWellFormed := by
  refine ⟨fun tail h => ⟨assembleLine_blank h, assembleLine_alone h rfl rfl, assembleLine_alone h rfl rfl,
    assembleLine_alone h rfl rfl, assembleLine_alone h rfl rfl, assembleLine_alone h rfl rfl,
    assembleLine_alone h rfl rfl, assembleLine_alone h rfl rfl, fun t b ht => ⟨?_, ?_⟩, fun d hd => ?_,
    fun d hlo hhi => ?_, fun t m ht => ⟨?_, ?_, ?_⟩, fun tk tm k m hk hm => ?_,
    assembleLine_alone h rfl rfl⟩, assembleLine_givesWellFormed⟩
  · exact (assembleLine_operand (word := "MSG_BYTE".toList) nofun rfl _).trans (byteLine_text .msgByte ht h)
  · exact (assembleLine_operand (word := "KEY_BYTE".toList) nofun rfl _).trans (byteLine_text .keyByte ht h)
  · exact (assembleLine_operand (word := "RD_DIGEST".toList) nofun rfl _).trans (indexLine_digit hd h)
  · exact (assembleLine_operand (word := "RD_DIGEST".toList) nofun rfl _).trans
      (indexLine_digit_out_of_range hlo hhi tail)
  · exact (assembleLine_operand (word := "MSG".toList) nofun rfl _).trans (bytesLine_text msgProgram ht h)
  · exact (assembleLine_operand (word := "KEY".toList) nofun rfl _).trans (bytesLine_text keyProgram ht h)
  · exact (assembleLine_operand (word := "SHA1".toList) nofun rfl _).trans (bytesLine_text sha1Program ht h)
  · have hline := (assembleLine_operand (word := "HMAC".toList) nofun rfl _).trans (hmacLine_text hk hm h)
    simpa [hmacProgram, keyProgram, msgProgram] using hline

end Sys2Proof.Machine
end

section
/-! SUPPORT. The streaming form and the pure functions (40_sha1_datapath.md section 6): what `Absorb` of a whole
message leaves, the shape of the padding, the domains of `SHA1` and `HMAC`, and the order of the digest's bytes. -/

namespace Sys2Proof.Machine

/-! ### `Absorb` of a message -/

/-- Bytes that fit under the bound of R72 join the hash in progress, and are counted. -/
theorem absorbAll_streams {s : State} {p : List Byte} (hs : Streams s p) (hlen : s.len.toNat = p.length)
    (m : List Byte) (hfit : p.length + m.length ≤ Config.maxBytes) :
    ∃ t : State, State.absorbAll m s = .ok t ∧ Streams t (p ++ m) ∧ t.len.toNat = (p ++ m).length := by
  refine ⟨_, absorbAll_ok m s (by omega), (streams_setLen _ _ _).2 (streams_absorbRawAll m hs), ?_⟩
  have hmax : Config.maxBytes = 2 ^ 61 - 1 := rfl
  simp only [setLen_len, BitVec.toNat_add, BitVec.toNat_ofNat, List.length_append, hlen]
  omega

/-- Settles O16: `HashStart` begins a hash of no bytes, `Absorb` of each byte of `m` makes it the hash of `m`, and
`Finalize` ends it with the digest of what it has absorbed and counted. -/
theorem streamingEqualsSha1 : Obligations.StreamingEqualsSha1 := by
  intro s m hm
  obtain ⟨t, habsorb, hstreams, hcount⟩ :=
    absorbAll_streams (streams_hashStart s) rfl m (by simpa [Config.maxBytes] using hm)
  exact ⟨t, habsorb, sha1_of_streams hstreams hcount⟩

/-! ### The padding -/

theorem padZeros_le (L : Nat) : padZeros L ≤ 63 := by
  unfold padZeros; omega

/-- The zero bytes bring the padded message to 8 bytes before the end of a block. -/
theorem padZeros_fill (L : Nat) : (L + 1 + padZeros L) % 64 = 56 := by
  unfold padZeros; omega

theorem padZeros_least (L y : Nat) (hy : (L + 1 + y) % 64 = 56) : padZeros L ≤ y := by
  unfold padZeros; omega

theorem length_pad (L : Nat) : (pad L).length = padZeros L + 9 := by
  simp [pad]

/-- The bit length does not wrap: the bound of R3 is chosen so. -/
theorem toNat_bitLength {n : Nat} (hn : n ≤ 2 ^ 61 - 1) : (BitVec.ofNat 64 (8 * n)).toNat = 8 * n := by
  rw [BitVec.toNat_ofNat]; omega

/-- Settles O14: `padZeros` is the least filling, the bit length fits its 64 bits up to `MAX_BYTES`, and the
length of the padding is one more than `z` and the eight bytes of the length field. -/
theorem paddingShape : Obligations.PaddingShape := by
  intro L hL
  have hle := padZeros_le L
  have hfill := padZeros_fill L
  refine ⟨padZeros L, hle, hfill, padZeros_least L, rfl, toNat_bitLength hL, ?_, ?_⟩
  · rw [length_pad]; omega
  · rw [length_pad]; omega

/-! ### `Finalize` -/

/-- `Finalize` computes the bit length of R74 on machine words. -/
theorem bitLength_eq (n : BitVec 61) : 8#64 * n.setWidth 64 = BitVec.ofNat 64 (8 * n.toNat) := by
  apply BitVec.eq_of_toNat_eq
  simp [BitVec.toNat_mul]

/-- When `IDX = LEN mod 64`, the filling that `IDX` asks for is the one that `LEN` asks for (R74, R75). -/
theorem finalize_eq_pad (s : State) (hidx : s.idx.toNat = s.len.toNat % 64) :
    s.finalize = s.absorbRawAll (pad s.len.toNat) := by
  have hle := padZeros_le s.len.toNat
  have hfill := padZeros_fill s.len.toNat
  rw [finalize_eq s (padZeros s.len.toNat) (by omega) (by omega), bitLength_eq]
  rfl

/-- Settles O15: the loop absorbs the zero bytes that `IDX` asks for, and the blocks are counted from where `IDX`
stood. -/
theorem finalizePadsWhatWasAbsorbed : Obligations.FinalizePadsWhatWasAbsorbed := by
  intro s
  obtain ⟨z, hz, hz64⟩ := exists_zeros s
  have hidx := s.idx.isLt
  have hlen := s.len.isLt
  refine ⟨⟨z, by omega, hz, ?_, toNat_bitLength (by omega), ?_⟩, finalize_idx s, finalize_len s, finalize_kblk s,
    finalize_eq_pad s⟩
  · rw [finalize_eq s z hz hz64, bitLength_eq]
  · split <;> omega

/-! ### The domains of `SHA1` and `HMAC` -/

theorem sha1_isSome_iff (m : List Byte) : (sha1 m).isSome = true ↔ m.length ≤ Config.maxBytes := by
  unfold sha1
  split
  · next hle => simpa using hle
  · next hgt => simpa using hgt

theorem length_of_sha1 {m d : List Byte} (h : sha1 m = some d) : d.length = 20 := by
  unfold sha1 at h
  split at h
  · rw [← Option.some.inj h, length_digestOf]
  · cases h

/-- A key of at most 64 bytes always has a block, a longer one when it has a digest (R91). -/
theorem keyBlock_isSome_iff (k : List Byte) : (keyBlock k).isSome = true ↔ k.length ≤ Config.maxBytes := by
  unfold keyBlock
  split
  · rw [Option.isSome_map, sha1_isSome_iff]
  · next hshort =>
    have hmax : Config.maxBytes = 2 ^ 61 - 1 := rfl
    simp only [Option.isSome_some, true_iff]
    omega

/-- The outer message is 84 bytes long, so an inner digest always has an outer one (R90). -/
theorem exists_outer_digest (kb : Vector Byte 64) {m inner : List Byte} (h : sha1 m = some inner) :
    ∃ d, sha1 (xorPad kb Config.opadByte ++ inner) = some d := by
  apply Option.isSome_iff_exists.1
  rw [sha1_isSome_iff, List.length_append, length_xorPad, length_of_sha1 h]
  decide

/-- The pad block leaves 64 bytes less to the message (R90). -/
theorem sha1_padded_isSome_iff (kb : Vector Byte 64) (x : Byte) (m : List Byte) :
    (sha1 (xorPad kb x ++ m)).isSome = true ↔ m.length ≤ Config.maxBytes - 64 := by
  have hmax : Config.maxBytes = 2 ^ 61 - 1 := rfl
  rw [sha1_isSome_iff, List.length_append, length_xorPad]
  omega

theorem hmac_isSome_iff (k m : List Byte) :
    (hmac k m).isSome = true ↔ k.length ≤ Config.maxBytes ∧ m.length ≤ Config.maxBytes - 64 := by
  rw [← keyBlock_isSome_iff]
  cases hkey : keyBlock k with
  | none => simp [hmac, hkey]
  | some kb =>
    rw [← sha1_padded_isSome_iff kb Config.ipadByte]
    cases hinner : sha1 (xorPad kb Config.ipadByte ++ m) with
    | none => simp [hmac, hkey, hinner]
    | some inner =>
      obtain ⟨d, hd⟩ := exists_outer_digest kb hinner
      simp [hmac, hkey, hinner, hd]

/-- A value of `HMAC` is a value of `SHA1`, on the outer message. -/
theorem length_of_hmac {k m d : List Byte} (h : hmac k m = some d) : d.length = 20 := by
  obtain ⟨kb, -, hkb⟩ := Option.bind_eq_some_iff.1 h
  obtain ⟨inner, -, houter⟩ := Option.bind_eq_some_iff.1 hkb
  exact length_of_sha1 houter

/-- Settles O19: `HMAC` has a value where the key has a block and the inner message a digest. -/
theorem hashFunctionsDomain : Obligations.HashFunctionsDomain :=
  ⟨sha1_isSome_iff, fun _ _ => length_of_sha1, hmac_isSome_iff, fun _ _ _ => length_of_hmac⟩

/-! ### The digest -/

theorem be32_getElem? (x : Word) (k : Nat) (hk : k < 4) :
    (be32 x)[k]? = some (x.extractLsb' (24 - 8 * k) 8) := by
  match k, hk with
  | 0, _ | 1, _ | 2, _ | 3, _ => rfl

/-- Words written out one after the other: byte `4 i + k` is byte `k` of word `i`. -/
theorem flatMap_be32_getElem? (ws : List Word) (i k : Nat) (hk : k < 4) :
    (ws.flatMap be32)[4 * i + k]? = ws[i]?.map fun x => x.extractLsb' (24 - 8 * k) 8 := by
  induction ws generalizing i with
  | nil => rfl
  | cons x ws ih =>
    have hlen : (be32 x).length = 4 := rfl
    cases i with
    | zero =>
      rw [List.flatMap_cons, Nat.mul_zero, Nat.zero_add, List.getElem?_append_left hk, be32_getElem? x k hk]
      rfl
    | succ i =>
      rw [List.flatMap_cons, List.getElem?_append_right (by omega), hlen,
        show 4 * (i + 1) + k - 4 = 4 * i + k by omega, ih]
      rfl

/-- Settles O17: the digest is the words of `H` written out one after the other. -/
theorem digestBytesBigEndian : Obligations.DigestBytesBigEndian := by
  intro s
  refine ⟨length_digestOf s.h, fun i k hi hk => ?_⟩
  rw [State.digestBytes, digestOf, flatMap_be32_getElem? _ i k hk]
  simp [hi]

/-! ### The published digests -/

/-- R79 (c): the digest of the empty message. -/
theorem sha1_empty : sha1 [] = some [0xda#8, 0x39#8, 0xa3#8, 0xee#8, 0x5e#8, 0x6b#8, 0x4b#8, 0x0d#8, 0x32#8,
    0x55#8, 0xbf#8, 0xef#8, 0x95#8, 0x60#8, 0x18#8, 0x90#8, 0xaf#8, 0xd8#8, 0x07#8, 0x09#8] := by
  decide +kernel

/-- R79 (d): the digest of `abc`. -/
theorem sha1_abc : sha1 [0x61#8, 0x62#8, 0x63#8] = some [0xa9#8, 0x99#8, 0x3e#8, 0x36#8, 0x47#8, 0x06#8,
    0x81#8, 0x6a#8, 0xba#8, 0x3e#8, 0x25#8, 0x71#8, 0x78#8, 0x50#8, 0xc2#8, 0x6c#8, 0x9c#8, 0xd0#8, 0xd8#8,
    0x9d#8] := by
  decide +kernel

/-- R100 (a): RFC 2202 case 1, the key of twenty bytes 0x0b and the message `Hi There`. -/
theorem hmac_rfc2202_case1 : hmac (List.replicate 20 0x0b#8)
    [0x48#8, 0x69#8, 0x20#8, 0x54#8, 0x68#8, 0x65#8, 0x72#8, 0x65#8] =
    some [0xb6#8, 0x17#8, 0x31#8, 0x86#8, 0x55#8, 0x05#8, 0x72#8, 0x64#8, 0xe2#8, 0x8b#8, 0xc0#8, 0xb6#8,
      0xfb#8, 0x37#8, 0x8c#8, 0x8e#8, 0xf1#8, 0x46#8, 0xbe#8, 0x00#8] := by
  decide +kernel

/-- Settles O18: the kernel computes the three digests. -/
theorem publishedDigests : Obligations.PublishedDigests := ⟨sha1_empty, sha1_abc, hmac_rfc2202_case1⟩

end Sys2Proof.Machine
end

section
/-! SUPPORT. The datapath word by word (40_sha1_datapath.md sections 1 to 5): rotation, the round functions and
their bands, one compression, and the absorption of one byte. -/

namespace Sys2Proof.Machine

/-! ### Rotation and the round functions -/

/-- For the amounts R61 allows, `ROTL` is the library's rotation. -/
theorem rotl_eq_rotateLeft (x : Word) (n : Nat) (hn : n ≤ 31) : rotl x n = x.rotateLeft n :=
  (BitVec.rotateLeft_eq_rotateLeftAux_of_lt (by omega)).symm

/-- Bits that leave at the top come in at the bottom (R61). -/
theorem rotl_getLsbD (x : Word) (n i : Nat) (hn : n ≤ 31) (hi : i < 32) :
    (rotl x n).getLsbD ((i + n) % 32) = x.getLsbD i := by
  rw [rotl_eq_rotateLeft x n hn, BitVec.getLsbD_rotateLeft, Nat.mod_eq_of_lt (by omega : n < 32)]
  by_cases hwrap : i + n < 32
  · have hge : ¬ i + n < n := by omega
    simp [Nat.mod_eq_of_lt hwrap, hge, hwrap]
  · have hmod : (i + n) % 32 = i + n - 32 := by omega
    have hlt : i + n - 32 < n := by omega
    have hback : 32 - n + (i + n - 32) = i := by omega
    simp [hmod, hlt, hback]

/-- A multiplexer: where a bit of `b` is set it takes `c`'s, else `d`'s (R63). -/
theorem ch_eq_xor (b c d : Word) : ch b c d = d ^^^ (b &&& (c ^^^ d)) := by
  ext i hi
  cases hb : b[i] <;> cases hd : d[i] <;> simp [ch, hb, hd]

theorem maj_eq_or (b c d : Word) : maj b c d = (b &&& c) ||| (d &&& (b ||| c)) := by
  ext i hi
  cases hd : d[i] <;> simp [maj, hd, Bool.or_assoc]

theorem maj_eq_xor (b c d : Word) : maj b c d = (b &&& c) ^^^ (b &&& d) ^^^ (c &&& d) := by
  ext i hi
  cases hb : b[i] <;> cases hd : d[i] <;> simp [maj, hb, hd]

/-! ### The four bands of R63 and R64 -/

section bands

variable {t : Nat} (b c d : Word)

theorem band_ch (ht : t ≤ 19) : roundF t b c d = ch b c d ∧ roundK t = 0x5A827999#32 := by
  have hband : t / 20 = 0 := by omega
  simp [roundF, roundK, hband]

theorem band_parity_low (hlo : 20 ≤ t) (hhi : t ≤ 39) :
    roundF t b c d = parity b c d ∧ roundK t = 0x6ED9EBA1#32 := by
  have hband : t / 20 = 1 := by omega
  simp [roundF, roundK, hband]

theorem band_maj (hlo : 40 ≤ t) (hhi : t ≤ 59) : roundF t b c d = maj b c d ∧ roundK t = 0x8F1BBCDC#32 := by
  have hband : t / 20 = 2 := by omega
  simp [roundF, roundK, hband]

theorem band_parity_high (hlo : 60 ≤ t) (hhi : t < 80) :
    roundF t b c d = parity b c d ∧ roundK t = 0xCA62C1D6#32 := by
  have hband : t / 20 = 3 := by omega
  simp [roundF, roundK, hband]

end bands

/-- Settles O8: bit by bit for the words, by the band `t div 20` for the rounds; the round update is
`roundStep`. -/
theorem rotationAndRoundFunctions : Obligations.RotationAndRoundFunctions :=
  ⟨fun x n i _ hn hi => rotl_getLsbD x n i hn hi, ch_eq_xor, maj_eq_or, maj_eq_xor,
    fun _ b c d ht => ⟨band_ch b c d, band_parity_low b c d, band_maj b c d,
      fun hlo => band_parity_high b c d hlo ht⟩,
    fun _ _ => rfl, fun _ _ _ _ _ _ _ _ _ => rfl⟩

/-! ### One compression, one byte -/

/-- Settles O12: each register of `Compress` as its law in Laws/State gives it; the list of eighty words is what
`W` holds. -/
theorem compressFoldsAndFrame : Obligations.CompressFoldsAndFrame := by
  intro s
  exact ⟨compress_w s, compress_work s, compress_h s, compress_blk s, compress_idx s, compress_len s,
    compress_kblk s, compress_phase s, compress_errcode s, ⟨compress_rsp s, compress_taken s, compress_host s⟩⟩

/-- Settles O13: `AbsorbRaw` by whether the byte is the 64th, `Absorb` by whether `LEN` stands at the bound, and
the two internal uses are far below it. -/
theorem absorbCountsOrRejects : Obligations.AbsorbCountsOrRejects := by
  refine ⟨fun s b => ⟨absorbRaw_open s b, absorbRaw_full s b⟩,
    fun s b => ⟨absorb_full s b, fun hlen => ⟨?_, ?_⟩⟩, fun s x => ⟨_, startPadded_ok s x⟩, hmacFinish_isOk⟩
  · rw [absorb_ok s b hlen, ← absorbRaw_setLen]
    rfl
  · rw [absorbRaw_len]
    exact toNat_len_add_one hlen

end Sys2Proof.Machine
end

section
/-! SUPPORT. The SHA-1 commands one by one (41_sha1_commands.md R80 to R82), and what the byte commands and the
commands that start or finish a hash leave alone. -/

namespace Sys2Proof.Machine

/-! ### The commands -/

theorem exec_shaInit_of_error {s : State} (he : s.phase = .error) : exec .shaInit s = .next s :=
  exec_ignored _ s (by rw [he]; rfl) nofun

/-- Settles O20: the first `SHA_INIT` leaves what a second one writes. -/
theorem shaInitBeginsHash : Obligations.ShaInitBeginsHash := by
  refine ⟨rfl, fun s => ⟨exec_shaInit s, exec_shaInit_of_error, fun t h => ?_⟩⟩
  by_cases he : s.phase = .error
  · rw [exec_shaInit_of_error he] at h
    exact Host.Outcome.next.inj h ▸ exec_shaInit_of_error he
  · rw [exec_shaInit s he] at h
    rw [← Host.Outcome.next.inj h]
    exact exec_shaInit _ nofun

/-- Below the bound of R81 the byte is absorbed and counted. -/
theorem exec_msgByte_absorbs {s : State} (b : Byte) (hp : s.phase = .shaMsg ∨ s.phase = .hmacMsg)
    (hlen : s.len.toNat ≠ Config.maxBytes) :
    exec (.msgByte b) s = .next ((s.absorbRaw b).setLen (s.len + 1#61)) := by
  rw [exec_msgByte s b hp, settle_absorb, if_neg hlen]

/-- The row of `FINAL` in the legality matrix, which is also that of `MSG_BYTE` (R118). -/
theorem legality_final_badPhase {p : Phase} (hp : p = .idle ∨ p = .hmacKey ∨ p = .done) :
    legality .final p = .badPhase := by
  rcases hp with rfl | rfl | rfl <;> rfl

theorem legality_final_error {p : Phase} (hp : p = .error) : legality .final p = .ignored := by
  rw [hp]; rfl

/-- Settles O21: the cell of the legality matrix, then `LEN` at the bound or not, then `IDX` at the end of the
block or not. -/
theorem msgByteAbsorbs : Obligations.MsgByteAbsorbs := by
  intro s b
  refine ⟨decode_encode (i := .msgByte b) rfl, fun hp hlen hidx => ?_, fun hp hlen hidx => ?_,
    fun hp hlen => ?_, fun hp => exec_badPhase _ s (legality_final_badPhase hp) nofun,
    fun hp => exec_ignored _ s (legality_final_error hp) nofun⟩
  · rw [exec_msgByte_absorbs b hp hlen, absorbRaw_open s b hidx]
    rfl
  · rw [exec_msgByte_absorbs b hp hlen, absorbRaw_full s b hidx]
    rfl
  · rw [exec_msgByte s b hp, absorb_full s b hlen]
    rfl

theorem digestBytes_setPhase (s : State) (p : Phase) : (s.setPhase p).digestBytes = s.digestBytes := rfl

/-- Settles O22: the cell of the legality matrix, then the kind of hash; the digest is that of the bytes absorbed
and counted since `HashStart`. -/
theorem finalMakesDigestAvailable : Obligations.FinalMakesDigestAvailable := by
  refine ⟨rfl, fun s => ⟨exec_final_sha s, fun hp => ?_,
    fun hp => exec_badPhase _ s (legality_final_badPhase hp) nofun,
    fun hp => exec_ignored _ s (legality_final_error hp) nofun⟩, fun s u t m hm hu hp h => ?_⟩
  · obtain ⟨t, ht⟩ := hmacFinish_isOk s
    exact ⟨t, ht, exec_final_hmac s t hp ht⟩
  · obtain ⟨u', hu', hstreams, hcount⟩ :=
      absorbAll_streams (streams_hashStart s) rfl m (by simpa [Config.maxBytes] using hm)
    obtain rfl : u' = u := Except.ok.inj (hu'.symm.trans hu)
    rw [exec_final_sha u' hp] at h
    rw [← Host.Outcome.next.inj h, digestBytes_setPhase]
    exact sha1_of_streams hstreams hcount

/-! ### Frames -/

/-- A command that does not raise, and is neither a read nor `RESET`, leaves `ERRCODE` and the channels alone. -/
theorem exec_keeps_errcode_and_channels {i : Instr} {s t : State} (h : exec i s = .next t)
    (hne : t.phase ≠ .error) (hi : (∀ idx, i ≠ .rdDigest idx) ∧ i ≠ .rdStatus ∧ i ≠ .reset) :
    t.errcode = s.errcode ∧ SameChannels s t := by
  obtain ⟨hdigest, hstatus, hreset⟩ := hi
  have hwf : i.wellFormed = true := by
    cases i with
    | rdDigest idx => exact absurd rfl (hdigest idx)
    | _ => rfl
  obtain ⟨-, herr, htaken, hhost⟩ := whoWritesKeyBlockAndErrcode i s t h
  have hrsp := (exactlyReadsRespond i s t hwf h).2 (by simp [hdigest, hstatus])
  refine ⟨by_contra fun hchanged => ?_, hrsp, htaken, hhost⟩
  rcases herr hchanged with ⟨hraised, -⟩ | hcleared
  · exact hne hraised
  · exact hreset hcleared

theorem absorbRaw_blk_of_ne (s : State) (b : Byte) {j : Nat} (hj : j < 64) (hne : j ≠ s.idx.toNat) :
    (s.absorbRaw b).blk[j] = s.blk[j] := by
  simp [absorbRaw_blk, hne.symm]

/-- A byte that does not fill the block is only stored (R71). -/
theorem absorbRaw_open_frame {s : State} (b : Byte) (hidx : s.idx ≠ 63#6) :
    (s.absorbRaw b).h = s.h ∧ (s.absorbRaw b).work = s.work ∧ (s.absorbRaw b).w = s.w ∧
      (s.absorbRaw b).t = s.t ∧ (s.absorbRaw b).freeDraws = s.freeDraws := by
  rw [absorbRaw_open s b hidx]
  exact ⟨rfl, rfl, rfl, rfl, rfl⟩

/-- What a byte command that does not raise does: it absorbs and counts the byte, after `KEY_BYTE` has put it in
the key block. -/
theorem byteCommand_absorbs {b : Byte} {i : Instr} {s t : State} (hi : i = .msgByte b ∨ i = .keyByte b)
    (h : exec i s = .next t) (hne : t.phase ≠ .error) :
    ∃ u : State, (u = s ∨ i = .keyByte b ∧ u = s.storeKeyByte b) ∧
      t = (u.absorbRaw b).setLen (s.len + 1#61) := by
  rcases hi with rfl | rfl
  · cases exec_did h with
    | ignored he => exact absurd he hne
    | badPhase | msgFull => exact absurd rfl hne
    | msgByte => exact ⟨s, .inl rfl, rfl⟩
  · cases exec_did h with
    | ignored he => exact absurd he hne
    | badPhase | keyFull => exact absurd rfl hne
    | keyByte => exact ⟨_, .inr ⟨rfl, rfl⟩, rfl⟩

/-- Settles O43: `AbsorbRaw` writes `BLK` at `IDX` and compresses at the end of a block only, and `KEY_BYTE` writes
`KBLK` at `LEN`. -/
theorem byteCommandsFrame : Obligations.ByteCommandsFrame := by
  intro b i s t hi h hne
  obtain ⟨herr, hchannels⟩ :=
    exec_keeps_errcode_and_channels h hne (by rcases hi with rfl | rfl <;> simp)
  have hkblk : i = .msgByte b → t.kblk = s.kblk := fun hmsg =>
    (whoWritesKeyBlockAndErrcode i s t h).1 (by simp [hmsg])
  obtain ⟨u, rfl | ⟨-, rfl⟩, rfl⟩ := byteCommand_absorbs hi h hne
  · exact ⟨by simp, herr, hchannels, fun j hj hjne => absorbRaw_blk_of_ne u b hj hjne, hkblk, by simp,
      absorbRaw_open_frame b⟩
  · have hblk (j : Nat) (hj : j < 64) (hjne : j ≠ s.idx.toNat) :=
      absorbRaw_blk_of_ne (s.storeKeyByte b) b hj (by simpa using hjne)
    have hopen (hidx : s.idx ≠ 63#6) := absorbRaw_open_frame (s := s.storeKeyByte b) b (by simpa using hidx)
    refine ⟨by simp, herr, hchannels, by simpa using hblk, hkblk, fun j hj hjne => ?_, by simpa using hopen⟩
    simp [storeKeyByte_kblk s b j hj, hjne.symm]

/-- Settles O44: `ERRCODE`, the channels and `KBLK` by who writes them; the `*_INIT` commands only begin a hash, and
`Finalize` counts no byte. -/
theorem hashCommandsFrame : Obligations.HashCommandsFrame := by
  intro i s t hi h hne
  obtain ⟨herr, hchannels⟩ :=
    exec_keeps_errcode_and_channels h hne (by rcases hi with rfl | rfl | rfl | rfl <;> simp)
  refine ⟨herr, hchannels, fun hinit => ?_, fun hkeep => ?_, fun hfinal hp => ?_⟩
  · rcases hinit with rfl | rfl
    · cases exec_did h with
      | ignored he => exact absurd he hne
      | badPhase => exact absurd rfl hne
      | shaInit => exact ⟨rfl, rfl, rfl, rfl, rfl⟩
    · cases exec_did h with
      | ignored he => exact absurd he hne
      | badPhase => exact absurd rfl hne
      | hmacInit => exact ⟨rfl, rfl, rfl, rfl, rfl⟩
  · exact (whoWritesKeyBlockAndErrcode i s t h).1 (by rcases hkeep with rfl | rfl <;> simp)
  · rw [hfinal, exec_final_sha s hp] at h
    rw [← Host.Outcome.next.inj h]
    simp

end Sys2Proof.Machine
end

section
/-! SUPPORT. Invocations from end to end (41_sha1_commands.md R83, 42_hmac_commands.md R98): what a host has sent
of an invocation, the registers that go with it, command by command, and the runs of whole programs. -/

namespace Sys2Proof.Machine

/-! ### The hash in progress, counted -/

/-- The hash in progress has absorbed and counted the bytes `p`. -/
structure Hashing (s : State) (p : List Byte) : Prop where
  streams : Streams s p
  len_eq : s.len.toNat = p.length

theorem Hashing.absorbRaw {s : State} {p : List Byte} (h : Hashing s p) (b : Byte)
    (hp : p.length < Config.maxBytes) :
    Hashing ((s.absorbRaw b).setLen (s.len + 1#61)) (p ++ [b]) where
  streams := (streams_setLen _ _ _).2 (streams_absorbRaw b h.streams)
  len_eq := by
    have hlen : s.len.toNat ≠ Config.maxBytes := by rw [h.len_eq]; omega
    rw [setLen_len, toNat_len_add_one hlen, h.len_eq, List.length_append, List.length_singleton]

theorem Hashing.storeKeyByte {s : State} {p : List Byte} (h : Hashing s p) (b : Byte) :
    Hashing (s.storeKeyByte b) p where
  streams := by simpa [Streams] using h.streams
  len_eq := by simpa using h.len_eq

/-- A hash begun with a pad block (42_hmac_commands.md R95, R97). -/
theorem hashing_padBlock (s : State) (x : Byte) :
    Hashing ((s.hashStart.absorbRawAll (xorPad s.kblk x)).setLen 64#61) (xorPad s.kblk x) where
  streams := (streams_setLen _ _ _).2 (streams_absorbRawAll _ (streams_hashStart s))
  len_eq := by rw [length_xorPad]; rfl

theorem Hashing.sha1_eq {s : State} {p : List Byte} (h : Hashing s p) :
    sha1 p = some s.finalize.digestBytes :=
  sha1_of_streams h.streams h.len_eq

/-! ### The key block and the outer hash -/

/-- `KEY_END` settles the key block of the key that was sent (R91, R95). -/
theorem keyBlock_settleKey {s : State} {k : List Byte} (hkey : KeyPhase s k) (hhash : Hashing s k) :
    keyBlock k = some s.settleKey.kblk := by
  by_cases hlong : 64 < k.length
  · rw [settleKey_long s (by rw [hkey.len_eq]; exact hlong), keyBlock, if_pos hlong, hhash.sha1_eq]
    rfl
  · rw [settleKey_short s (by rw [hkey.len_eq]; omega), keyBlock, if_neg hlong]
    refine congrArg some (Vector.ext fun i hi => ?_)
    rw [hkey.kblk_eq i hi, keyBlockOf, Vector.getElem_ofFn]

/-- `HmacFinish` leaves the digest of the outer hash (R97). -/
theorem sha1_hmacFinish {s t : State} (h : s.hmacFinish = .ok t) :
    sha1 (xorPad s.kblk Config.opadByte ++ s.finalize.digestBytes) = some t.digestBytes := by
  rw [hmacFinish_ok] at h
  rw [← Except.ok.inj h]
  have houter := streams_absorbRawAll (xorPad s.kblk Config.opadByte ++ s.finalize.digestBytes)
    (streams_hashStart s.finalize)
  exact sha1_of_streams ((streams_setLen _ _ _).2 houter) (by simp [State.digestBytes])

/-- The inner hash finished and hashed again is `HMAC` (R90, R97). -/
theorem hmac_hmacFinish {s t : State} {k m : List Byte} (hkey : keyBlock k = some s.kblk)
    (hhash : Hashing s (xorPad s.kblk Config.ipadByte ++ m)) (h : s.hmacFinish = .ok t) :
    hmac k m = some t.digestBytes := by
  rw [hmac, hkey, Option.bind_some, hhash.sha1_eq, Option.bind_some, sha1_hmacFinish h]

/-! ### Invocations -/

/-- What the host has sent of an invocation. -/
inductive Invocation where
  /-- nothing yet -/
  | fresh
  /-- `SHA_INIT` and the message bytes `m` -/
  | plain (m : List Byte)
  /-- `HMAC_INIT` and the key bytes `k` -/
  | keying (k : List Byte)
  /-- `HMAC_INIT`, the key `k`, `KEY_END` and the message bytes `m` -/
  | keyed (k m : List Byte)
  /-- a whole invocation, whose result is `d` -/
  | finished (d : Option (List Byte))

/-- The registers of the core when the host has sent `g`. -/
def Invocation.Holds : Invocation → State → Prop
  | .fresh, s => s.phase ≠ .error
  | .plain m, s => s.phase = .shaMsg ∧ Hashing s m
  | .keying k, s => KeyPhase s k ∧ Hashing s k
  | .keyed k m, s => s.phase = .hmacMsg ∧ keyBlock k = some s.kblk ∧
      Hashing s (xorPad s.kblk Config.ipadByte ++ m)
  | .finished d, s => s.phase = .done ∧ d = some s.digestBytes

/-- The host sends one more command, within the bounds of R77 and R90 on the lengths. -/
inductive Invocation.Sends : Invocation → Instr → Invocation → Prop
  | nop {g : Invocation} : Sends g .nop g
  | shaInit {g : Invocation} : Sends g .shaInit (.plain [])
  | msgByte {m : List Byte} {b : Byte} : m.length < Config.maxBytes →
      Sends (.plain m) (.msgByte b) (.plain (m ++ [b]))
  | final {m : List Byte} : Sends (.plain m) .final (.finished (sha1 m))
  | hmacInit {g : Invocation} : Sends g .hmacInit (.keying [])
  | keyByte {k : List Byte} {b : Byte} : k.length < Config.maxBytes →
      Sends (.keying k) (.keyByte b) (.keying (k ++ [b]))
  | keyEnd {k : List Byte} : Sends (.keying k) .keyEnd (.keyed k [])
  | keyedByte {k m : List Byte} {b : Byte} : m.length < Config.maxBytes - 64 →
      Sends (.keyed k m) (.msgByte b) (.keyed k (m ++ [b]))
  | keyedFinal {k m : List Byte} : Sends (.keyed k m) .final (.finished (hmac k m))

/-- The host sends a program. -/
inductive Invocation.SendsAll : Invocation → List Instr → Invocation → Prop
  | nil {g : Invocation} : SendsAll g [] g
  | cons {g g' g'' : Invocation} {i : Instr} {is : List Instr} : g.Sends i g' → SendsAll g' is g'' →
      SendsAll g (i :: is) g''

theorem Invocation.Holds.phase_ne_error {g : Invocation} {s : State} (h : g.Holds s) : s.phase ≠ .error := by
  cases g with
  | fresh => exact h
  | keying => obtain ⟨hkey, -⟩ := h; simp [hkey.phase_eq]
  | plain | keyed | finished => obtain ⟨hp, -⟩ := h; simp [hp]

/-- No register of an invocation is in the channels. -/
theorem Invocation.Holds.channels {g : Invocation} {s : State} (h : g.Holds s) (rsp : Option Word)
    (taken : List Word) (host : List HostAct) :
    g.Holds { s with rsp := rsp, taken := taken, host := host } := by
  cases g with
  | fresh | finished => exact h
  | plain =>
    obtain ⟨hp, hhash⟩ := h
    exact ⟨hp, { hhash with }⟩
  | keying =>
    obtain ⟨hkey, hhash⟩ := h
    exact ⟨{ hkey with }, { hhash with }⟩
  | keyed =>
    obtain ⟨hp, hkey, hhash⟩ := h
    exact ⟨hp, hkey, { hhash with }⟩

/-! ### One command -/

theorem Invocation.Sends.wellFormed {g g' : Invocation} {i : Instr} (h : g.Sends i g') :
    i.wellFormed = true := by
  cases h <;> rfl

theorem holds_keyByte {s : State} {k : List Byte} (h : (Invocation.keying k).Holds s) (b : Byte)
    (hk : k.length < Config.maxBytes) :
    ∃ t, exec (.keyByte b) s = .next t ∧ (Invocation.keying (k ++ [b])).Holds t := by
  obtain ⟨hkey, hhash⟩ := h
  obtain ⟨t, ht, hkey'⟩ := hkey.keyByte b hk
  rw [accept_command s (decode_encode_keyByte b)] at ht
  refine ⟨t, ht, hkey', ?_⟩
  rw [exec_keyByte s b hkey.phase_eq, settle_absorb, if_neg (by rw [storeKeyByte_len, hkey.len_eq]; omega)] at ht
  rw [← Host.Outcome.next.inj ht]
  exact (hhash.storeKeyByte b).absorbRaw b hk

theorem holds_keyEnd {s : State} {k : List Byte} (h : (Invocation.keying k).Holds s) :
    ∃ t, exec .keyEnd s = .next t ∧ (Invocation.keyed k []).Holds t := by
  obtain ⟨hkey, hhash⟩ := h
  refine ⟨_, exec_keyEnd s hkey.phase_eq, rfl, ?_, ?_⟩
  · simpa using keyBlock_settleKey hkey hhash
  · simpa using { hashing_padBlock s.settleKey Config.ipadByte with }

theorem Invocation.Sends.exec_holds {g g' : Invocation} {i : Instr} {s : State} (h : g.Sends i g')
    (hs : g.Holds s) : ∃ t, exec i s = .next t ∧ g'.Holds t := by
  cases h with
  | nop => exact ⟨s, exec_nop s, hs⟩
  | shaInit => exact ⟨_, exec_shaInit s hs.phase_ne_error, rfl, streams_hashStart s, rfl⟩
  | hmacInit =>
    exact ⟨_, exec_hmacInit s hs.phase_ne_error, keyPhase_hmacInit s, streams_hashStart s.clearKey, rfl⟩
  | @msgByte m b hm =>
    obtain ⟨hp, hhash⟩ := hs
    exact ⟨_, exec_msgByte_absorbs b (.inl hp) (by rw [hhash.len_eq]; omega), by simpa using hp,
      hhash.absorbRaw b hm⟩
  | final =>
    obtain ⟨hp, hhash⟩ := hs
    exact ⟨_, exec_final_sha s hp, rfl, hhash.sha1_eq.trans (congrArg some (digestBytes_setPhase _ _).symm)⟩
  | keyByte hk => exact holds_keyByte hs _ hk
  | keyEnd => exact holds_keyEnd hs
  | @keyedByte k m b hm =>
    obtain ⟨hp, hkey, hhash⟩ := hs
    have hlen : (xorPad s.kblk Config.ipadByte ++ m).length < Config.maxBytes := by
      rw [List.length_append, length_xorPad]; omega
    have hbyte := hhash.absorbRaw b hlen
    rw [List.append_assoc] at hbyte
    exact ⟨_, exec_msgByte_absorbs b (.inr hp) (by rw [hhash.len_eq]; omega), by simpa using hp,
      by simpa using hkey, by simpa using hbyte⟩
  | keyedFinal =>
    obtain ⟨hp, hkey, hhash⟩ := hs
    obtain ⟨t, ht⟩ := hmacFinish_isOk s
    exact ⟨_, exec_final_hmac s t hp ht, rfl,
      (hmac_hmacFinish hkey hhash ht).trans (congrArg some (digestBytes_setPhase _ _).symm)⟩

/-- A command of an invocation meets no error, responds nothing, and leaves the registers of what the host has
sent by then. -/
theorem Invocation.Sends.exec_frame {g g' : Invocation} {i : Instr} {s : State} (h : g.Sends i g')
    (hs : g.Holds s) :
    ∃ t, exec i s = .next t ∧ g'.Holds t ∧ t.errcode = s.errcode ∧ SameChannels s t := by
  obtain ⟨t, ht, hs'⟩ := h.exec_holds hs
  exact ⟨t, ht, hs', exec_keeps_errcode_and_channels ht hs'.phase_ne_error (by cases h <;> simp)⟩

/-! ### Programs -/

theorem Invocation.SendsAll.append {g g' g'' : Invocation} {is js : List Instr} (h : g.SendsAll is g')
    (h' : g'.SendsAll js g'') : g.SendsAll (is ++ js) g'' := by
  induction h with
  | nil => exact h'
  | cons hsend _ ih => exact .cons hsend (ih h')

/-- A byte command sent for each byte of a list, where one at a time the host may send up to `bound`. -/
theorem sendsAll_bytes {g : List Byte → Invocation} {c : Byte → Instr} {bound : Nat}
    (hbyte : ∀ (p : List Byte) (b : Byte), p.length < bound → (g p).Sends (c b) (g (p ++ [b])))
    (p bs : List Byte) (hlen : p.length + bs.length ≤ bound) :
    (g p).SendsAll (bs.map c) (g (p ++ bs)) := by
  induction bs generalizing p with
  | nil => simpa using .nil
  | cons b bs ih =>
    rw [List.length_cons] at hlen
    have hrest := ih (p ++ [b]) (by rw [List.length_append, List.length_singleton]; omega)
    rw [List.append_assoc] at hrest
    exact .cons (hbyte p b (by omega)) hrest

theorem sendsAll_sha1Program {m : List Byte} (hm : m.length ≤ Config.maxBytes) (g : Invocation) :
    g.SendsAll (sha1Program m) (.finished (sha1 m)) := by
  have hmsg := sendsAll_bytes (g := .plain) (fun _ _ => .msgByte) [] m (by simpa using hm)
  exact .cons .shaInit (hmsg.append (.cons .final .nil))

theorem sendsAll_hmacProgram {k m : List Byte} (hk : k.length ≤ Config.maxBytes)
    (hm : m.length ≤ Config.maxBytes - 64) (g : Invocation) :
    g.SendsAll (hmacProgram k m) (.finished (hmac k m)) := by
  have hkey := sendsAll_bytes (g := .keying) (fun _ _ => .keyByte) [] k (by simpa using hk)
  have hmsg := sendsAll_bytes (g := .keyed k) (fun _ _ => .keyedByte) [] m (by simpa using hm)
  exact .cons .hmacInit (hkey.append (.cons .keyEnd (hmsg.append (.cons .keyedFinal .nil))))

/-! ### Runs without an error -/

/-- The run of `n` steps from `s` ends in `t` and meets no error. -/
structure CleanRun (n : Nat) (s t : State) : Prop where
  run_eq : run n s = .next t
  clean : RunsClean n s

theorem CleanRun.refl {s : State} (hs : s.phase ≠ .error) : CleanRun 0 s s where
  run_eq := run_zero s
  clean k hk := by
    obtain rfl : k = 0 := by omega
    exact ⟨s, run_zero s, hs⟩

theorem CleanRun.trans {m n : Nat} {s t u : State} (h : CleanRun m s t) (h' : CleanRun n t u) :
    CleanRun (m + n) s u where
  run_eq := by rw [run_add n h.run_eq, h'.run_eq]
  clean k hk := by
    rcases Nat.le_total k m with hle | hge
    · exact h.clean k hle
    · obtain ⟨j, rfl⟩ := Nat.exists_eq_add_of_le hge
      obtain ⟨v, hv, hne⟩ := h'.clean j (by omega)
      exact ⟨v, by rw [run_add j h.run_eq, hv], hne⟩

theorem CleanRun.step {s t : State} (h : step s = .next t) (hs : s.phase ≠ .error) (ht : t.phase ≠ .error) :
    CleanRun 1 s t where
  run_eq := by rw [run_succ 0 h, run_zero]
  clean k hk := by
    obtain rfl | rfl : k = 0 ∨ k = 1 := by omega
    · exact ⟨s, run_zero s, hs⟩
    · exact ⟨t, by rw [run_succ 0 h, run_zero], ht⟩

/-! ### What the host offers -/

/-- The host has sent `g`, no response waits, and it goes on with `acts`. -/
structure Ready (g : Invocation) (acts : List HostAct) (s : State) : Prop where
  holds : g.Holds s
  rsp_eq : s.rsp = none
  host_eq : s.host = acts

/-- A command of an invocation is one step. -/
theorem Ready.run_command {g g' : Invocation} {i : Instr} {acts : List HostAct} {s : State}
    (h : Ready g (.offer (encode i) :: acts) s) (hsend : g.Sends i g') :
    ∃ t, CleanRun 1 s t ∧ Ready g' acts t ∧ t.errcode = s.errcode ∧ t.taken = s.taken := by
  obtain ⟨t, ht, hs', herr, hchannels⟩ := hsend.exec_frame (s := s.setHost acts) (h.holds.channels _ _ _)
  have hstep : step s = .next t := by
    rw [step_offer h.rsp_eq h.host_eq, accept_command _ (decode_encode hsend.wellFormed), ht]
  exact ⟨t, .step hstep h.holds.phase_ne_error hs'.phase_ne_error,
    ⟨hs', hchannels.rsp_eq.trans h.rsp_eq, hchannels.host_eq⟩, herr, hchannels.taken_eq⟩

/-- The commands of an invocation are a step each (R83, R98). -/
theorem Ready.run_offers {g g' : Invocation} {is : List Instr} (hsend : g.SendsAll is g') {acts : List HostAct}
    {s : State} (h : Ready g (offers is ++ acts) s) :
    ∃ t, CleanRun is.length s t ∧ Ready g' acts t ∧ t.errcode = s.errcode ∧ t.taken = s.taken := by
  induction hsend generalizing s with
  | nil => exact ⟨s, .refl h.holds.phase_ne_error, h, rfl, rfl⟩
  | @cons g g' g'' i is hi _ ih =>
    obtain ⟨u, hrun, hu, herr, htaken⟩ := h.run_command hi
    obtain ⟨t, hrun', ht, herr', htaken'⟩ := ih hu
    refine ⟨t, ?_, ht, herr'.trans herr, htaken'.trans htaken⟩
    rw [List.length_cons, Nat.add_comm]
    exact hrun.trans hrun'

/-- A command that only responds, and its response taken, are two steps, which join the response to the words
taken and leave every other register. -/
theorem Ready.run_read {g : Invocation} {i : Instr} {acts : List HostAct} {s : State} {v : Word}
    (h : Ready g (.offer (encode i) :: .take :: acts) s) (hwf : i.wellFormed = true)
    (hexec : exec i s = .next (s.respond v)) :
    CleanRun 2 s { s with rsp := none, taken := s.taken ++ [v], host := acts } ∧
      Ready g acts { s with rsp := none, taken := s.taken ++ [v], host := acts } := by
  have hp := h.holds.phase_ne_error
  have hoffer : step s = .next ((s.respond v).setHost (.take :: acts)) := by
    rw [step_offer h.rsp_eq h.host_eq, accept_command _ (decode_encode hwf), exec_setHost _ hexec]
  have htake : step ((s.respond v).setHost (.take :: acts)) =
      .next { s with rsp := none, taken := s.taken ++ [v], host := acts } := step_take rfl
  exact ⟨(CleanRun.step hoffer hp hp).trans (.step htake hp hp), h.holds.channels _ _ _, rfl, rfl⟩

/-! ### Fillers -/

theorem Ready.run_filler {g : Invocation} {f : Filler} {acts : List HostAct} {s : State}
    (h : Ready g (f.acts ++ acts) s) : ∃ n t, CleanRun n s t ∧ Ready g acts t := by
  cases f with
  | nop =>
    obtain ⟨t, hrun, ht, -⟩ := h.run_command .nop
    exact ⟨1, t, hrun, ht⟩
  | status => exact ⟨2, _, Ready.run_read h rfl (exec_rdStatus s)⟩

theorem Ready.run_fillers {g : Invocation} {fs : List Filler} {acts : List HostAct} {s : State}
    (h : Ready g (fs.flatMap Filler.acts ++ acts) s) : ∃ n t, CleanRun n s t ∧ Ready g acts t := by
  induction fs generalizing s with
  | nil => exact ⟨0, s, .refl h.holds.phase_ne_error, h⟩
  | cons f fs ih =>
    rw [List.flatMap_cons, List.append_assoc] at h
    obtain ⟨n, u, hrun, hu⟩ := h.run_filler
    obtain ⟨n', t, hrun', ht⟩ := ih hu
    exact ⟨n + n', t, hrun.trans hrun', ht⟩

/-- Fillers before each command of an invocation change nothing of what the host has sent. -/
theorem Ready.run_interleaved {g g' : Invocation} {p : List (List Filler × Instr)}
    (hsend : g.SendsAll (p.map Prod.snd) g') {acts : List HostAct} {s : State}
    (h : Ready g (interleaved p ++ acts) s) : ∃ n t, CleanRun n s t ∧ Ready g' acts t := by
  induction p generalizing g s with
  | nil => cases hsend; exact ⟨0, s, .refl h.holds.phase_ne_error, h⟩
  | cons q p ih =>
    obtain ⟨fs, i⟩ := q
    cases hsend with
    | cons hi his =>
      have hacts : interleaved ((fs, i) :: p) ++ acts =
          fs.flatMap Filler.acts ++ .offer (encode i) :: (interleaved p ++ acts) := by
        simp [interleaved]
      rw [hacts] at h
      obtain ⟨n, u, hrun, hu⟩ := h.run_fillers
      obtain ⟨v, hrun', hv, -⟩ := hu.run_command hi
      obtain ⟨n', t, hrun'', ht⟩ := ih his hv
      exact ⟨_, t, (hrun.trans hrun').trans hrun'', ht⟩

/-- Settles O57: a filler leaves every register of the invocation, so the program leaves what it leaves without
them. -/
theorem fillersChangeNothing : Obligations.FillersChangeNothing := by
  intro p s rest hp hrsp hhost
  have hready : Ready .fresh (interleaved p ++ rest) s := ⟨hp, hrsp, hhost⟩
  have hmax : Config.maxBytes = 2 ^ 61 - 1 := rfl
  refine ⟨fun m hm hprog => ?_, fun k m hk hm hprog => ?_⟩
  · obtain ⟨n, t, hrun, ⟨hdone, hdigest⟩, hrsp', hhost'⟩ :=
      hready.run_interleaved (hprog ▸ sendsAll_sha1Program (by omega) .fresh)
    exact ⟨n, t, hrun.run_eq, hrun.clean, hhost', hrsp', hdone, hdigest⟩
  · obtain ⟨n, t, hrun, ⟨hdone, hdigest⟩, hrsp', hhost'⟩ :=
      hready.run_interleaved (hprog ▸ sendsAll_hmacProgram (k := k) (m := m) (by omega) (by omega) .fresh)
    exact ⟨n, t, hrun.run_eq, hrun.clean, hhost', hrsp', hdone, hdigest⟩

/-! ### The digest read out -/

/-- Reads of a finished invocation, each response taken, respond the words of `H` they select. -/
theorem Ready.run_readDigests {d : Option (List Byte)} (idxs : List (Fin 5)) {acts : List HostAct} {s : State}
    (h : Ready (.finished d)
      (readsAndTakes (idxs.map fun i => .rdDigest (BitVec.ofNat 3 i)) ++ acts) s) :
    ∃ t, CleanRun (2 * idxs.length) s t ∧ Ready (.finished d) acts t ∧
      t.taken = s.taken ++ idxs.map fun i => s.h[i] := by
  induction idxs generalizing s with
  | nil => exact ⟨s, .refl h.holds.phase_ne_error, h, by simp⟩
  | cons i idxs ih =>
    obtain ⟨hdone, -⟩ := h.holds
    have hidx : (BitVec.ofNat 3 i).toNat = i := by rw [BitVec.toNat_ofNat]; omega
    have hexec : exec (.rdDigest (BitVec.ofNat 3 i)) s = .next (s.respond s.h[i]) := by
      rw [exec_rdDigest s _ (by omega), hdone]
      simp [legality, legalityRow, hidx]
    obtain ⟨hrun, hready⟩ := Ready.run_read h (by simp [Instr.wellFormed, hidx]; omega) hexec
    obtain ⟨t, hrun', ht, htaken⟩ := ih hready
    refine ⟨t, ?_, ht, htaken.trans (List.append_assoc _ _ _)⟩
    rw [List.length_cons, Nat.mul_succ, Nat.add_comm]
    exact hrun.trans hrun'

theorem readDigestAll_eq :
    readDigestAll = (List.finRange 5).map fun i => .rdDigest (BitVec.ofNat 3 i) := rfl

/-- The five words of `H`, in order. -/
theorem map_finRange_h (s : State) : ((List.finRange 5).map fun i => s.h[i]) = s.h.toList := by
  apply List.ext_getElem <;> simp

/-- Settles O55: the program is a step a command and leaves `SHA1 m` in `H`; the five reads are two steps each. -/
theorem sha1EndToEnd : Obligations.Sha1EndToEnd := by
  intro m s rest hm hp hrsp hhost
  rw [List.append_assoc] at hhost
  have hready : Ready .fresh (offers (sha1Program m) ++ (readsAndTakes readDigestAll ++ rest)) s :=
    ⟨hp, hrsp, hhost⟩
  have hlength : (sha1Program m).length = m.length + 2 := by simp [sha1Program, msgProgram]
  obtain ⟨u, hrun, hu, herr, htaken⟩ := hready.run_offers (sendsAll_sha1Program hm .fresh)
  rw [hlength] at hrun
  obtain ⟨t, hreads, ht, hwords⟩ := Ready.run_readDigests (List.finRange 5) (readDigestAll_eq ▸ hu)
  obtain ⟨hdone, hdigest⟩ := hu.holds
  obtain ⟨hdone', -⟩ := ht.holds
  have hall : CleanRun (m.length + 12) s t := hrun.trans hreads
  refine ⟨⟨u, hrun.run_eq, hdone, herr, htaken, hdigest⟩, hall.clean, t, u.h.toList, hall.run_eq, hdone',
    ht.host_eq, ht.rsp_eq, ?_, by simp, hdigest⟩
  rw [hwords, map_finRange_h, htaken]

end Sys2Proof.Machine
end

section
/-! SUPPORT. The HMAC commands one by one (42_hmac_commands.md R93 to R97), and the program `HMAC k, m` from end
to end (R98). -/

namespace Sys2Proof.Machine

/-! ### From end to end -/

/-- The program of a whole invocation is a step a command and leaves the result in `H`; the five reads behind it
are two steps each and give its words to the host. -/
theorem Ready.run_program_and_reads {g : Invocation} {d : Option (List Byte)} {is : List Instr}
    (hsend : g.SendsAll is (.finished d)) {acts : List HostAct} {s : State}
    (h : Ready g (offers is ++ (readsAndTakes readDigestAll ++ acts)) s) :
    ∃ u t, CleanRun is.length s u ∧ (Invocation.finished d).Holds u ∧ u.errcode = s.errcode ∧
      u.taken = s.taken ∧ CleanRun (is.length + 10) s t ∧ Ready (.finished d) acts t ∧
      t.taken = s.taken ++ u.h.toList := by
  obtain ⟨u, hrun, hu, herr, htaken⟩ := h.run_offers hsend
  obtain ⟨t, hreads, ht, hwords⟩ := Ready.run_readDigests (List.finRange 5) (readDigestAll_eq ▸ hu)
  rw [map_finRange_h, htaken] at hwords
  exact ⟨u, t, hrun, hu.holds, herr, htaken, hrun.trans hreads, ht, hwords⟩

theorem length_hmacProgram (k m : List Byte) : (hmacProgram k m).length = k.length + m.length + 3 := by
  simp only [hmacProgram, keyProgram, msgProgram, List.length_cons, List.length_append, List.length_map,
    List.length_nil]
  omega

/-- Settles O56: the commands of the program are an invocation whose result is `HMAC k m`, and the five reads give
its words. -/
theorem hmacEndToEnd : Obligations.HmacEndToEnd := by
  intro k m s rest hk hm hp hrsp hhost
  rw [List.append_assoc] at hhost
  have hready : Ready .fresh (offers (hmacProgram k m) ++ (readsAndTakes readDigestAll ++ rest)) s :=
    ⟨hp, hrsp, hhost⟩
  obtain ⟨u, t, hrun, ⟨hdone, hdigest⟩, herr, htaken, hall, ⟨⟨hdone', -⟩, hrsp', hhost'⟩, hwords⟩ :=
    hready.run_program_and_reads (sendsAll_hmacProgram hk hm .fresh)
  rw [length_hmacProgram] at hrun hall
  exact ⟨⟨u, hrun.run_eq, hdone, herr, htaken, hdigest⟩, hall.clean, t, u.h.toList, hall.run_eq, hdone',
    hhost', hrsp', hwords, by simp, hdigest⟩

/-! ### `KEY_BYTE` -/

/-- Among the first 64 the byte goes to its place in the key block (R94). -/
theorem storeKeyByte_short (s : State) (b : Byte) (hlen : s.len.toNat < 64) :
    s.storeKeyByte b = s.setKey (s.kblk.set s.len.toNat b hlen) := dif_pos hlen

/-- The 65th byte and later ones do not (R94). -/
theorem storeKeyByte_long (s : State) (b : Byte) (hlen : 64 ≤ s.len.toNat) : s.storeKeyByte b = s :=
  dif_neg (by omega)

/-- A byte that fills the block is stored and the block compressed (R71). -/
theorem absorbRaw_full_frame {s : State} (b : Byte) (hidx : s.idx = 63#6) :
    (s.absorbRaw b).idx = 0#6 ∧ (s.absorbRaw b).h = compress s.h (s.absorbRaw b).blk ∧
      (s.absorbRaw b).w = schedule (s.absorbRaw b).blk := by
  rw [absorbRaw_full s b hidx]
  exact ⟨rfl, rfl, rfl⟩

/-- Below the bound of R94 the byte is stored in the key block, absorbed and counted. -/
theorem exec_keyByte_absorbs {s : State} (b : Byte) (hp : s.phase = .hmacKey)
    (hlen : s.len.toNat ≠ Config.maxBytes) :
    exec (.keyByte b) s = .next (((s.storeKeyByte b).absorbRaw b).setLen (s.len + 1#61)) := by
  rw [exec_keyByte s b hp, settle_absorb, storeKeyByte_len, if_neg hlen]

/-- The row of `KEY_END` in the legality matrix, which is also that of `KEY_BYTE` (R118). -/
theorem legality_keyEnd_badPhase {p : Phase} (hp : p = .idle ∨ p = .shaMsg ∨ p = .hmacMsg ∨ p = .done) :
    legality .keyEnd p = .badPhase := by
  rcases hp with rfl | rfl | rfl | rfl <;> rfl

theorem legality_keyEnd_error {p : Phase} (hp : p = .error) : legality .keyEnd p = .ignored := by
  rw [hp]; rfl

/-- Settles O24: the cell of the legality matrix, then `LEN` at the bound or not; the registers of the byte absorbed
are those of `AbsorbRaw`, and `KBLK` that of the byte stored. -/
theorem keyByteStoresAndAbsorbs : Obligations.KeyByteStoresAndAbsorbs := by
  intro s b
  refine ⟨decode_encode_keyByte b, fun hp hlen => ⟨_, exec_keyByte_absorbs b hp hlen, fun hlt => ?_, fun hge => ?_,
    rfl, ?_, fun hidx => ?_, fun hidx => ?_, by simpa using hp, by simp, by simp, by simp, by simp⟩,
    fun hp hlen => ?_, fun hp => exec_badPhase _ s (legality_keyEnd_badPhase hp) nofun,
    fun hp => exec_ignored _ s (legality_keyEnd_error hp) nofun⟩
  · simp [storeKeyByte_short s b hlt]
  · simp [storeKeyByte_long s b hge]
  · simp [absorbRaw_blk]
  · have hidx' : (s.storeKeyByte b).idx ≠ 63#6 := by simpa using hidx
    obtain ⟨hh, hwork, hw, ht, -⟩ := absorbRaw_open_frame b hidx'
    refine ⟨?_, by simpa using hh, by simpa using hwork, by simpa using hw, by simpa using ht⟩
    simp [absorbRaw_open _ b hidx']
  · simpa using absorbRaw_full_frame (s := s.storeKeyByte b) b (by simpa using hidx)
  · rw [exec_keyByte s b hp, absorb_full _ b (by simpa [Config.maxBytes] using hlen)]
    rfl

/-! ### `KEY_END` -/

/-- The key block of a digest: its twenty bytes, then zeros (R91). -/
theorem keyBlockOf_digestBytes (s : State) (i : Nat) (hi : i < 64) :
    (keyBlockOf s.digestBytes)[i] = if i < 20 then s.digestBytes.getD i 0#8 else 0x00#8 := by
  simp only [keyBlockOf, Vector.getElem_ofFn]
  split
  · rfl
  · next hge => exact List.getD_eq_default _ _ (by simpa [State.digestBytes] using hge)

/-- Settles O25: the key block is settled by whether the key is longer than a block, and what begins the inner hash
is the pad block alone. -/
theorem keyEndStartsInnerHash : Obligations.KeyEndStartsInnerHash := by
  refine ⟨rfl, fun s => ⟨fun hp => ⟨_, exec_keyEnd s hp, fun hlong i hi => ?_, fun hshort => ?_, ?_, rfl,
    padBlock_idx s.settleKey Config.ipadByte, rfl, by simp, by simp, by simp, by simp⟩,
    fun hp => exec_badPhase _ s (legality_keyEnd_badPhase hp) nofun,
    fun hp => exec_ignored _ s (legality_keyEnd_error hp) nofun⟩⟩
  · simpa [settleKey_long s hlong] using keyBlockOf_digestBytes s.finalize i hi
  · simp [settleKey_short s hshort]
  · simpa [Config.ipadByte] using padBlock_h s.settleKey Config.ipadByte

/-! ### `HmacFinish` -/

/-- Settles O26: the outer hash is `SHA1` of what `HmacFinish` absorbs after its `HashStart`, and nothing else is
written but the registers of the hash. -/
theorem hmacFinishComputesOuterHash : Obligations.HmacFinishComputesOuterHash := by
  intro s
  obtain ⟨t, ht⟩ := hmacFinish_isOk s
  obtain ⟨hlen, hidx, hkblk, hphase, herr, hrsp, htaken, hhost⟩ := hmacFinish_frame ht
  exact ⟨t, ht, sha1_hmacFinish ht, hlen, hidx, hkblk, hphase, herr, hrsp, htaken, hhost⟩

/-! ### `HMAC_INIT` -/

/-- Settles O23: the key block cleared and a hash begun in every phase but `ERROR`. -/
theorem hmacInitClearsKeyAndBeginsHash : Obligations.HmacInitClearsKeyAndBeginsHash :=
  ⟨rfl, fun s => ⟨exec_hmacInit s, fun he => exec_ignored _ s (by rw [he]; rfl) nofun⟩⟩

end Sys2Proof.Machine
end

section
/-! SUPPORT. The system commands one by one (43_system_commands.md R105 to R108): `NOP`, `RD_DIGEST`, `RD_STATUS`
and `RESET`. -/

namespace Sys2Proof.Machine

/-! ### What only `RESET` does (R108) -/

/-- A command other than `RESET` stays in `ERROR`: there it is a read, `NOP` or ignored, and no body runs. -/
theorem did_keeps_error {i : Instr} {s t : State} (h : Did s i t) (hi : i ≠ .reset) (he : s.phase = .error) :
    t.phase = .error := by
  cases h with
  | nop | ignored | status | digestInError => exact he
  | badPhase | msgFull | keyFull | noSuchWord | digestEarly => rfl
  | cleared => exact absurd rfl hi
  | shaInit hp | hmacInit hp => exact absurd he hp
  | digest _ hp | keyByte hp | keyEnd hp | finalSha hp | finalHmac hp => exact absurd he (by simp [hp])
  | msgByte hp => rcases hp with hp | hp <;> exact absurd he (by simp [hp])

/-- A command other than `RESET` does not clear `ERRCODE`: it writes the code of an error it raises, or nothing. -/
theorem did_keeps_errcode_ne_none {i : Instr} {s t : State} (h : Did s i t) (hi : i ≠ .reset)
    (hs : s.errcode ≠ .none) : t.errcode ≠ .none := by
  cases h with
  | badPhase | msgFull | keyFull | noSuchWord | digestEarly => exact nofun
  | cleared => exact absurd rfl hi
  | finalHmac _ hu =>
    obtain ⟨-, -, -, -, herr, -⟩ := hmacFinish_frame hu
    simpa [herr] using hs
  | _ => simpa using hs

/-- Settles O30: the state `RESET` answers is `clearError`, and no other case of `Did` leaves `ERROR` or clears
`ERRCODE`. -/
theorem resetCommandClears : Obligations.ResetCommandClears :=
  ⟨rfl, exec_reset,
    fun _ _ _ h he hleft => by_contra fun hi => hleft (did_keeps_error (exec_did h) hi he),
    fun _ _ _ h hs hcleared => by_contra fun hi => did_keeps_errcode_ne_none (exec_did h) hi hs hcleared⟩

/-! ### `NOP` -/

/-- Settles O27: the one word of `NOP` is its encoding. -/
theorem nopChangesNothing : Obligations.NopChangesNothing :=
  ⟨exec_nop, fun w => (decode_eq_command_iff w .nop).trans ((and_iff_right rfl).trans eq_comm)⟩

/-! ### `RD_DIGEST` -/

/-- The row of `RD_DIGEST` in the legality matrix (R118). -/
theorem legality_rdDigest_done {p : Phase} (idx : BitVec 3) (hp : p = .done) :
    legality (.rdDigest idx) p = .legal := by
  rw [hp]; rfl

theorem legality_rdDigest_badPhase {p : Phase} (idx : BitVec 3)
    (hp : p = .idle ∨ p = .shaMsg ∨ p = .hmacKey ∨ p = .hmacMsg) : legality (.rdDigest idx) p = .badPhase := by
  rcases hp with rfl | rfl | rfl | rfl <;> rfl

theorem legality_rdDigest_error {p : Phase} (idx : BitVec 3) (hp : p = .error) :
    legality (.rdDigest idx) p = .ignored := by
  rw [hp]; rfl

/-- Settles O28: a legal index responds by its cell of the legality matrix; for the others the word is illegal. -/
theorem rdDigestResponds : Obligations.RdDigestResponds := by
  intro s idx
  have hword : 0x7000#16 ||| idx.setWidth 16 = encode (.rdDigest idx) := rfl
  rw [hword]
  refine ⟨fun hidx => ⟨?_, fun hp => ?_, fun hp => ?_, fun hp => ?_⟩,
    accept_illegal_of_ne_error ∘ decode_indexOutOfRange⟩
  · exact decode_encode ((wellFormed_rdDigest_iff idx).2 (Nat.le_of_lt_succ hidx))
  · rw [exec_rdDigest s idx hidx, legality_rdDigest_done idx hp]; rfl
  · rw [exec_rdDigest s idx hidx, legality_rdDigest_badPhase idx hp]; rfl
  · rw [exec_rdDigest s idx hidx, legality_rdDigest_error idx hp]; rfl

/-! ### `RD_STATUS` -/

/-- A flag that tests `PHASE`, as a word (R20, R21). -/
theorem phaseFlag_word (p q : Phase) :
    (BitVec.ofBool (p == q)).setWidth 32 = if p = q then 1#32 else 0#32 := by
  by_cases h : p = q
  · rw [if_pos h, beq_iff_eq.2 h]; rfl
  · rw [if_neg h, beq_eq_false_iff_ne.2 h]; rfl

/-- Settles O29: the response is `STATUS`, whose two flags are tests of `PHASE`. -/
theorem rdStatusResponds : Obligations.RdStatusResponds := by
  refine ⟨rfl, fun s => ?_⟩
  rw [exec_rdStatus, State.status, State.digestValid, State.errFlag, phaseFlag_word, phaseFlag_word]
  rfl

end Sys2Proof.Machine
end

section
/-! SUPPORT. Errors (60_exceptions.md R117 to R125): the four ways a command enters `ERROR` and what each leaves,
and that without `RESET` and hard reset the phase `ERROR` holds everything but the data of the channels. -/

namespace Sys2Proof.Machine

/-! ### What can change in `ERROR` -/

/-- `t` is `s` but for the data of the two channels. -/
def OnlyChannelsDiffer (s t : State) : Prop :=
  ∃ (rsp : Option Word) (taken : List Word) (host : List HostAct),
    t = { s with rsp := rsp, taken := taken, host := host }

theorem OnlyChannelsDiffer.refl (s : State) : OnlyChannelsDiffer s s := ⟨_, _, _, rfl⟩

theorem OnlyChannelsDiffer.trans {s t u : State} (h : OnlyChannelsDiffer s t) (h' : OnlyChannelsDiffer t u) :
    OnlyChannelsDiffer s u := by
  obtain ⟨_, _, _, rfl⟩ := h
  obtain ⟨_, _, _, rfl⟩ := h'
  exact ⟨_, _, _, rfl⟩

theorem OnlyChannelsDiffer.phase_eq {s t : State} (h : OnlyChannelsDiffer s t) : t.phase = s.phase := by
  obtain ⟨_, _, _, rfl⟩ := h
  rfl

theorem OnlyChannelsDiffer.errcode_eq {s t : State} (h : OnlyChannelsDiffer s t) : t.errcode = s.errcode := by
  obtain ⟨_, _, _, rfl⟩ := h
  rfl

theorem OnlyChannelsDiffer.sameDatapath {s t : State} (h : OnlyChannelsDiffer s t) : SameDatapath s t := by
  obtain ⟨_, _, _, rfl⟩ := h
  exact ⟨rfl, rfl, rfl, rfl, rfl, rfl, rfl, rfl⟩

theorem onlyChannelsDiffer_setHost (s : State) (acts : List HostAct) : OnlyChannelsDiffer s (s.setHost acts) :=
  ⟨_, _, _, rfl⟩

theorem onlyChannelsDiffer_respond (s : State) (v : Word) : OnlyChannelsDiffer s (s.respond v) := ⟨_, _, _, rfl⟩

theorem onlyChannelsDiffer_takeResponse (s : State) : OnlyChannelsDiffer s s.takeResponse := by
  cases hr : s.rsp with
  | none => rw [takeResponse_none hr]; exact .refl s
  | some v => rw [takeResponse_some hr]; exact ⟨_, _, _, rfl⟩

/-- In `ERROR` a command other than `RESET` responds or does nothing (R123). -/
theorem did_in_error {i : Instr} {s t : State} (h : Did s i t) (hi : i ≠ .reset) (he : s.phase = .error) :
    OnlyChannelsDiffer s t := by
  cases h with
  | nop | ignored => exact .refl s
  | status | digestInError => exact onlyChannelsDiffer_respond s _
  | cleared => exact absurd rfl hi
  | badPhase hp | noSuchWord _ hp | digestEarly _ _ hp | shaInit hp | hmacInit hp => exact absurd he hp
  | keyFull hp | digest _ hp | keyByte hp | keyEnd hp | finalSha hp | finalHmac hp => cases he.symm.trans hp
  | msgFull hp | msgByte hp => rcases hp with hp | hp <;> cases he.symm.trans hp

/-- In `ERROR` a word other than that of `RESET` makes a response at most. -/
theorem accept_in_error {w : CmdWord} {s t : State} (he : s.phase = .error) (hw : w ≠ 0xF000#16)
    (h : s.accept w = .next t) : OnlyChannelsDiffer s t := by
  cases hd : decode w with
  | command i =>
    rw [accept_command s hd] at h
    refine did_in_error (exec_did h) ?_ he
    rintro rfl
    exact hw (encode_of_decode hd).2.symm
  | illegal why =>
    rw [accept_illegal_of_error hd he] at h
    exact Host.Outcome.next.inj h ▸ .refl s

/-! ### Runs from `ERROR` -/

/-- Neither hard reset nor the word of `RESET`: the acts that cannot leave `ERROR`. -/
def KeepsError (act : HostAct) : Prop := act ≠ .hardReset ∧ act ≠ .offer 0xF000#16

theorem serve_in_error {act : HostAct} {s t : State} (he : s.phase = .error) (hact : KeepsError act)
    (h : s.serve act = .next t) : OnlyChannelsDiffer s t := by
  obtain ⟨hno_reset, hno_command⟩ := hact
  cases act with
  | offer w => exact accept_in_error he (fun hw => hno_command (congrArg _ hw)) h
  | take => exact Host.Outcome.next.inj h ▸ onlyChannelsDiffer_takeResponse s
  | hardReset => exact absurd rfl hno_reset

/-- Serving an act leaves the acts still to come. -/
theorem serve_host {act : HostAct} {s t : State} (h : s.serve act = .next t) : t.host = s.host := by
  cases act with
  | offer w => exact (accept_channels h).2
  | take =>
    rw [← Host.Outcome.next.inj h]
    unfold State.takeResponse
    split <;> rfl
  | hardReset => exact Host.Outcome.next.inj h ▸ hardReset_host s

/-- The act served is one of the host's acts, and so is each of the acts left. -/
theorem nextAct_subset {s : State} {act : HostAct} {rest : List HostAct} (h : s.nextAct = some (act, rest)) :
    act :: rest ⊆ s.host := by
  rcases nextAct_cases h with ⟨-, hhost⟩ | ⟨-, -, a, b, -, hhost, rfl⟩
  · exact hhost ▸ List.Subset.refl _
  · exact hhost ▸ List.perm_middle.symm.subset

/-- A step from `ERROR` that serves no reset moves the channels alone and leaves no reset that was not there. -/
theorem step_in_error {s t : State} (he : s.phase = .error) (hacts : ∀ act ∈ s.host, KeepsError act)
    (h : step s = .next t) : OnlyChannelsDiffer s t ∧ ∀ act ∈ t.host, KeepsError act := by
  rcases step_cases h with ⟨act, rest, hnext, hserve⟩ | ⟨-, -, rfl⟩
  · have hsub := nextAct_subset hnext
    have hkept : t.host = rest := serve_host hserve
    refine ⟨(onlyChannelsDiffer_setHost s rest).trans
      (serve_in_error (s := s.setHost rest) he (hacts act (hsub List.mem_cons_self)) hserve), fun x hx => ?_⟩
    exact hacts x (hsub (List.mem_cons_of_mem act (hkept ▸ hx)))
  · exact ⟨.refl t, hacts⟩

theorem run_succ_next {n : Nat} {s t : State} (h : run (n + 1) s = .next t) :
    ∃ u, step s = .next u ∧ run n u = .next t := by
  rw [run_succ_eq] at h
  cases hs : step s with
  | next u => rw [hs] at h; exact ⟨u, rfl, h⟩
  | fault r => rw [hs] at h; cases h
  | refused r => rw [hs] at h; cases h

theorem run_in_error {n : Nat} {s t : State} (he : s.phase = .error) (hacts : ∀ act ∈ s.host, KeepsError act)
    (h : run n s = .next t) : OnlyChannelsDiffer s t := by
  induction n generalizing s with
  | zero => exact Host.Outcome.next.inj h ▸ .refl s
  | succ n ih =>
    obtain ⟨u, hstep, hrun⟩ := run_succ_next h
    obtain ⟨hsame, hacts'⟩ := step_in_error he hacts hstep
    exact hsame.trans (ih (hsame.phase_eq.trans he) hacts' hrun)

/-- Settles O39: a step that serves no reset moves the channels alone, and leaves acts of the same kind. -/
theorem errorIsStickyOverRuns : Obligations.ErrorIsStickyOverRuns := by
  intro n s t he hacts h
  have hsame := run_in_error he hacts h
  exact ⟨hsame.phase_eq.trans he, hsame.errcode_eq, hsame.sameDatapath⟩

/-! ### The ways into `ERROR` -/

/-- A command enters `ERROR`, with what it leaves: `BAD_PHASE` by its cell of the legality matrix, after which
`RD_DIGEST` responds 0 (R118, R121); `LEN_OVERFLOW` of a byte at the bound (R119); or a digest index that is no
command's (log entry 11). -/
inductive Raises (s : State) : Instr → State → Prop
  | badPhase {i : Instr} : legality i s.phase = .badPhase → (∀ idx, i ≠ .rdDigest idx) →
      Raises s i (s.raise .badPhase)
  | digestEarly {idx : BitVec 3} : idx.toNat < 5 → legality (.rdDigest idx) s.phase = .badPhase →
      Raises s (.rdDigest idx) ((s.raise .badPhase).respond 0#32)
  | msgFull {b : BitVec 8} : (s.phase = .shaMsg ∨ s.phase = .hmacMsg) → s.len.toNat = Config.maxBytes →
      Raises s (.msgByte b) (s.raise .lenOverflow)
  | keyFull {b : BitVec 8} : s.phase = .hmacKey → s.len.toNat = Config.maxBytes →
      Raises s (.keyByte b) (s.raise .lenOverflow)
  | noSuchWord {idx : BitVec 3} : 5 ≤ idx.toNat → Raises s (.rdDigest idx) (s.raise .illegalCmd)

theorem Raises.exec_eq {i : Instr} {s t : State} (h : Raises s i t) (hs : s.phase ≠ .error) :
    exec i s = .next t := by
  cases h with
  | badPhase hl hi => exact exec_badPhase i s hl hi
  | digestEarly hidx hl => rw [exec_rdDigest s _ hidx, hl]
  | msgFull hp hlen => rw [exec_msgByte s _ hp, settle_absorb, if_pos hlen]
  | keyFull hp hlen => rw [exec_keyByte s _ hp, settle_absorb, if_pos (by simpa using hlen)]
  | noSuchWord hidx => rw [exec_rdDigest_bad s _ hidx, State.illegalWord, if_neg hs]

theorem Raises.phase_eq {i : Instr} {s t : State} (h : Raises s i t) : t.phase = .error := by
  cases h <;> rfl

/-- No body of a command leaves `ERROR` behind, so a command that enters it raises. -/
theorem raises_of_did {i : Instr} {s t : State} (h : Did s i t) (hs : s.phase ≠ .error)
    (ht : t.phase = .error) : Raises s i t := by
  cases h with
  | badPhase _ hl hi => exact .badPhase hl hi
  | digestEarly hidx hd _ =>
    refine .digestEarly hidx ?_
    cases hp : s.phase
    case done => exact absurd hp hd
    case error => exact absurd hp hs
    all_goals rfl
  | msgFull hp hlen => exact .msgFull hp hlen
  | keyFull hp hlen => exact .keyFull hp hlen
  | noSuchWord hidx _ => exact .noSuchWord hidx
  | nop | ignored | digest | digestInError | status => exact absurd ht hs
  | msgByte | keyByte => exact absurd (by simpa using ht) hs
  | cleared | shaInit | hmacInit | keyEnd | finalSha | finalHmac => exact absurd ht nofun

/-- Outside `ERROR` a command answers a state in `ERROR` exactly when it raises. -/
theorem raises_iff {i : Instr} {s t : State} (hs : s.phase ≠ .error) :
    Raises s i t ↔ exec i s = .next t ∧ t.phase = .error :=
  ⟨fun h => ⟨h.exec_eq hs, h.phase_eq⟩, fun ⟨h, ht⟩ => raises_of_did (exec_did h) hs ht⟩

/-- A well-formed command raises `BAD_PHASE` exactly in the cells marked B. -/
theorem exec_badPhase_iff {i : Instr} {s t : State} (hi : i.wellFormed = true) (hs : s.phase ≠ .error)
    (h : exec i s = .next t) :
    t.phase = .error ∧ t.errcode = .badPhase ↔ legality i s.phase = .badPhase := by
  constructor
  · rintro ⟨ht, herr⟩
    cases (raises_iff hs).2 ⟨h, ht⟩ with
    | badPhase hl | digestEarly _ hl => exact hl
    | msgFull | keyFull | noSuchWord => cases herr
  · intro hl
    cases i with
    | rdDigest idx =>
      have hidx := Nat.lt_succ_of_le ((wellFormed_rdDigest_iff idx).1 hi)
      rw [(Raises.digestEarly hidx hl).exec_eq hs] at h
      exact Host.Outcome.next.inj h ▸ ⟨rfl, rfl⟩
    | _ =>
      rw [exec_badPhase _ s hl nofun] at h
      exact Host.Outcome.next.inj h ▸ ⟨rfl, rfl⟩

/-- Settles O35: outside `ERROR` the cells of the matrix marked B; in it a command can move the channels alone. -/
theorem badPhaseExactlyWhereNotLegal : Obligations.BadPhaseExactlyWhereNotLegal := by
  intro i s t hi h
  refine ⟨fun hs => (exec_badPhase_iff hi hs h).trans ?_, fun he hreset => ?_⟩
  · cases i <;> cases hp : s.phase <;> simp_all [legality, legalityRow]
  · have hsame := did_in_error (exec_did h) hreset he
    exact ⟨hsame.phase_eq.trans he, hsame.errcode_eq⟩

/-- Settles O36: of the ways into `ERROR` the two byte commands at the bound give this code, and both are error
entry alone. -/
theorem lenOverflowExactlyAtMaximum : Obligations.LenOverflowExactlyAtMaximum := by
  intro i s t hs h
  refine ⟨⟨?_, ?_⟩, ?_⟩
  · rintro ⟨ht, herr⟩
    cases (raises_iff hs).2 ⟨h, ht⟩ with
    | msgFull hp hlen => exact ⟨hlen, .inl ⟨⟨_, rfl⟩, hp⟩⟩
    | keyFull hp hlen => exact ⟨hlen, .inr ⟨⟨_, rfl⟩, hp⟩⟩
    | badPhase | digestEarly | noSuchWord => cases herr
  · rintro ⟨hlen, ⟨⟨b, rfl⟩, hp⟩ | ⟨⟨b, rfl⟩, hp⟩⟩
    · rw [(Raises.msgFull hp hlen).exec_eq hs] at h
      exact Host.Outcome.next.inj h ▸ ⟨rfl, rfl⟩
    · rw [(Raises.keyFull hp hlen).exec_eq hs] at h
      exact Host.Outcome.next.inj h ▸ ⟨rfl, rfl⟩
  · rintro ⟨ht, herr⟩
    cases (raises_iff hs).2 ⟨h, ht⟩ with
    | msgFull | keyFull => rfl
    | badPhase | digestEarly | noSuchWord => cases herr

/-- Settles O34: accepting the word is error entry, or nothing in `ERROR`. -/
theorem illegalWordsRaiseIllegalCmd : Obligations.IllegalWordsRaiseIllegalCmd :=
  fun _ _ _ hd => ⟨accept_illegal_of_ne_error hd, accept_illegal_of_error hd⟩

/-- Settles O37: each way into `ERROR` is error entry, with the response 0 after it for `RD_DIGEST` alone. -/
theorem errorsArePrecise : Obligations.ErrorsArePrecise := by
  refine ⟨fun i s t hi hs h ht => ?_, fun _ _ _ hd => accept_illegal_of_ne_error hd⟩
  cases (raises_iff hs).2 ⟨h, ht⟩ with
  | badPhase _ hno =>
    cases i with
    | rdDigest idx => exact absurd rfl (hno idx)
    | _ => exact ⟨.inl rfl, rfl, rfl, rfl⟩
  | digestEarly => exact ⟨.inl rfl, rfl, rfl, rfl⟩
  | msgFull | keyFull => exact ⟨.inr rfl, rfl, rfl, rfl⟩
  | noSuchWord hidx => exact absurd ((wellFormed_rdDigest_iff _).1 hi) (Nat.not_le_of_lt hidx)

/-! ### The phase `ERROR`, word by word (R123) -/

theorem accept_encode {i : Instr} (s : State) (hi : i.wellFormed = true) : s.accept (encode i) = exec i s :=
  accept_command s (decode_encode hi)

theorem accept_ignored_of_error {i : Instr} {s : State} (he : s.phase = .error) (hi : i.wellFormed = true)
    (hl : legality i .error = .ignored) (hno : ∀ idx, i ≠ .rdDigest idx) :
    s.accept (encode i) = .next s :=
  (accept_encode s hi).trans (exec_ignored i s (he ▸ hl) hno)

theorem accept_rdDigest_of_error {idx : BitVec 3} {s : State} (he : s.phase = .error) (hidx : idx.toNat ≤ 4) :
    s.accept (encode (.rdDigest idx)) = .next (s.respond 0#32) := by
  rw [accept_encode s ((wellFormed_rdDigest_iff idx).2 hidx), exec_rdDigest s idx (Nat.lt_succ_of_le hidx),
    legality_rdDigest_error idx he]

theorem status_of_error {s : State} (he : s.phase = .error) (hcode : s.errcode ≠ .none) :
    s.status = 0x00000037#32 ∨ s.status = 0x00000057#32 ∨ s.status = 0x00000077#32 := by
  unfold State.status State.digestValid State.errFlag
  rw [he]
  cases hc : s.errcode with
  | none => exact absurd hc hcode
  | illegalCmd | badPhase | lenOverflow => decide

/-- No sequence of words without `RESET` does more in `ERROR` than read. -/
theorem feed_in_error {ws : List CmdWord} {s t : State} (he : s.phase = .error) (hws : ∀ w ∈ ws, w ≠ 0xF000#16)
    (h : State.feed ws s = .next t) : OnlyChannelsDiffer s t := by
  induction ws generalizing s with
  | nil => exact Host.Outcome.next.inj h ▸ .refl s
  | cons w ws ih =>
    obtain ⟨hw, hws⟩ := List.forall_mem_cons.1 hws
    obtain ⟨u, hu⟩ := accept_next s w
    rw [feed_cons ws hu] at h
    have hsame := (accept_in_error he hw hu).trans (onlyChannelsDiffer_takeResponse u)
    exact hsame.trans (ih (hsame.phase_eq.trans he) hws h)

/-- Settles O38: word by word by the column `ERROR` of the legality matrix; a sequence of words by induction, the
channels alone moving. -/
theorem errorPhaseBehaviour : Obligations.ErrorPhaseBehaviour := by
  intro s he
  refine ⟨(accept_encode s rfl).trans (exec_reset s), (accept_encode s rfl).trans (exec_rdStatus s),
    (accept_encode s rfl).trans (exec_nop s), fun _ => accept_rdDigest_of_error he,
    accept_ignored_of_error he rfl rfl nofun, accept_ignored_of_error he rfl rfl nofun,
    fun _ => accept_ignored_of_error he rfl rfl nofun, accept_ignored_of_error he rfl rfl nofun,
    fun _ => accept_ignored_of_error he rfl rfl nofun, accept_ignored_of_error he rfl rfl nofun,
    fun _ _ hd => accept_illegal_of_error hd he, status_of_error he, fun ws t hws h => ?_⟩
  have hsame := feed_in_error he hws h
  exact ⟨hsame.phase_eq.trans he, hsame.errcode_eq⟩

end Sys2Proof.Machine
end

section
/-! SUPPORT. Reset and the waits of the channels (70_reset_and_hazards.md R135, R139, R143, R145): which act a
waiting response lets through, when a step stops, and what an invocation that reached `DONE` has hashed. -/

namespace Sys2Proof.Machine

/-! ### What a continued invocation comes to (R143) -/

/-- The result of an invocation of which `g` has been sent, `ks` and `ms` being the key and message bytes still to
come, is `d`.  Bytes the invocation has no place for do not come: sending one is an error. -/
def Invocation.ResultIs : Invocation → List Byte → List Byte → Option (List Byte) → Prop
  | .fresh, _, _, _ => False
  | .plain m, ks, ms, d => ks = [] ∧ d = sha1 (m ++ ms)
  | .keying k, ks, ms, d => d = hmac (k ++ ks) ms
  | .keyed k m, ks, ms, d => ks = [] ∧ d = hmac k (m ++ ms)
  | .finished r, ks, ms, d => ks = [] ∧ ms = [] ∧ d = r

theorem Invocation.Sends.ne_fresh {g g' : Invocation} {i : Instr} (h : g.Sends i g') (hg : g ≠ .fresh) :
    g' ≠ .fresh := by
  cases h with
  | nop => exact hg
  | _ => nofun

/-- The bytes of one more command count before those of the commands after it. -/
theorem Invocation.Sends.result_cons {g g' : Invocation} {i : Instr} (h : g.Sends i g')
    (hi : continuesInvocation i = true) {is : List Instr} {d : Option (List Byte)}
    (hd : g'.ResultIs (keyBytes is) (messageBytes is) d) :
    g.ResultIs (keyBytes (i :: is)) (messageBytes (i :: is)) d := by
  cases h with
  | nop => exact hd
  | shaInit | hmacInit => cases hi
  | msgByte | keyByte | keyedByte => simpa [Invocation.ResultIs, keyBytes, messageBytes] using hd
  | final | keyedFinal =>
    obtain ⟨hks, hms, rfl⟩ := hd
    simp [Invocation.ResultIs, keyBytes, messageBytes, hks, hms]
  | keyEnd =>
    obtain ⟨hks, rfl⟩ := hd
    simp [Invocation.ResultIs, keyBytes, messageBytes, hks]

section started
variable {g : Invocation} {s : State} (hs : g.Holds s) (hg : g ≠ .fresh)
include hs hg

/-! The phase tells how far an invocation has come. -/

theorem Invocation.Holds.exists_plain (hp : s.phase = .shaMsg) : ∃ m, g = .plain m := by
  cases g with
  | fresh => exact absurd rfl hg
  | plain m => exact ⟨m, rfl⟩
  | keying => obtain ⟨hkey, -⟩ := hs; cases hp.symm.trans hkey.phase_eq
  | keyed | finished => obtain ⟨hp', -⟩ := hs; cases hp.symm.trans hp'

theorem Invocation.Holds.exists_keying (hp : s.phase = .hmacKey) : ∃ k, g = .keying k := by
  cases g with
  | fresh => exact absurd rfl hg
  | keying k => exact ⟨k, rfl⟩
  | plain | keyed | finished => obtain ⟨hp', -⟩ := hs; cases hp.symm.trans hp'

theorem Invocation.Holds.exists_keyed (hp : s.phase = .hmacMsg) : ∃ k m, g = .keyed k m := by
  cases g with
  | fresh => exact absurd rfl hg
  | keyed k m => exact ⟨k, m, rfl⟩
  | keying => obtain ⟨hkey, -⟩ := hs; cases hp.symm.trans hkey.phase_eq
  | plain | finished => obtain ⟨hp', -⟩ := hs; cases hp.symm.trans hp'

theorem Invocation.Holds.result_of_done (hp : s.phase = .done) : g.ResultIs [] [] (some s.digestBytes) := by
  cases g with
  | fresh => exact absurd rfl hg
  | finished d =>
    obtain ⟨-, hd⟩ := hs
    exact ⟨rfl, rfl, hd.symm⟩
  | keying => obtain ⟨hkey, -⟩ := hs; cases hp.symm.trans hkey.phase_eq
  | plain | keyed => obtain ⟨hp', -⟩ := hs; cases hp.symm.trans hp'

/-- A message byte that finds `LEN` below the bound is one the invocation may send. -/
theorem Invocation.Holds.sends_msgByte (b : Byte) (hp : s.phase = .shaMsg ∨ s.phase = .hmacMsg)
    (hlen : s.len.toNat ≠ Config.maxBytes) : ∃ g', g.Sends (.msgByte b) g' := by
  have hlt := s.len.isLt
  have hmax : Config.maxBytes = 2 ^ 61 - 1 := rfl
  rcases hp with hp | hp
  · obtain ⟨m, rfl⟩ := hs.exists_plain hg hp
    obtain ⟨-, hhash⟩ := hs
    have hcount := hhash.len_eq
    exact ⟨_, .msgByte (by omega)⟩
  · obtain ⟨k, m, rfl⟩ := hs.exists_keyed hg hp
    obtain ⟨-, -, hhash⟩ := hs
    have hcount := hhash.len_eq
    rw [List.length_append, length_xorPad] at hcount
    exact ⟨_, .keyedByte (by omega)⟩

theorem Invocation.Holds.sends_keyByte (b : Byte) (hp : s.phase = .hmacKey)
    (hlen : s.len.toNat ≠ Config.maxBytes) : ∃ g', g.Sends (.keyByte b) g' := by
  have hlt := s.len.isLt
  have hmax : Config.maxBytes = 2 ^ 61 - 1 := rfl
  obtain ⟨k, rfl⟩ := hs.exists_keying hg hp
  obtain ⟨-, hhash⟩ := hs
  have hcount := hhash.len_eq
  exact ⟨_, .keyByte (by omega)⟩

/-- A command other than `RESET` sent in an invocation ends in `ERROR`, only responds, or is one the invocation
may send. -/
theorem Invocation.Holds.did_cases {i : Instr} {t : State} (h : Did s i t) (hi : i ≠ .reset) :
    t.phase = .error ∨ ((∃ v, t = s.respond v) ∧ ((∃ idx, i = .rdDigest idx) ∨ i = .rdStatus)) ∨
      ∃ g', g.Sends i g' := by
  cases h with
  | nop => exact .inr (.inr ⟨_, .nop⟩)
  | ignored he => exact .inl he
  | badPhase | msgFull | keyFull | noSuchWord | digestEarly => exact .inl rfl
  | digestInError _ he => exact .inl he
  | digest => exact .inr (.inl ⟨⟨_, rfl⟩, .inl ⟨_, rfl⟩⟩)
  | status => exact .inr (.inl ⟨⟨_, rfl⟩, .inr rfl⟩)
  | cleared => exact absurd rfl hi
  | shaInit => exact .inr (.inr ⟨_, .shaInit⟩)
  | hmacInit => exact .inr (.inr ⟨_, .hmacInit⟩)
  | msgByte hp hlen => exact .inr (.inr (hs.sends_msgByte hg _ hp hlen))
  | keyByte hp hlen => exact .inr (.inr (hs.sends_keyByte hg _ hp hlen))
  | keyEnd hp =>
    obtain ⟨k, rfl⟩ := hs.exists_keying hg hp
    exact .inr (.inr ⟨_, .keyEnd⟩)
  | finalSha hp =>
    obtain ⟨m, rfl⟩ := hs.exists_plain hg hp
    exact .inr (.inr ⟨_, .final⟩)
  | finalHmac hp =>
    obtain ⟨k, m, rfl⟩ := hs.exists_keyed hg hp
    exact .inr (.inr ⟨_, .keyedFinal⟩)

/-- A command that continues an invocation ends in `ERROR` or leaves an invocation whose result is that of the
first with the bytes of the command. -/
theorem Invocation.Holds.exec_continues {i : Instr} {t : State} (hi : continuesInvocation i = true)
    (h : exec i s = .next t) :
    t.phase = .error ∨ ∃ g' : Invocation, g'.Holds t ∧ g' ≠ .fresh ∧
      ∀ (is : List Instr) (d : Option (List Byte)), g'.ResultIs (keyBytes is) (messageBytes is) d →
        g.ResultIs (keyBytes (i :: is)) (messageBytes (i :: is)) d := by
  have hreset : i ≠ .reset := by rintro rfl; cases hi
  rcases hs.did_cases hg (exec_did h) hreset with he | ⟨⟨v, rfl⟩, hread⟩ | ⟨g', hsend⟩
  · exact .inl he
  · refine .inr ⟨g, hs.channels _ _ _, hg, fun is d hd => ?_⟩
    rcases hread with ⟨idx, rfl⟩ | rfl <;> exact hd
  · obtain ⟨u, hu, hs'⟩ := hsend.exec_holds hs
    obtain rfl := Host.Outcome.next.inj (h.symm.trans hu)
    exact .inr ⟨g', hs', hsend.ne_fresh hg, fun _ _ => hsend.result_cons hi⟩

end started

theorem Invocation.Holds.takeResponse {g : Invocation} {s : State} (h : g.Holds s) :
    g.Holds s.takeResponse := by
  obtain ⟨_, _, _, heq⟩ := onlyChannelsDiffer_takeResponse s
  exact heq ▸ h.channels _ _ _

/-- The word of a command that continues an invocation is not that of `RESET`. -/
theorem encode_ne_reset {i : Instr} (hwf : i.wellFormed = true) (hi : continuesInvocation i = true) :
    encode i ≠ 0xF000#16 := by
  intro hw
  have hdecode : decode (encode i) = .command .reset := by rw [hw]; rfl
  rw [decode_encode hwf] at hdecode
  obtain rfl := Decoded.command.inj hdecode
  cases hi

/-- An invocation continued up to `DONE` has the result of the bytes sent, since every byte out of place leads
to `ERROR`, which only `RESET` leaves. -/
theorem Invocation.Holds.result_of_feed {is : List Instr} {g : Invocation} {s t : State} (hs : g.Holds s)
    (hg : g ≠ .fresh) (his : ∀ i ∈ is, i.wellFormed = true ∧ continuesInvocation i = true)
    (ht : t.phase = .done) (h : State.feed (programWords is) s = .next t) :
    g.ResultIs (keyBytes is) (messageBytes is) (some t.digestBytes) := by
  induction is generalizing g s with
  | nil =>
    obtain rfl := Host.Outcome.next.inj h
    exact hs.result_of_done hg ht
  | cons i is ih =>
    obtain ⟨⟨hwf, hi⟩, his⟩ := List.forall_mem_cons.1 his
    obtain ⟨u, hu⟩ := exec_next i s
    rw [programWords, List.map_cons, feed_cons _ ((accept_encode s hwf).trans hu)] at h
    rcases hs.exec_continues hg hi hu with he | ⟨g', hs', hg', hresult⟩
    · have hwords : ∀ w ∈ is.map encode, w ≠ 0xF000#16 :=
        List.forall_mem_map.2 fun j hj => encode_ne_reset (his j hj).1 (his j hj).2
      have herror : u.takeResponse.phase = .error := (takeResponse_phase u).trans he
      have hstuck := feed_in_error herror hwords h
      cases ht.symm.trans (hstuck.phase_eq.trans herror)
    · exact hresult is _ (ih hs'.takeResponse hg' his h)

/-- `result_of_feed` of the holding state, from the command that begins the invocation. -/
theorem Invocation.Sends.result_of_feed {g : Invocation} {i : Instr} {is : List Instr} {s t : State}
    (hsend : Invocation.fresh.Sends i g) (hg : g ≠ .fresh) (hs : s.phase ≠ .error)
    (his : ∀ i ∈ is, i.wellFormed = true ∧ continuesInvocation i = true) (ht : t.phase = .done)
    (h : State.feed (programWords (i :: is)) s = .next t) :
    g.ResultIs (keyBytes is) (messageBytes is) (some t.digestBytes) := by
  obtain ⟨u, hu, hstart⟩ := hsend.exec_holds (s := s) hs
  rw [programWords, List.map_cons, feed_cons _ ((accept_encode s hsend.wellFormed).trans hu)] at h
  exact hstart.takeResponse.result_of_feed hg his ht h

/-- Settles O58: by induction on the commands, each of which the invocation has a place for, only responds, or
leads to `ERROR` for good. -/
theorem doneDigestIsOfTheBytesSent : Obligations.DoneDigestIsOfTheBytesSent := by
  intro is s t hs his ht
  refine ⟨fun h => ?_, fun h => ?_⟩
  · obtain ⟨-, hdigest⟩ := Invocation.Sends.shaInit.result_of_feed nofun hs his ht h
    exact hdigest.symm
  · exact (Invocation.Sends.hmacInit.result_of_feed nofun hs his ht h).symm

/-! ### The act a waiting response lets through (R139) -/

theorem nextAct_of_waiting {s : State} {v : Word} (hr : s.rsp = some v) :
    s.nextAct = firstWithoutCommand s.host := by
  rw [State.nextAct, hr]

theorem step_of_nextAct {s : State} {act : HostAct} {rest : List HostAct}
    (h : s.nextAct = some (act, rest)) : step s = (s.setHost rest).serve act := by
  rw [step, h]

/-- Settles O52: behind a waiting response the act served is a take or a hard reset, past offers only. -/
theorem responseIsTakenBeforeNextCommand : Obligations.ResponseIsTakenBeforeNextCommand := by
  intro s t v hr h
  rcases step_cases h with ⟨act, rest, hact, hserve⟩ | ⟨-, hhost, rfl⟩
  · rw [nextAct_of_waiting hr] at hact
    obtain ⟨a, b, ha, hhost, rfl, rfl | rfl⟩ := firstWithoutCommand_some hact
    · have htake := takeResponse_some (s := s.setHost (a ++ b)) hr
      exact .inr (.inl ⟨a, b, ha, hhost, (Host.Outcome.next.inj hserve).symm.trans htake⟩)
    · exact .inr (.inr ⟨a, b, ha, hhost, (Host.Outcome.next.inj hserve).symm⟩)
  · exact .inl ⟨hhost, rfl⟩

/-! ### When a step stops (R145) -/

theorem serve_next (s : State) (act : HostAct) : ∃ t, s.serve act = .next t := by
  cases act with
  | offer w => exact accept_next s w
  | take => exact ⟨_, rfl⟩
  | hardReset => exact ⟨_, rfl⟩

/-- No act can be served when there is none, or when all are commands behind a waiting response. -/
theorem nextAct_none {s : State} (h : s.nextAct = none) :
    s.host = [] ∨ ((∃ v, s.rsp = some v) ∧ ∀ act ∈ s.host, ∃ w, act = .offer w) := by
  cases hr : s.rsp with
  | some v =>
    rw [nextAct_of_waiting hr] at h
    exact .inr ⟨⟨v, rfl⟩, firstWithoutCommand_none h⟩
  | none =>
    cases hhost : s.host with
    | nil => exact .inl rfl
    | cons act rest => simp [State.nextAct, hr, hhost] at h

/-- Settles O53: an act that is served answers a next state; with none to serve the core waits, and stops only
when acts are left. -/
theorem everyAcceptedCommandCompletes : Obligations.EveryAcceptedCommandCompletes := by
  refine ⟨accept_next, fun s => ?_⟩
  cases hact : s.nextAct with
  | some p =>
    obtain ⟨act, rest⟩ := p
    rw [step_of_nextAct hact]
    exact .inl (serve_next _ act)
  | none =>
    by_cases hhost : s.host = []
    · exact .inl ⟨s, step_idle hhost⟩
    · obtain ⟨hwaiting, hoffers⟩ := (nextAct_none hact).resolve_left hhost
      obtain ⟨act, rest, hcons⟩ := List.exists_cons_of_ne_nil hhost
      have hstop : step s = .fault .responseNeverTaken := by rw [step, hact, State.wait, hcons]
      exact .inr ⟨hstop, hwaiting, hhost, hoffers⟩

/-! ### Hard reset (R135) -/

/-- Settles O49: both leave `IDLE`, in which no hidden register can be read, without an error or a response. -/
theorem hardResetLooksLikeResetCommand : Obligations.HardResetLooksLikeResetCommand :=
  fun s hr => ⟨s.clearError, exec_reset s, rfl, rfl, hr.symm, rfl, rfl, trivial⟩

/-- Behind a waiting response a hard reset is served past the commands offered before it. -/
theorem step_hardReset_of_waiting {s : State} {v : Word} {a b : List HostAct} (hr : s.rsp = some v)
    (ha : ∀ act ∈ a, ∃ w, act = .offer w) (hhost : s.host = a ++ .hardReset :: b) :
    step s = .next (s.setHost (a ++ b)).hardReset := by
  have hact : s.nextAct = some (.hardReset, a ++ b) := by
    rw [nextAct_of_waiting hr, hhost, firstWithoutCommand_append ha (.inr rfl)]
  exact step_of_nextAct hact

/-- Settles O51: a step serves a hard reset at the head of the acts, or past the offers behind a waiting response;
the registers it sets are those of its laws in Laws/State. -/
theorem hardResetIsServed : Obligations.HardResetIsServed :=
  ⟨fun _ => rfl, fun _ _ => step_hardReset, fun _ _ _ _ => step_hardReset_of_waiting,
    fun s => ⟨hardReset_phase s, hardReset_errcode s, hardReset_rsp s, hardReset_taken s, hardReset_host s⟩⟩

end Sys2Proof.Machine
end

section
/-! SUPPORT. Words written out from the opcode map (30_encoding.md R50; 95_test_vectors.md section 6.1), read by
the general laws of the decoder. -/

namespace Sys2Proof.Machine

/-- `MSG_BYTE` with a bit set between opcode and byte (R53). -/
theorem decode_msgByte_reservedBits : decode 0x4100#16 = .illegal .reservedBits := by
  obtain ⟨-, hformatB, -⟩ := reservedBitsAreIllegal 0x4100#16
  exact hformatB (by decide) (by decide)

/-- The opcode of `RESET` with the twelve bits below it set (R53). -/
theorem decode_reset_reservedBits : decode 0xFFFF#16 = .illegal .reservedBits := by
  obtain ⟨hformatN, -, -⟩ := reservedBitsAreIllegal 0xFFFF#16
  exact hformatN (by decide) (by decide)

/-- Settles O1: the ten legal words are the encodings of their commands; of the four others each is illegal by
the rule for its kind. -/
theorem writtenWordsDecode : Obligations.WrittenWordsDecode :=
  ⟨decode_encode (i := .nop) rfl, decode_encode (i := .shaInit) rfl, decode_encode (i := .hmacInit) rfl,
    decode_encode (i := .keyEnd) rfl, decode_encode (i := .msgByte 0x61#8) rfl,
    decode_encode (i := .keyByte 0x80#8) rfl, decode_encode (i := .final) rfl,
    decode_encode (i := .rdDigest 4#3) rfl, decode_encode (i := .rdStatus) rfl, decode_encode (i := .reset) rfl,
    decode_msgByte_reservedBits, decode_indexOutOfRange (idx := 5#3) (by decide), decode_reset_reservedBits,
    decode_reservedOpcode (w := 0x9000#16) (by decide) (by decide)⟩

end Sys2Proof.Machine
end
